-- ==== Sys2Proof/Word.lean ====
section
/-! DEFINITION. The plain number types of the GLZW block. Every quantity of the block is an unsigned natural
(spec/41_lzw_decoder.md R110); the types below are the widths spec/10_state.md gives them. -/

namespace Sys2Proof

/-- One byte of `IN`, of `OUT` or of a dictionary entry (spec/20_memory.md R48). -/
abbrev Byte := BitVec 8

/-- An LZW code zero-extended to 12 bits, and so also a dictionary index (spec/30_encoding.md R64). -/
abbrev Code := BitVec 12

/-- The contents of a control and status register: `CSR_W = 32` (spec/00_scope.md R6, spec/10_state.md R26). -/
abbrev Word := BitVec 32

/-- One bit of a status word: 1 for true. -/
abbrev bit (b : Bool) : BitVec 1 := BitVec.ofBool b

end Sys2Proof
end

