-- ==== Sys2Proof/Config.lean ====
section
/-! DEFINITION. What an implementation fixes (spec/00_scope.md R6, R7) and the free values: values the spec says
must not be depended on. The fixed parameters of R6 (`M_MIN` 1, `M_MAX` 8, `W_MAX` 12, `DICT_SIZE` 4096, `STACK_DEPTH` 4096,
`BLK_MAX` 255 and the register widths) stand as these numerals where the rules use them. A free value is an opaque constant, so nothing can be proved about which value it is. -/

namespace Sys2Proof

/-- The one open implementation parameter (spec/00_scope.md R7, spec/92_eei_decisions.md D11): the reading of
"reaches" in the width growth rule R96. It is configuration, constant over a run (spec/10_state.md R10); State
carries it so that every statement over all states is a statement for both values. -/
structure Config where
  /-- `GROW_GE`: false is the literal reading `NEXT = 2^W` (the default), true is `NEXT >= 2^W`. -/
  growGe : Bool := false
  deriving DecidableEq, Repr, Inhabited

/-- FREE VALUE (spec/93_implementation_defined.md U4, "any value"): the `PFX` field that the dictionary holds at an
index no append has written since power-on. Assumption log 6. -/
opaque Config.dictPowerOnPfx : Nat → Code

/-- FREE VALUE (U4): the `BYTE` field at such an index. Assumption log 6. -/
opaque Config.dictPowerOnByte : Nat → Byte

/-- FREE VALUE (U5, U15): what the output memory holds, before any write of the block or the host, at a memory address.
Assumption log 5. -/
opaque Config.outOldByte : Nat → Byte

/-- FREE VALUE (U6, spec/70_reset_and_hazards.md R146): the bits of `STATUS` other than `BUSY` and `DONE` that a host
read returns while the block is busy; the argument counts such reads, so each read may see other bits.
Assumption log 8. -/
opaque Config.busyStatusBits : Nat → Word

end Sys2Proof
end

