-- ==== Sys2Proof/Syntax.lean ====
section
/-! DEFINITION. The instructions: one constructor per row of spec/opcode_table.json (37 rows), the raw encoded items
they are decoded from, and the decoder's context.

The three kinds of encoded item are spec/00_scope.md R2's: sub-block bytes (format SB), LZW codes (format CODE) and
host commands (format CMD). The rows CLEAR, END and LIT stand for a code class under any M; the rows CLEAR.M1 to LIT.M8
are the same class with the bit pattern of one M (spec/30_encoding.md R67). -/

namespace Sys2Proof

/-- The instruction set: the rows of spec/opcode_table.json, in its order. -/
inductive Instr where
  /-- `SB.TERM` (R82): the terminator byte 0x00 read at a length-byte position. -/
  | sbTerm
  /-- `SB.LEN` (R81): the length byte `L`, 1 to 255. -/
  | sbLen (len : Byte)
  /-- `SB.DATA` (R83): a data byte, any value. -/
  | sbData (b : Byte)
  /-- `CLEAR` (R100), the class under any M: the code `2^M`. -/
  | clear
  /-- `END` (R101), the class under any M: the code `2^M + 1`. -/
  | endCode
  /-- `LIT` (R97), the class under any M: a code below `2^M`. -/
  | lit (c : Code)
  /-- `DICT` (R98): an assigned dictionary code, `2^M + 2 <= c < NEXT`. -/
  | dict (c : Code)
  /-- `KWKWK` (R99): the code equal to `NEXT` when there is a previous code. -/
  | kwkwk (c : Code)
  /-- `INVALID` (R102): every other code. -/
  | invalid (c : Code)
  /-- `CLEAR.M1` (R100, R67): code 0x002, M = 1. -/
  | clearM1
  /-- `END.M1` (R101, R67): code 0x003, M = 1. -/
  | endM1
  /-- `LIT.M1` (R97, R67): a 1-bit literal, M = 1. -/
  | litM1 (b : BitVec 1)
  /-- `CLEAR.M2` (R100, R67): code 0x004, M = 2. -/
  | clearM2
  /-- `END.M2` (R101, R67): code 0x005, M = 2. -/
  | endM2
  /-- `LIT.M2` (R97, R67): a 2-bit literal, M = 2. -/
  | litM2 (b : BitVec 2)
  /-- `CLEAR.M3` (R100, R67): code 0x008, M = 3. -/
  | clearM3
  /-- `END.M3` (R101, R67): code 0x009, M = 3. -/
  | endM3
  /-- `LIT.M3` (R97, R67): a 3-bit literal, M = 3. -/
  | litM3 (b : BitVec 3)
  /-- `CLEAR.M4` (R100, R67): code 0x010, M = 4. -/
  | clearM4
  /-- `END.M4` (R101, R67): code 0x011, M = 4. -/
  | endM4
  /-- `LIT.M4` (R97, R67): a 4-bit literal, M = 4. -/
  | litM4 (b : BitVec 4)
  /-- `CLEAR.M5` (R100, R67): code 0x020, M = 5. -/
  | clearM5
  /-- `END.M5` (R101, R67): code 0x021, M = 5. -/
  | endM5
  /-- `LIT.M5` (R97, R67): a 5-bit literal, M = 5. -/
  | litM5 (b : BitVec 5)
  /-- `CLEAR.M6` (R100, R67): code 0x040, M = 6. -/
  | clearM6
  /-- `END.M6` (R101, R67): code 0x041, M = 6. -/
  | endM6
  /-- `LIT.M6` (R97, R67): a 6-bit literal, M = 6. -/
  | litM6 (b : BitVec 6)
  /-- `CLEAR.M7` (R100, R67): code 0x080, M = 7. -/
  | clearM7
  /-- `END.M7` (R101, R67): code 0x081, M = 7. -/
  | endM7
  /-- `LIT.M7` (R97, R67): a 7-bit literal, M = 7. -/
  | litM7 (b : BitVec 7)
  /-- `CLEAR.M8` (R100, R67): code 0x100, M = 8. -/
  | clearM8
  /-- `END.M8` (R101, R67): code 0x101, M = 8. -/
  | endM8
  /-- `LIT.M8` (R97, R67): a 8-bit literal, M = 8. -/
  | litM8 (b : BitVec 8)
  /-- `START` (R113): `CTRL.CMD = 1`. -/
  | start
  /-- `SKIP` (R114): `CTRL.CMD = 2`. -/
  | skip
  /-- `NOP` (R115): `CTRL.CMD = 0`. -/
  | nop
  /-- `NOP.3` (R115): `CTRL.CMD = 3`. -/
  | nop3
  deriving DecidableEq, Repr

/-- A raw encoded item (spec/30_encoding.md R60, R71): what the decoder is given. -/
inductive Item where
  /-- Format `SB`: one byte of the chain. -/
  | sb (b : Byte)
  /-- Format `CODE`: a code of the current width, zero-extended to 12 bits (R64). -/
  | code (c : Code)
  /-- Format `CMD`: the word written to `CTRL`. -/
  | cmd (v : Word)
  deriving DecidableEq, Repr

/-- The part of the block's state that decoding reads (R62, R67): the reader's `CLOSED` and `BLKREM`, and the decoder's
`M`, `W`, `NEXT` and `PREVV`. -/
structure Ctx where
  closed : Bool
  blkrem : BitVec 8
  m      : BitVec 4
  w      : BitVec 4
  next   : BitVec 13
  prevv  : Bool
  deriving DecidableEq, Repr

/-- `CLR = 2^M`, the CLEAR code (spec/10_state.md R12). -/
def clrOf (m : BitVec 4) : Nat := 2 ^ m.toNat
/-- `EOI = 2^M + 1`, the END code (R12). -/
def eoiOf (m : BitVec 4) : Nat := 2 ^ m.toNat + 1
/-- `FIRST = 2^M + 2`, the first assignable slot (R12). -/
def firstOf (m : BitVec 4) : Nat := 2 ^ m.toNat + 2
/-- The legal values of `M`, 1 to 8 (R12, spec/30_encoding.md R69). -/
def legalM (m : BitVec 4) : Bool := decide (1 ≤ m.toNat) && decide (m.toNat ≤ 8)

end Sys2Proof
end

