-- ==== Sys2Proof/WellFormed.lean ====
section
/-! DEFINITION. Well-formedness: when an instruction is one that the decoder can meet in a context. The conditions are
the "condition" column of spec/opcode_table.json and the classes of spec/30_encoding.md R62 and R67. -/

namespace Sys2Proof

/-- A code can be expressed at the current width: `c < 2^W` (R64, R73). -/
def fitsWidth (x : Ctx) (c : Nat) : Bool := decide (c < 2 ^ x.w.toNat) && decide (c < 4096)

/-- A length-byte position: `BLKREM = 0` and `CLOSED = 0` (R62, R81, R82). -/
def atLength (x : Ctx) : Bool := !x.closed && decide (x.blkrem = 0)

/-- The row of one `M`: its context has that `M`. -/
def hasM (x : Ctx) (m : Nat) : Bool := decide (x.m.toNat = m)

/-- The instruction `i` is one that can stand in context `x`. -/
def Instr.wf (x : Ctx) : Instr → Bool
  | .sbTerm => atLength x
  | .sbLen len => atLength x && decide (len ≠ 0)
  | .sbData _ => !x.closed && decide (x.blkrem ≠ 0)
  | .clear => !legalM x.m && fitsWidth x (clrOf x.m)
  | .endCode => !legalM x.m && fitsWidth x (eoiOf x.m)
  | .lit c => !legalM x.m && decide (c.toNat < clrOf x.m) && fitsWidth x c.toNat
  | .dict c => decide (firstOf x.m ≤ c.toNat) && decide (c.toNat < x.next.toNat) && fitsWidth x c.toNat
  | .kwkwk c => decide (firstOf x.m ≤ c.toNat) && decide (c.toNat = x.next.toNat) && x.prevv && fitsWidth x c.toNat
  | .invalid c => decide (firstOf x.m ≤ c.toNat) && fitsWidth x c.toNat
      && (decide (x.next.toNat < c.toNat) || (decide (c.toNat = x.next.toNat) && !x.prevv))
  | .clearM1 => hasM x 1 && fitsWidth x 2
  | .endM1 => hasM x 1 && fitsWidth x 3
  | .litM1 b => hasM x 1 && fitsWidth x b.toNat
  | .clearM2 => hasM x 2 && fitsWidth x 4
  | .endM2 => hasM x 2 && fitsWidth x 5
  | .litM2 b => hasM x 2 && fitsWidth x b.toNat
  | .clearM3 => hasM x 3 && fitsWidth x 8
  | .endM3 => hasM x 3 && fitsWidth x 9
  | .litM3 b => hasM x 3 && fitsWidth x b.toNat
  | .clearM4 => hasM x 4 && fitsWidth x 16
  | .endM4 => hasM x 4 && fitsWidth x 17
  | .litM4 b => hasM x 4 && fitsWidth x b.toNat
  | .clearM5 => hasM x 5 && fitsWidth x 32
  | .endM5 => hasM x 5 && fitsWidth x 33
  | .litM5 b => hasM x 5 && fitsWidth x b.toNat
  | .clearM6 => hasM x 6 && fitsWidth x 64
  | .endM6 => hasM x 6 && fitsWidth x 65
  | .litM6 b => hasM x 6 && fitsWidth x b.toNat
  | .clearM7 => hasM x 7 && fitsWidth x 128
  | .endM7 => hasM x 7 && fitsWidth x 129
  | .litM7 b => hasM x 7 && fitsWidth x b.toNat
  | .clearM8 => hasM x 8 && fitsWidth x 256
  | .endM8 => hasM x 8 && fitsWidth x 257
  | .litM8 b => hasM x 8 && fitsWidth x b.toNat
  | .start => true
  | .skip => true
  | .nop => true
  | .nop3 => true

end Sys2Proof
end

