-- ==== Sys2Proof/Decode.lean ====
section
/-! DEFINITION. The decoder, total on every item in every context, rejecting by name; and after it the encoder, written
from the same tables (spec/30_encoding.md R62, R67, R71). Last, the host's table words. -/

namespace Sys2Proof

/-- Why the decoder rejects an item. -/
inductive DecodeError where
  /-- A byte offered to a reader whose chain is closed: it reads no byte (R85). -/
  | chainClosed
  /-- A code value that does not fit in the current width: no `W` bits of the stream read so (R64). -/
  | codeTooWide
  deriving DecidableEq, Repr

/-! ### Decoding -/

/-- Classification of an input byte by the reader's `BLKREM` (R62). -/
def classifySb (blkrem : BitVec 8) (b : Byte) : Instr :=
  if blkrem = 0 then (if b = 0 then .sbTerm else .sbLen b) else .sbData b

/-- The CLEAR row for `M`: the row of that `M` for the legal values, the class row for any other. -/
def clearRow (m : BitVec 4) : Instr :=
  match m.toNat with
  | 1 => .clearM1
  | 2 => .clearM2
  | 3 => .clearM3
  | 4 => .clearM4
  | 5 => .clearM5
  | 6 => .clearM6
  | 7 => .clearM7
  | 8 => .clearM8
  | _ => .clear

/-- The END row for `M`. -/
def endRow (m : BitVec 4) : Instr :=
  match m.toNat with
  | 1 => .endM1
  | 2 => .endM2
  | 3 => .endM3
  | 4 => .endM4
  | 5 => .endM5
  | 6 => .endM6
  | 7 => .endM7
  | 8 => .endM8
  | _ => .endCode

/-- The LIT row for `M`; the operand `b` is the field `[M-1:0]` of the code. -/
def litRow (m : BitVec 4) (c : Code) : Instr :=
  match m.toNat with
  | 1 => .litM1 (c.setWidth 1)
  | 2 => .litM2 (c.setWidth 2)
  | 3 => .litM3 (c.setWidth 3)
  | 4 => .litM4 (c.setWidth 4)
  | 5 => .litM5 (c.setWidth 5)
  | 6 => .litM6 (c.setWidth 6)
  | 7 => .litM7 (c.setWidth 7)
  | 8 => .litM8 (c.setWidth 8)
  | _ => .lit c

/-- Classification of a code, tested in the order of R67: CLEAR, END, literal, assigned entry, KwKwK, invalid. -/
def classifyCode (x : Ctx) (c : Code) : Instr :=
  if c.toNat = clrOf x.m then clearRow x.m
  else if c.toNat = eoiOf x.m then endRow x.m
  else if c.toNat < clrOf x.m then litRow x.m c
  else if c.toNat < x.next.toNat then .dict c
  else if c.toNat = x.next.toNat ∧ x.prevv = true then .kwkwk c
  else .invalid c

/-- Classification of a host command by `CTRL[1:0]` (R71). -/
def classifyCmd (cmd : BitVec 2) : Instr :=
  match cmd.toNat with
  | 0 => .nop
  | 1 => .start
  | 2 => .skip
  | _ => .nop3

/-- THE DECODER: every item in every context is an instruction or is rejected by name. -/
def decode (x : Ctx) : Item → Except DecodeError Instr
  | .sb b => if x.closed then .error .chainClosed else .ok (classifySb x.blkrem b)
  | .code c => if c.toNat < 2 ^ x.w.toNat then .ok (classifyCode x c) else .error .codeTooWide
  | .cmd v => .ok (classifyCmd (v.setWidth 2))

/-! ### Encoding -/

/-- THE ENCODER: the item that stands for an instruction in a context (R62, R67, R71). -/
def encode (x : Ctx) : Instr → Item
  | .sbTerm => .sb 0x00
  | .sbLen len => .sb len
  | .sbData b => .sb b
  | .clear => .code (BitVec.ofNat 12 (clrOf x.m))
  | .endCode => .code (BitVec.ofNat 12 (eoiOf x.m))
  | .lit c => .code c
  | .dict c => .code c
  | .kwkwk c => .code c
  | .invalid c => .code c
  | .clearM1 => .code 0x002
  | .endM1 => .code 0x003
  | .litM1 b => .code (b.setWidth 12)
  | .clearM2 => .code 0x004
  | .endM2 => .code 0x005
  | .litM2 b => .code (b.setWidth 12)
  | .clearM3 => .code 0x008
  | .endM3 => .code 0x009
  | .litM3 b => .code (b.setWidth 12)
  | .clearM4 => .code 0x010
  | .endM4 => .code 0x011
  | .litM4 b => .code (b.setWidth 12)
  | .clearM5 => .code 0x020
  | .endM5 => .code 0x021
  | .litM5 b => .code (b.setWidth 12)
  | .clearM6 => .code 0x040
  | .endM6 => .code 0x041
  | .litM6 b => .code (b.setWidth 12)
  | .clearM7 => .code 0x080
  | .endM7 => .code 0x081
  | .litM7 b => .code (b.setWidth 12)
  | .clearM8 => .code 0x100
  | .endM8 => .code 0x101
  | .litM8 b => .code (b.setWidth 12)
  | .start => .cmd 1
  | .skip => .cmd 2
  | .nop => .cmd 0
  | .nop3 => .cmd 3

/-! ### The host's table words

A word of spec/opcode_table.json does not say which layer it belongs to, nor (for a code) the `M`, `W`, `NEXT` and `PREVV`
it is read under; the two functions below fix that context for a word taken alone. Assumption log 12. -/

/-- The `M` a code word taken alone is read under: the least legal `M` whose END code is not below the word, so that the
CLEAR and END words of each `M` are read as that `M`'s; 8 for the words above 257. -/
def tableM (c : Nat) : Nat :=
  if c ≤ 3 then 1 else if c ≤ 5 then 2 else if c ≤ 9 then 3 else if c ≤ 17 then 4
  else if c ≤ 33 then 5 else if c ≤ 65 then 6 else if c ≤ 129 then 7 else 8

/-- The context of a code word taken alone: the context `START` leaves (R113) for `tableM`; the width is `M + 1` where the
word fits it, else 12. -/
def tableCtx (c : Nat) : Ctx :=
  { closed := false, blkrem := 0
    m := BitVec.ofNat 4 (tableM c)
    w := if c < 2 ^ (tableM c + 1) then BitVec.ofNat 4 (tableM c + 1) else 12
    next := BitVec.ofNat 13 (2 ^ tableM c + 2), prevv := false }

/-- The item a table word stands for: up to 2 bits a command; up to 8 bits the terminator for 0, a command for 1 to 3, a
length byte for 4 to 255; up to 16 bits a code; up to 32 bits a command (the whole `CTRL` word). -/
def tableItem (nbits w : Nat) : Option Item :=
  if nbits ≤ 2 then (if w < 4 then some (.cmd (BitVec.ofNat 32 w)) else none)
  else if nbits ≤ 8 then
    (if w = 0 then some (.sb 0)
     else if w < 4 then some (.cmd (BitVec.ofNat 32 w))
     else if w < 256 then some (.sb (BitVec.ofNat 8 w)) else none)
  else if nbits ≤ 16 then (if w < 4096 then some (.code (BitVec.ofNat 12 w)) else none)
  else if nbits ≤ 32 then (if w < 2 ^ 32 then some (.cmd (BitVec.ofNat 32 w)) else none)
  else none

/-- What the decoder reads from a word of the opcode table. -/
def decodeTableWord (nbits w : Nat) : Option Instr :=
  match tableItem nbits w with
  | some item =>
    match decode (tableCtx w) item with
    | .ok i => some i
    | .error _ => none
  | none => none

end Sys2Proof
end

