-- ==== Sys2Proof/Machine/State.lean ====
section
/-! DEFINITION. The state of one GLZW block with the host's memories and queued host operations, as plain data;
the reasons a step can stop; the state after reset (spec/10_state.md R10 to R31). -/

namespace Sys2Proof.Machine

/-- `ST`, the control state, 2 bits (R11). -/
inductive CtlState where
  | idle | decode | drain | done
  deriving DecidableEq, Repr

/-- `CAUSE`, the result of the last command, 4 bits (R22, spec/60_exceptions.md R123). The values 6 to 15 are never
produced (U10), so they have no constructor. -/
inductive Cause where
  | none | ok | short | truncated | corrupt | badParam
  deriving DecidableEq, Repr

/-- The eight host registers (R26). -/
inductive Csr where
  | ctrl | mincode | olen | status | ocnt | icnt | einfo | dstate
  deriving DecidableEq, Repr

/-- One dictionary entry: `PFX`, 12 bits, and `BYTE`, 8 bits (R24). -/
structure DictEntry where
  pfx  : Code
  byte : Byte
  deriving DecidableEq, Repr

/-- A byte memory: address and byte pairs, addresses strictly rising; an address not listed holds no byte that the block or
the host has written (canonical form: `Memory.wf` in Operands). -/
abbrev Memory := List Host.Cell

/-- The dictionary table: index and entry pairs, indices strictly rising; an index not listed has not been written since
power-on (`DictMem.wf` in Operands). -/
abbrev DictMem := List (Nat × DictEntry)

/-- One operation of the host (R3, spec/42_host_commands.md, spec/70_reset_and_hazards.md R141, R143). The host's pending
operations stand in State as a list; each lands between two block steps. -/
inductive HostOp where
  /-- Write a 32-bit word to the register at a byte offset (R116; a write to `CTRL` is a command, R71). -/
  | write (offset : Nat) (value : Word)
  /-- Read the register at a byte offset (R117). -/
  | read (offset : Nat)
  /-- Sample the output line `done` (R132). -/
  | sampleDone
  /-- Read the byte of the output slice at an address, an offset from the start of the slice (R40, R119). -/
  | readOut (addr : Nat)
  /-- Provide an output slice (R143 step 3): `len` bytes of the output memory from `base` on. -/
  | bindOut (base len : Nat)
  /-- Fill a byte of the output slice (R42: `OUT` holds "whatever the host or an earlier decode left there"). -/
  | writeOut (addr : Nat) (value : Byte)
  /-- Present an input stream: byte 0 is a length byte, the length is `ILEN` (R41, R143 step 4). -/
  | bindIn (bytes : List Byte)
  /-- Reset the block, in any state (R141). -/
  | reset
  /-- Wait until the block is not busy (R143 steps 1 and 6). -/
  | waitNotBusy
  /-- Do nothing for one block step, so that the operation after it lands behind that step. -/
  | letRun
  deriving DecidableEq, Repr

/-- Why the machine stops with a fault. No fault belongs to the block's own behaviour: R123 lists no exception besides
the halts, and a halt is a next state. -/
inductive Fault where
  /-- Raised by a host register access at an offset that is none of the eight (R26: "There is no other register").
  Safe: nothing can be proved about such an access going on. -/
  | unmappedRegister (offset : Nat)
  /-- Raised by a host access to the output slice at an address beyond its end (R40: `OUT` has the bytes of the slice and no
  other). Safe: nothing can be proved about such an access going on. -/
  | outsideSlice (addr : Nat)
  /-- Raised by the codes that emit a string when the walk along the prefix chain pushes more than the 4096 bytes the
  reversal stack holds. It cannot happen in a state that meets `Inv` (R25: "so the stack never overflows"). Safe. -/
  | stackOverflow
  /-- Raised by the codes that append an entry when the walk to the first byte of a string meets no literal in 4096
  entries. It cannot happen in a state that meets `Inv` (R29 item 6). Safe. -/
  | prefixChainUnbounded
  deriving DecidableEq, Repr

/-- Why the model gives no meaning. -/
inductive Refusal where
  /-- An instruction with no meaning yet, by its mnemonic. No arm of `exec` answers so. -/
  | notModelled (mnemonic : String)
  /-- Raised by a host read of `OUT`, `OCNT`, `ICNT`, `EINFO` or `DSTATE` while the block is busy: R146 puts it outside
  the admitted use ("refuse", U6). Safe. -/
  | readWhileBusy
  /-- Raised by a host that changes the input stream while the block is busy: R52, R147 ("refuse", U7). Safe. -/
  | inputChangedWhileBusy
  /-- Raised by a host that provides another output slice or fills the slice while the block is busy: R50 "no other agent
  accesses those memories while the block is busy". Safe. -/
  | outputChangedWhileBusy
  /-- Raised by a host that starts a decode with a slice of fewer than `OLEN` bytes: U9 ("refuse"; "the host must provide
  that many bytes or lower `OLEN`"), R143 step 3. Safe. -/
  | outputSliceTooShort
  /-- Raised by a block step whose item the decoder rejects. It cannot happen: the step offers the decoder only bytes of
  an open chain and codes cut at the current width. Safe. -/
  | undecodable (e : DecodeError)
  deriving DecidableEq, Repr

/-- The whole state: the registers of R11 to R23 each under its own name, the dictionary (R24), the reversal stack (R25),
the host's two memories (R40) and the model's own fields last. -/
@[ext]
structure State where
  /-- The implementation parameter (R7); no step changes it. -/
  cfg     : Config
  /-- `ST` (R11). -/
  st      : CtlState
  /-- `M` (R12). -/
  m       : BitVec 4
  /-- `W` (R13). -/
  w       : BitVec 4
  /-- `NEXT` (R14). -/
  next    : BitVec 13
  /-- `PREV` (R15). -/
  prev    : Code
  /-- `PREVV` (R15). -/
  prevv   : Bool
  /-- `BITBUF` (R16). -/
  bitbuf  : BitVec 19
  /-- `NBITS` (R16). -/
  nbits   : BitVec 5
  /-- `BLKREM` (R17). -/
  blkrem  : BitVec 8
  /-- `CLOSED` (R18). -/
  closed  : Bool
  /-- `OLEN` (R19). -/
  olen    : BitVec 32
  /-- `OCNT` (R19). -/
  ocnt    : BitVec 32
  /-- `IPOS` (R20), the stream position: an unbounded natural. -/
  ipos    : Nat
  /-- `ENDSEEN` (R21). -/
  endseen : Bool
  /-- `OVF` (R21). -/
  ovf     : Bool
  /-- `TRUNC` (R21). -/
  trunc   : Bool
  /-- `MODE` (R21): false after `START`, true after `SKIP`. -/
  mode    : Bool
  /-- `CAUSE` (R22). -/
  cause   : Cause
  /-- `ECODE` (R23). -/
  ecode   : Code
  /-- `EWIDTH` (R23). -/
  ewidth  : BitVec 4
  /-- `ENEXT` (R23). -/
  enext   : BitVec 13
  /-- `DICT` (R24). -/
  dict    : DictMem
  /-- The reversal stack (R25), top first; empty between steps. -/
  stack   : List Byte
  /-- `IN` (R41): the bound input stream, `ILEN` its length. -/
  inp     : List Byte
  /-- The host's memory that holds the output slices (R42, "the shared pixel scratch buffer"): the bytes the block and the
  host have written, by memory address. -/
  out     : Memory
  /-- Where the output slice starts in that memory: `OUT[a]` is the byte at `outBase + a` (R40). -/
  outBase : Nat
  /-- The length of the output slice the host has provided (R143 step 3). -/
  outLen  : Nat
  /-- MODEL'S OWN: the host's pending operations, the next one first. -/
  host    : List HostOp
  /-- MODEL'S OWN: what the host's last read returned. -/
  rdata   : Word
  /-- MODEL'S OWN: how many reads have returned free `STATUS` bits (U6). -/
  freeCtr : Nat
  deriving DecidableEq, Repr

/-- The state after reset (R31, R141), no input bound, the platform's own output slice in place (assumption log 7) and no host
operation pending. `DICT`, which reset leaves
unspecified, lists nothing: every index then reads as a free value. -/
def State.reset : State where
  cfg := { growGe := false }
  st := .idle
  m := 0
  w := 0
  next := 0
  prev := 0
  prevv := false
  bitbuf := 0
  nbits := 0
  blkrem := 0
  closed := false
  olen := 0
  ocnt := 0
  ipos := 0
  endseen := false
  ovf := false
  trunc := false
  mode := false
  cause := .none
  ecode := 0
  ewidth := 0
  enext := 0
  dict := []
  stack := []
  inp := []
  out := []
  outBase := 0
  outLen := 2 ^ 32 - 1
  host := []
  rdata := 0
  freeCtr := 0

end Sys2Proof.Machine
end

