-- ==== Sys2Proof/Machine/Flags.lean ====
section
/-! DEFINITION. The derived conditions and the register views: `FULL`, `BUSY`, the line `done`, the decoding context, and
the words of `STATUS`, `EINFO` and `DSTATE` (spec/10_state.md R21, R26, R27). -/

namespace Sys2Proof.Machine

/-- The number of a control state in `STATUS[1:0]` (R11). -/
def CtlState.code : CtlState → BitVec 2
  | .idle => 0
  | .decode => 1
  | .drain => 2
  | .done => 3

/-- The number of a cause in `STATUS[15:12]` (R22, R123). -/
def Cause.code : Cause → BitVec 4
  | .none => 0
  | .ok => 1
  | .short => 2
  | .truncated => 3
  | .corrupt => 4
  | .badParam => 5

/-- `BUSY`: `ST = DECODE or ST = DRAIN` (R11). -/
def State.busy (s : State) : Bool := decide (s.st = .decode) || decide (s.st = .drain)

/-- `FULL`: `OCNT = OLEN` (R19, R21). -/
def State.full (s : State) : Bool := decide (s.ocnt = s.olen)

/-- The output line `done`, equal to `STATUS.DONE` (R27, R132). -/
def State.doneLine (s : State) : Bool := decide (s.st = .done)

/-- `TRUNC` as a halt sets it: 0 when the cause is `OK`, 1 for every other cause (R21, R130). -/
def Cause.trunc (c : Cause) : Bool := decide (c ≠ .ok)

/-- `CLR = 2^M` (R12). -/
def State.clr (s : State) : Nat := clrOf s.m
/-- `EOI = 2^M + 1` (R12). -/
def State.eoi (s : State) : Nat := eoiOf s.m
/-- `FIRST = 2^M + 2` (R12). -/
def State.first (s : State) : Nat := firstOf s.m

/-- What the decoder reads of the state (spec/30_encoding.md R62, R67). -/
def State.ctx (s : State) : Ctx :=
  { closed := s.closed, blkrem := s.blkrem, m := s.m, w := s.w, next := s.next, prevv := s.prevv }

/-! ### Register words -/

/-- The `STATUS` word (R27), bit 31 first. -/
def State.statusWord (s : State) : Word :=
  0#16 ++ s.cause.code ++ 0#2 ++ bit s.mode ++ bit s.trunc ++ bit s.ovf ++ bit s.full ++ bit s.closed
    ++ bit s.endseen ++ bit s.doneLine ++ bit s.busy ++ s.st.code

/-- The `EINFO` word (R26): `ECODE` [11:0], `EWIDTH` [15:12], `ENEXT` [28:16]. -/
def State.einfoWord (s : State) : Word := 0#3 ++ s.enext ++ s.ewidth ++ s.ecode

/-- The `DSTATE` word (R26): `W` [3:0], `NEXT` [16:4], `PREV` [28:17], `PREVV` [29]. -/
def State.dstateWord (s : State) : Word := 0#2 ++ bit s.prevv ++ s.prev ++ s.next ++ s.w

/-- The `ICNT` word: `IPOS mod 2^32` (R20, R135). -/
def State.icntWord (s : State) : Word := BitVec.ofNat 32 s.ipos

/-- What a register reads as when the block is not busy (R26, R117); `CTRL` is write-only and reads zero. -/
def State.csrWord (s : State) : Csr → Word
  | .ctrl => 0
  | .mincode => s.m.setWidth 32
  | .olen => s.olen
  | .status => s.statusWord
  | .ocnt => s.ocnt
  | .icnt => s.icntWord
  | .einfo => s.einfoWord
  | .dstate => s.dstateWord

/-- A `STATUS` read while the block is busy: `BUSY` (bit 2) is 1, `DONE` (bit 3) is 0, every other bit is free
(R117, R146, U6). -/
def busyStatusWord (n : Nat) : Word := (Config.busyStatusBits n &&& ~~~0xC#32) ||| 0x4#32

/-! ### The register map -/

/-- The byte offset of a register (R26). -/
def Csr.offset : Csr → Nat
  | .ctrl => 0x00
  | .mincode => 0x04
  | .olen => 0x08
  | .status => 0x0C
  | .ocnt => 0x10
  | .icnt => 0x14
  | .einfo => 0x18
  | .dstate => 0x1C

/-- The register at a byte offset; there is none at any other offset (R26). -/
def csrAt (offset : Nat) : Option Csr :=
  if offset = 0x00 then some .ctrl
  else if offset = 0x04 then some .mincode
  else if offset = 0x08 then some .olen
  else if offset = 0x0C then some .status
  else if offset = 0x10 then some .ocnt
  else if offset = 0x14 then some .icnt
  else if offset = 0x18 then some .einfo
  else if offset = 0x1C then some .dstate
  else none

/-! ### Causes as the host's parser reads them (spec/60_exceptions.md R133) -/

/-- Whether the parser emits the frame (R133, second column). -/
def Cause.frameEmitted : Cause → Bool
  | .ok => true
  | .short => true
  | _ => false

/-- Whether the parser goes on (R133, last column): none where the source does not say (U16) and where no command has
ended. -/
def Cause.parserContinues : Cause → Option Bool
  | .none => Option.none
  | .ok => some true
  | .short => Option.none
  | .truncated => some false
  | .corrupt => some false
  | .badParam => some false

/-- The host's cursor after a command bound at it (R143 step 6): past the chain when the cause is `OK` or `SHORT`, else where
it was. -/
def State.cursorAfter (cursor : Nat) (s : State) : Nat :=
  if s.cause = .ok ∨ s.cause = .short then cursor + s.icntWord.toNat else cursor

end Sys2Proof.Machine
end

