-- ==== Sys2Proof/Machine/Operands.lean ====
section
/-! DEFINITION. The memories and the three addressing forms of the block (spec/41_lzw_decoder.md R112): the input read at
`IPOS`, the output write at `OCNT`, and the dictionary access at a code value. -/

namespace Sys2Proof.Machine

/-! ### The output memory -/

/-- The byte written last at an address, none where none has been written (spec/20_memory.md R42). -/
def Memory.read (mem : Memory) (a : Nat) : Option Byte :=
  match mem with
  | [] => none
  | (k, b) :: rest => if k = a then some b else Memory.read rest a

/-- Write one byte, keeping the addresses strictly rising. -/
def Memory.write (mem : Memory) (a : Nat) (v : Byte) : Memory :=
  match mem with
  | [] => [(a, v)]
  | (k, b) :: rest =>
    if a < k then (a, v) :: (k, b) :: rest
    else if a = k then (a, v) :: rest
    else (k, b) :: Memory.write rest a v

/-- Every address of the list is at least `lo`, and the addresses rise strictly. -/
def Memory.risingFrom (lo : Nat) : Memory → Bool
  | [] => true
  | (k, _) :: rest => decide (lo ≤ k) && Memory.risingFrom (k + 1) rest

/-- THE CANONICAL FORM: addresses strictly rising. An unlisted address reads as no byte, so no entry can equal it. -/
def Memory.wf (mem : Memory) : Bool := Memory.risingFrom 0 mem

/-- `OUT[a]` as the host finds it: the byte written there last, else what was there before, a free value (U5). -/
def State.outByteAt (s : State) (a : Nat) : Byte :=
  (Memory.read s.out (s.outBase + a)).getD (Config.outOldByte (s.outBase + a))

/-! ### The dictionary -/

/-- The entry written at an index since power-on, none if none was (R24, R43). -/
def DictMem.find (d : DictMem) (k : Nat) : Option DictEntry :=
  match d with
  | [] => none
  | (i, e) :: rest => if i = k then some e else DictMem.find rest k

/-- Write one entry, keeping the indices strictly rising: the atomic 20-bit write of R43. -/
def DictMem.set (d : DictMem) (k : Nat) (e : DictEntry) : DictMem :=
  match d with
  | [] => [(k, e)]
  | (i, x) :: rest =>
    if k < i then (k, e) :: (i, x) :: rest
    else if k = i then (k, e) :: rest
    else (i, x) :: DictMem.set rest k e

/-- Every index of the list is at least `lo`, and the indices rise strictly and stay in the table. -/
def DictMem.risingFrom (lo : Nat) : DictMem → Bool
  | [] => true
  | (k, _) :: rest => decide (lo ≤ k) && decide (k < 4096) && DictMem.risingFrom (k + 1) rest

/-- The canonical form of the table: indices strictly rising, all below 4096 (R24). -/
def DictMem.wf (d : DictMem) : Bool := DictMem.risingFrom 0 d

/-- The entry read at an index: the last one written there, else the table's power-on contents, a free value (U4). -/
def DictMem.entry (d : DictMem) (k : Nat) : DictEntry :=
  (DictMem.find d k).getD { pfx := Config.dictPowerOnPfx k, byte := Config.dictPowerOnByte k }

/-! ### Input and output -/

/-- What `InByte()` returns (spec/20_memory.md R41). -/
inductive InResult where
  | byte (b : Byte)
  | exhausted
  deriving DecidableEq, Repr

/-- The byte `InByte()` finds: `IN[IPOS]` where `IPOS < ILEN`, else `Exhausted` (R41). -/
def State.inByte (s : State) : InResult :=
  match s.inp[s.ipos]? with
  | some b => .byte b
  | none => .exhausted

/-- `IPOS <- IPOS + 1`, the advance of an `InByte()` that found a byte (R20, R41). -/
def State.advance (s : State) : State := { s with ipos := s.ipos + 1 }

/-- `OutByte(v)` (R42): written at `OUT[OCNT]` while `OCNT < OLEN`, else discarded with `OVF` set. -/
def State.outByte (v : Byte) (s : State) : State :=
  if s.ocnt.toNat < s.olen.toNat then
    { s with out := Memory.write s.out (s.outBase + s.ocnt.toNat) v, ocnt := s.ocnt + 1 }
  else
    { s with ovf := true }

/-- `Emit(s)` (spec/41_lzw_decoder.md R94): the bytes are offered in order, first to last. -/
def State.emit (bytes : List Byte) (s : State) : State :=
  match bytes with
  | [] => s
  | v :: rest => State.emit rest (s.outByte v)

end Sys2Proof.Machine
end

