-- ==== Sys2Proof/Machine/Ops.lean ====
section
/-! DEFINITION. The shared operations: taking a halt (the block's exception) and `Finish`, the sub-block reader, the code
fetch, and the dictionary operations of the decoder. Each follows the pseudocode of the rule it cites. -/

namespace Sys2Proof.Machine

/-! ### Taking an exception: the halt -/

/-- `raise Halt(cause)` (spec/60_exceptions.md R130): the bit accumulator is cleared, the cause and `TRUNC` are latched and
`ST` becomes `DONE`. Everything else keeps its value, and control goes nowhere. There is no return from a halt (R131):
`DONE` is left by `START`, `SKIP` (`beginCommand`) or reset (`resetBlock`). -/
def State.halt (cause : Cause) (s : State) : State :=
  { s with bitbuf := 0, nbits := 0, cause := cause, trunc := cause.trunc, st := .done }

/-- `Finish()` (spec/41_lzw_decoder.md R107): the common ending once the chain is closed. -/
def State.finish (s : State) : State :=
  if s.mode = true ∨ s.ocnt = s.olen then s.halt .ok else s.halt .short

/-- What `START` and `SKIP` both clear (spec/42_host_commands.md R113, R114): the stream position, the accumulator, the
reader's state, the flags, the cause and the error information; `mode` is the new `MODE`. -/
def State.beginCommand (mode : Bool) (s : State) : State :=
  { s with
    ipos := 0, bitbuf := 0, nbits := 0, blkrem := 0, closed := false
    endseen := false, ovf := false, trunc := false, mode := mode
    cause := .none, ecode := 0, ewidth := 0, enext := 0 }

/-- Reset (spec/70_reset_and_hazards.md R141, spec/10_state.md R31): every register and flag at its reset value; `DICT`,
`IN` and `OUT` are not touched. The configuration and the host's own fields are not the block's. -/
def State.resetBlock (s : State) : State :=
  { State.reset with
    cfg := s.cfg, dict := s.dict, inp := s.inp, out := s.out, outBase := s.outBase, outLen := s.outLen
    host := s.host, rdata := s.rdata, freeCtr := s.freeCtr }

/-! ### The sub-block reader -/

/-- `SB.LEN` (spec/40_subblock_reader.md R81): `BLKREM <- b`, `IPOS` advanced. -/
def State.takeLen (b : Byte) (s : State) : State := { s.advance with blkrem := b }

/-- `SB.TERM` (R82): `CLOSED <- 1`, `IPOS` advanced. -/
def State.takeTerm (s : State) : State := { s.advance with closed := true }

/-- `SB.DATA` (R83): `BLKREM <- BLKREM - 1`, `IPOS` advanced. -/
def State.takeData (s : State) : State := { s.advance with blkrem := s.blkrem - 1 }

/-- What `NextByte()` returns, with the state it leaves (R80). -/
inductive NextByte where
  | byte (b : Byte) (s : State)
  | endChain (s : State)
  | exhausted (s : State)
  deriving DecidableEq, Repr

/-- The data-byte read of `NextByte()` (R80, R83, R84). -/
def State.readData (s : State) : NextByte :=
  match s.inByte with
  | .exhausted => .exhausted s
  | .byte b => .byte b s.takeData

/-- `NextByte()` (R80, R84, R85). -/
def State.nextByte (s : State) : NextByte :=
  if s.closed then .endChain s
  else if s.blkrem = 0 then
    match s.inByte with
    | .exhausted => .exhausted s
    | .byte b => if b = 0 then .endChain s.takeTerm else (s.takeLen b).readData
  else s.readData

/-! ### The code fetch -/

/-- One byte enters the bit accumulator (spec/41_lzw_decoder.md R91): `BITBUF | (b << NBITS)`, `NBITS + 8`. -/
def State.gather (b : Byte) (s : State) : State :=
  { s with bitbuf := s.bitbuf ||| (b.setWidth 19 <<< s.nbits.toNat), nbits := s.nbits + 8 }

/-- What the gathering loop of `FetchCode` ends with: enough bits, or the halted state. -/
inductive Gathered where
  | ready (s : State)
  | ended (s : State)
  deriving DecidableEq, Repr

/-- The loop `while NBITS < W` of `FetchCode` (R91), with a bound on its rounds: a round adds 8 bits and `W` has 4 bits, so
two rounds are enough in every state (`gather_two_rounds` in Laws). -/
def State.gatherBits (rounds : Nat) (s : State) : Gathered :=
  match rounds with
  | 0 => .ready s
  | n + 1 =>
    if s.nbits.toNat < s.w.toNat then
      match s.nextByte with
      | .exhausted t => .ended (t.halt .truncated)
      | .endChain t => .ended t.finish
      | .byte b t => State.gatherBits n (t.gather b)
    else .ready s

/-- What `FetchCode()` returns: a code with the state behind it, or the state of a step that ended in the fetch. -/
inductive Fetched where
  | code (c : Code) (s : State)
  | ended (s : State)
  deriving DecidableEq, Repr

/-- The last three lines of `FetchCode()` (R91): the low `W` bits are the code, and leave the accumulator. -/
def State.cutCode (s : State) : Fetched :=
  .code (BitVec.ofNat 12 (s.bitbuf.toNat % 2 ^ s.w.toNat))
    { s with bitbuf := s.bitbuf >>> s.w.toNat, nbits := s.nbits - s.w.setWidth 5 }

/-- `FetchCode()` (R91, R106). The width of the code is the `W` of the state it leaves. -/
def State.fetchCode (s : State) : Fetched :=
  match s.gatherBits 2 with
  | .ready t => t.cutCode
  | .ended t => .ended t

/-! ### The dictionary -/

/-- The width growth test (R96): `n = 2^w`, or `n >= 2^w` under `GROW_GE`. -/
def reaches (ge : Bool) (n w : Nat) : Bool := decide (n = 2 ^ w) || (decide (2 ^ w < n) && ge)

/-- `Grow()` (R96). -/
def State.grow (s : State) : State :=
  if s.w.toNat < 12 ∧ reaches s.cfg.growGe s.next.toNat s.w.toNat = true then { s with w := s.w + 1 } else s

/-- `Append(p, b)` (R95): the entry at `NEXT`, `NEXT + 1`, then `Grow()`. -/
def State.append (p : Code) (b : Byte) (s : State) : State :=
  State.grow { s with dict := DictMem.set s.dict s.next.toNat { pfx := p, byte := b }, next := s.next + 1 }

/-- The walk of `String(k)` (R93): `k, DICT[k].PFX, ...` down to a literal, pushing the `BYTE`s and last the literal on the
stack; none if `room` pushes do not reach a literal. -/
def walkString (room : Nat) (d : DictMem) (clr : Nat) (k : Code) (stack : List Byte) : Option (List Byte) :=
  match room with
  | 0 => none
  | n + 1 =>
    if k.toNat < clr then some (k.setWidth 8 :: stack)
    else walkString n d clr (DictMem.entry d k.toNat).pfx ((DictMem.entry d k.toNat).byte :: stack)

/-- The walk of `First(k)` (R93). -/
def walkFirst (room : Nat) (d : DictMem) (clr : Nat) (k : Code) : Option Byte :=
  match room with
  | 0 => none
  | n + 1 => if k.toNat < clr then some (k.setWidth 8) else walkFirst n d clr (DictMem.entry d k.toNat).pfx

/-- `String(k)` in the present dictionary, none where the chain does not end (R93). -/
def State.string (s : State) (k : Code) : Option (List Byte) := walkString 4096 s.dict s.clr k []

/-- `First(k)` in the present dictionary (R93). -/
def State.firstByte (s : State) (k : Code) : Option Byte := walkFirst 4096 s.dict s.clr k

/-- The push half of an emission (R25, R93): the string of `k` on the stack, its first byte on top; none when the stack has
no room. -/
def State.pushString (k : Code) (s : State) : Option State :=
  match walkString (4096 - s.stack.length) s.dict s.clr k s.stack with
  | some st => some { s with stack := st }
  | none => none

/-- The pop half of an emission (R25, R94): the bytes are popped and offered to the output until the stack is empty. -/
def State.popEmit (s : State) : State := State.emit s.stack { s with stack := [] }

/-- `PREV <- c; PREVV <- 1` (R97, R99). -/
def State.setPrev (c : Code) (s : State) : State := { s with prev := c, prevv := true }

/-- The decoding context at its start (R100, R104): `W <- M + 1`, `NEXT <- 2^M + 2`, no previous code. -/
def State.clearContext (s : State) : State :=
  { s with w := s.m + 1, next := BitVec.ofNat 13 s.first, prev := 0, prevv := false }

end Sys2Proof.Machine
end

