-- ==== Sys2Proof/Machine/Codes.lean ====
section
/-! DEFINITION. The meanings of the LZW codes (spec/41_lzw_decoder.md section 3), by class. A meaning starts in the state the
fetch leaves: the code's bits are consumed and `W` is the width it was read with. -/

namespace Sys2Proof.Machine

/-- `ExecKnown(c)` (R97, R98), shared by the literals and the assigned dictionary codes. -/
def knownCode (c : Code) (s : State) : Host.Outcome State Fault Refusal :=
  match s.pushString c with
  | none => .fault .stackOverflow
  | some pushed =>
    let t := pushed.popEmit
    if t.prevv = true ∧ t.next.toNat < 4096 then
      match t.firstByte c with
      | none => .fault .prefixChainUnbounded
      | some f => .next ((t.append t.prev f).setPrev c)
    else .next (t.setPrev c)

/-- `ExecKwKwK(c)` (R99): the append comes first, so that `String(c)` is the entry just assigned. -/
def kwkwkCode (c : Code) (s : State) : Host.Outcome State Fault Refusal :=
  match s.firstByte s.prev with
  | none => .fault .prefixChainUnbounded
  | some f =>
    match (s.append s.prev f).pushString c with
    | none => .fault .stackOverflow
    | some pushed => .next (pushed.popEmit.setPrev c)

/-- `ExecEnd()` (R101): decoding stops and the rest of the chain is drained. -/
def State.endDecode (s : State) : State := { s with endseen := true, bitbuf := 0, nbits := 0, st := .drain }

/-- `ExecInvalid(c, w)` (R102): the error information is recorded and the block halts with `CORRUPT`. -/
def State.corrupt (c : Code) (s : State) : State :=
  State.halt .corrupt { s with ecode := c, ewidth := s.w, enext := s.next }

/-- `CLEAR` (R100). -/
def execClear (s : State) : Host.Outcome State Fault Refusal := .next s.clearContext

/-- `END` (R101). -/
def execEndCode (s : State) : Host.Outcome State Fault Refusal := .next s.endDecode

/-- `LIT` (R97). -/
def execLit (c : Code) (s : State) : Host.Outcome State Fault Refusal := knownCode c s

/-- `DICT` (R98). -/
def execDict (c : Code) (s : State) : Host.Outcome State Fault Refusal := knownCode c s

/-- `KWKWK` (R99). -/
def execKwkwk (c : Code) (s : State) : Host.Outcome State Fault Refusal := kwkwkCode c s

/-- `INVALID` (R102). -/
def execInvalid (c : Code) (s : State) : Host.Outcome State Fault Refusal := .next (s.corrupt c)

end Sys2Proof.Machine
end

