-- ==== Sys2Proof/Machine/CodesPerM.lean ====
section
/-! DEFINITION. The meanings of the rows CLEAR.M1 to LIT.M8: the classes CLEAR, END and LIT under one `M` each
(spec/30_encoding.md R67; spec/41_lzw_decoder.md R97, R100, R101). -/

namespace Sys2Proof.Machine

/-- `CLEAR.M1` (R100). -/
def execClearM1 (s : State) : Host.Outcome State Fault Refusal := .next s.clearContext

/-- `END.M1` (R101). -/
def execEndM1 (s : State) : Host.Outcome State Fault Refusal := .next s.endDecode

/-- `LIT.M1` (R97). -/
def execLitM1 (b : BitVec 1) (s : State) : Host.Outcome State Fault Refusal := knownCode (b.setWidth 12) s

/-- `CLEAR.M2` (R100). -/
def execClearM2 (s : State) : Host.Outcome State Fault Refusal := .next s.clearContext

/-- `END.M2` (R101). -/
def execEndM2 (s : State) : Host.Outcome State Fault Refusal := .next s.endDecode

/-- `LIT.M2` (R97). -/
def execLitM2 (b : BitVec 2) (s : State) : Host.Outcome State Fault Refusal := knownCode (b.setWidth 12) s

/-- `CLEAR.M3` (R100). -/
def execClearM3 (s : State) : Host.Outcome State Fault Refusal := .next s.clearContext

/-- `END.M3` (R101). -/
def execEndM3 (s : State) : Host.Outcome State Fault Refusal := .next s.endDecode

/-- `LIT.M3` (R97). -/
def execLitM3 (b : BitVec 3) (s : State) : Host.Outcome State Fault Refusal := knownCode (b.setWidth 12) s

/-- `CLEAR.M4` (R100). -/
def execClearM4 (s : State) : Host.Outcome State Fault Refusal := .next s.clearContext

/-- `END.M4` (R101). -/
def execEndM4 (s : State) : Host.Outcome State Fault Refusal := .next s.endDecode

/-- `LIT.M4` (R97). -/
def execLitM4 (b : BitVec 4) (s : State) : Host.Outcome State Fault Refusal := knownCode (b.setWidth 12) s

/-- `CLEAR.M5` (R100). -/
def execClearM5 (s : State) : Host.Outcome State Fault Refusal := .next s.clearContext

/-- `END.M5` (R101). -/
def execEndM5 (s : State) : Host.Outcome State Fault Refusal := .next s.endDecode

/-- `LIT.M5` (R97). -/
def execLitM5 (b : BitVec 5) (s : State) : Host.Outcome State Fault Refusal := knownCode (b.setWidth 12) s

/-- `CLEAR.M6` (R100). -/
def execClearM6 (s : State) : Host.Outcome State Fault Refusal := .next s.clearContext

/-- `END.M6` (R101). -/
def execEndM6 (s : State) : Host.Outcome State Fault Refusal := .next s.endDecode

/-- `LIT.M6` (R97). -/
def execLitM6 (b : BitVec 6) (s : State) : Host.Outcome State Fault Refusal := knownCode (b.setWidth 12) s

/-- `CLEAR.M7` (R100). -/
def execClearM7 (s : State) : Host.Outcome State Fault Refusal := .next s.clearContext

/-- `END.M7` (R101). -/
def execEndM7 (s : State) : Host.Outcome State Fault Refusal := .next s.endDecode

/-- `LIT.M7` (R97). -/
def execLitM7 (b : BitVec 7) (s : State) : Host.Outcome State Fault Refusal := knownCode (b.setWidth 12) s

/-- `CLEAR.M8` (R100). -/
def execClearM8 (s : State) : Host.Outcome State Fault Refusal := .next s.clearContext

/-- `END.M8` (R101). -/
def execEndM8 (s : State) : Host.Outcome State Fault Refusal := .next s.endDecode

/-- `LIT.M8` (R97). -/
def execLitM8 (b : BitVec 8) (s : State) : Host.Outcome State Fault Refusal := knownCode (b.setWidth 12) s

end Sys2Proof.Machine
end

