-- ==== Sys2Proof/Machine/Commands.lean ====
section
/-! DEFINITION. The meanings of the host commands (spec/42_host_commands.md). A command written while the block is busy is
ignored (R118). -/

namespace Sys2Proof.Machine

/-- The body of `START` (R113) for a legal `M`: the decoder registers at their initial values, `ST <- DECODE`. -/
def State.startDecode (s : State) : State :=
  { (s.beginCommand false).clearContext with ocnt := 0, st := .decode }

/-- The body of `START` (R113) for an illegal `M`: halt `BADPARAM` with `W` and `NEXT` zero. -/
def State.startIllegal (s : State) : State :=
  State.halt .badParam { s.beginCommand false with ocnt := 0, prev := 0, prevv := false, w := 0, next := 0 }

/-- The body of `SKIP` (R114). -/
def State.startDrain (s : State) : State := { s.beginCommand true with st := .drain }

/-- `START` (R113, R118). A decode with a slice shorter than `OLEN` is outside the spec (U9: "refuse"); with an illegal `M`
nothing is written, whatever the slice. -/
def execStart (s : State) : Host.Outcome State Fault Refusal :=
  if s.busy then .next s
  else if legalM s.m then
    if s.olen.toNat ≤ s.outLen then .next s.startDecode else .refused .outputSliceTooShort
  else .next s.startIllegal

/-- `SKIP` (R114, R118). -/
def execSkip (s : State) : Host.Outcome State Fault Refusal :=
  if s.busy then .next s else .next s.startDrain

/-- `NOP`, `CMD = 0` (R115): no effect in any state. -/
def execNop (s : State) : Host.Outcome State Fault Refusal := .next s

/-- `NOP.3`, `CMD = 3` (R115): no effect in any state. -/
def execNop3 (s : State) : Host.Outcome State Fault Refusal := .next s

end Sys2Proof.Machine
end

