-- ==== Sys2Proof/Machine/SubBlock.lean ====
section
/-! DEFINITION. The meanings of the sub-block items (spec/40_subblock_reader.md). Each is what reading that byte does in the
control state it is read in: under `DECODE` the byte is read by the code fetch, under `DRAIN` by the drain step. -/

namespace Sys2Proof.Machine

/-- `SB.TERM` (R82): the chain is closed. The operation that read it reports end-of-chain, and its caller, the fetch (R91)
or the drain step (R86), finishes the command. With no command running there is no caller. -/
def execSbTerm (s : State) : Host.Outcome State Fault Refusal :=
  if s.busy then .next s.takeTerm.finish else .next s.takeTerm

/-- `SB.LEN` (R81). -/
def execSbLen (len : Byte) (s : State) : Host.Outcome State Fault Refusal := .next (s.takeLen len)

/-- `SB.DATA` (R83): under `DECODE` the byte is returned to the fetch, which gathers it (R91); otherwise it is discarded
(R86). -/
def execSbData (b : Byte) (s : State) : Host.Outcome State Fault Refusal :=
  if s.st = .decode then .next (s.takeData.gather b) else .next s.takeData

end Sys2Proof.Machine
end

