-- ==== Sys2Proof/Machine/Dispatch.lean ====
section
/-! DEFINITION. The dispatch: one arm per instruction, each one call of its meaning. -/

namespace Sys2Proof.Machine

def exec (i : Instr) (s : State) : Host.Outcome State Fault Refusal :=
  match i with
  | .sbTerm => Sys2Proof.Machine.execSbTerm s
  | .sbLen len => Sys2Proof.Machine.execSbLen len s
  | .sbData b => Sys2Proof.Machine.execSbData b s
  | .clear => Sys2Proof.Machine.execClear s
  | .endCode => Sys2Proof.Machine.execEndCode s
  | .lit c => Sys2Proof.Machine.execLit c s
  | .dict c => Sys2Proof.Machine.execDict c s
  | .kwkwk c => Sys2Proof.Machine.execKwkwk c s
  | .invalid c => Sys2Proof.Machine.execInvalid c s
  | .clearM1 => Sys2Proof.Machine.execClearM1 s
  | .endM1 => Sys2Proof.Machine.execEndM1 s
  | .litM1 b => Sys2Proof.Machine.execLitM1 b s
  | .clearM2 => Sys2Proof.Machine.execClearM2 s
  | .endM2 => Sys2Proof.Machine.execEndM2 s
  | .litM2 b => Sys2Proof.Machine.execLitM2 b s
  | .clearM3 => Sys2Proof.Machine.execClearM3 s
  | .endM3 => Sys2Proof.Machine.execEndM3 s
  | .litM3 b => Sys2Proof.Machine.execLitM3 b s
  | .clearM4 => Sys2Proof.Machine.execClearM4 s
  | .endM4 => Sys2Proof.Machine.execEndM4 s
  | .litM4 b => Sys2Proof.Machine.execLitM4 b s
  | .clearM5 => Sys2Proof.Machine.execClearM5 s
  | .endM5 => Sys2Proof.Machine.execEndM5 s
  | .litM5 b => Sys2Proof.Machine.execLitM5 b s
  | .clearM6 => Sys2Proof.Machine.execClearM6 s
  | .endM6 => Sys2Proof.Machine.execEndM6 s
  | .litM6 b => Sys2Proof.Machine.execLitM6 b s
  | .clearM7 => Sys2Proof.Machine.execClearM7 s
  | .endM7 => Sys2Proof.Machine.execEndM7 s
  | .litM7 b => Sys2Proof.Machine.execLitM7 b s
  | .clearM8 => Sys2Proof.Machine.execClearM8 s
  | .endM8 => Sys2Proof.Machine.execEndM8 s
  | .litM8 b => Sys2Proof.Machine.execLitM8 b s
  | .start => Sys2Proof.Machine.execStart s
  | .skip => Sys2Proof.Machine.execSkip s
  | .nop => Sys2Proof.Machine.execNop s
  | .nop3 => Sys2Proof.Machine.execNop3 s

end Sys2Proof.Machine
end

