-- ==== Sys2Proof/Machine/Block.lean ====
section
/-! DEFINITION. The block's steps: `DecodeStep` (spec/41_lzw_decoder.md R90) and `DrainStep`
(spec/40_subblock_reader.md R86), each running the decoded instruction through `exec`; and the run of a command (R108). -/

namespace Sys2Proof.Machine

/-- Decode an item in the context of a state and execute it there. -/
def runItem (item : Item) (s : State) : Host.Outcome State Fault Refusal :=
  match decode s.ctx item with
  | .ok i => exec i s
  | .error e => .refused (.undecodable e)

/-- `DecodeStep()` (R90): fetch one code, classify it, execute it; or the fetch ends the step. -/
def decodeStep (s : State) : Host.Outcome State Fault Refusal :=
  match s.fetchCode with
  | .ended t => .next t
  | .code c t => runItem (.code c) t

/-- `DrainStep()` (R86): consume one byte of the rest of the chain. -/
def drainStep (s : State) : Host.Outcome State Fault Refusal :=
  if s.closed then .next s.finish
  else match s.inByte with
    | .exhausted => .next (s.halt .truncated)
    | .byte b => runItem (.sb b) s

/-- A block step: enabled exactly in `DECODE` and `DRAIN`; in `IDLE` and `DONE` the block does nothing
(spec/00_scope.md R4). -/
def blockStep (s : State) : Host.Outcome State Fault Refusal :=
  match s.st with
  | .decode => decodeStep s
  | .drain => drainStep s
  | .idle => .next s
  | .done => .next s

/-- Block steps until the block is not busy, at most `fuel` of them: the iteration R108 speaks of. -/
def runCommand (fuel : Nat) (s : State) : Host.Outcome State Fault Refusal :=
  match fuel with
  | 0 => .next s
  | n + 1 =>
    if s.busy then
      match blockStep s with
      | .next t => runCommand n t
      | .fault f => .fault f
      | .refused r => .refused r
    else .next s

end Sys2Proof.Machine
end

