-- ==== Sys2Proof/Machine/HostPort.lean ====
section
/-! DEFINITION. The host's operations on the block (spec/42_host_commands.md R116 to R119, spec/70_reset_and_hazards.md), and
which agent acts in a step (spec/00_scope.md R3, R4). -/

namespace Sys2Proof.Machine

/-- A register write (R116, R118, R71): `CTRL` runs the command its low two bits select; `MINCODE` and `OLEN` are written
while not busy; every other register ignores writes. -/
def writeCsr (r : Csr) (v : Word) (s : State) : Host.Outcome State Fault Refusal :=
  match r with
  | .ctrl => runItem (.cmd v) s
  | .mincode => if s.busy then .next s else .next { s with m := v.setWidth 4 }
  | .olen => if s.busy then .next s else .next { s with olen := v }
  | .status => .next s
  | .ocnt => .next s
  | .icnt => .next s
  | .einfo => .next s
  | .dstate => .next s

/-- A register read (R117): no side effect on the block. While busy the words of a decode in progress are refused, and of
`STATUS` only `BUSY` and `DONE` have a meaning (R146, U6). -/
def readCsr (r : Csr) (s : State) : Host.Outcome State Fault Refusal :=
  match r with
  | .ctrl => .next { s with rdata := s.csrWord .ctrl }
  | .mincode => .next { s with rdata := s.csrWord .mincode }
  | .olen => .next { s with rdata := s.csrWord .olen }
  | .status =>
    if s.busy then .next { s with rdata := busyStatusWord s.freeCtr, freeCtr := s.freeCtr + 1 }
    else .next { s with rdata := s.csrWord .status }
  | .ocnt => if s.busy then .refused .readWhileBusy else .next { s with rdata := s.csrWord .ocnt }
  | .icnt => if s.busy then .refused .readWhileBusy else .next { s with rdata := s.csrWord .icnt }
  | .einfo => if s.busy then .refused .readWhileBusy else .next { s with rdata := s.csrWord .einfo }
  | .dstate => if s.busy then .refused .readWhileBusy else .next { s with rdata := s.csrWord .dstate }

/-- One host operation, on the state with it taken off the queue; `waitNotBusy` and `letRun` have no effect of their own. -/
def hostOp (op : HostOp) (s : State) : Host.Outcome State Fault Refusal :=
  match op with
  | .write off v =>
    match csrAt off with
    | some r => writeCsr r v s
    | none => .fault (.unmappedRegister off)
  | .read off =>
    match csrAt off with
    | some r => readCsr r s
    | none => .fault (.unmappedRegister off)
  | .sampleDone => .next { s with rdata := (bit s.doneLine).setWidth 32 }
  | .readOut a =>
    if s.busy then .refused .readWhileBusy
    else if a < s.outLen then .next { s with rdata := (s.outByteAt a).setWidth 32 }
    else .fault (.outsideSlice a)
  | .bindOut base len =>
    if s.busy then .refused .outputChangedWhileBusy else .next { s with outBase := base, outLen := len }
  | .writeOut a v =>
    if s.busy then .refused .outputChangedWhileBusy
    else if a < s.outLen then .next { s with out := Memory.write s.out (s.outBase + a) v }
    else .fault (.outsideSlice a)
  | .bindIn bytes => if s.busy then .refused .inputChangedWhileBusy else .next { s with inp := bytes }
  | .reset => .next s.resetBlock
  | .waitNotBusy => .next s
  | .letRun => .next s

/-- One step of the machine. The host's next operation acts if there is one, but for `letRun`, which gives the step to the
block, and `waitNotBusy`, which stays while the block is busy; with no host operation the step is the block's. -/
def stepBody (s : State) : Host.Outcome State Fault Refusal :=
  match s.host with
  | [] => blockStep s
  | .letRun :: rest => blockStep { s with host := rest }
  | .waitNotBusy :: rest => if s.busy then blockStep s else .next { s with host := rest }
  | op :: rest => hostOp op { s with host := rest }

/-- `frame_w * frame_h` as an unsigned product of two 16-bit values; it fits 32 bits (R143 step 3). -/
def frameLen (w h : BitVec 16) : Word := w.setWidth 32 * h.setWidth 32

/-- Steps 1 to 5 of R143: wait, `MINCODE`, `OLEN` and the output slice, the input stream, `START`. -/
def startSequence (m : Byte) (w h : BitVec 16) (base len : Nat) (bytes : List Byte) : List HostOp :=
  [.waitNotBusy, .write 0x04 (m.setWidth 32), .write 0x08 (frameLen w h), .bindOut base len, .bindIn bytes,
   .write 0x00 1]

/-- Step 6 of R143: wait, read `STATUS`, `OCNT` and `ICNT`, and the `pixels` output bytes the host takes (the `OCNT` bytes of
a frame it emits, none of one it drops, R133). -/
def resultSequence (pixels : Nat) : List HostOp :=
  [.waitNotBusy, .read 0x0C, .read 0x10, .read 0x14] ++ (List.range pixels).map HostOp.readOut

/-- The host's sequence to decode one image (R143). -/
def decodeSequence (m : Byte) (w h : BitVec 16) (base len : Nat) (bytes : List Byte) (pixels : Nat) : List HostOp :=
  startSequence m w h base len bytes ++ resultSequence pixels

/-- The host's sequence to skip one chain (R143). -/
def skipSequence (bytes : List Byte) : List HostOp :=
  [.waitNotBusy, .bindIn bytes, .write 0x00 2, .waitNotBusy, .read 0x0C, .read 0x14]

/-! ### Placing a table word where the next step fetches -/

/-- The item of a table word, placed so that the next step fetches exactly it: a byte at the head of a chain being drained;
a code at the start of a decode; a command as the host's next write. Assumption log 12. -/
def placeItem (x : Ctx) (item : Item) (s : State) : State :=
  match item with
  | .sb b => { s with st := .drain, inp := [b, 0, 0, 0], ipos := 0, blkrem := x.blkrem, closed := x.closed, host := [] }
  | .code c =>
    { s with
      st := .decode, m := x.m, w := x.w, next := x.next, prev := 0, prevv := x.prevv
      inp := [2, c.setWidth 8, (c >>> 8).setWidth 8, 0], ipos := 0, blkrem := x.blkrem, closed := x.closed
      bitbuf := 0, nbits := 0, host := [] }
  | .cmd v => { s with host := [.write 0x00 v] }

/-- A state whose next step runs a word of the opcode table; unchanged for a word that is no item. -/
def placeWord (s : State) (nbits w : Nat) : State :=
  match tableItem nbits w with
  | some item => placeItem (tableCtx w) item s
  | none => s

end Sys2Proof.Machine
end

