-- ==== Sys2Proof/Machine/Step.lean ====
section
/-! DEFINITION. The step of the machine and the placing of a word for its next fetch. -/

namespace Sys2Proof.Machine

/-- One step: a host operation or a block step (spec/00_scope.md R3, R4). -/
def step (s : State) : Host.Outcome State Fault Refusal := stepBody s

/-- The state with a table word placed where `step` fetches its next instruction. -/
def State.withFetchWord (s : State) (nbits w : Nat) : State := placeWord s nbits w

end Sys2Proof.Machine
end

