-- ==== Sys2Proof/Machine/Stream.lean ====
section
/-! DEFINITION. The streams the rules speak of, as functions of the state: the flat stream of a chain
(spec/30_encoding.md R63), where a chain ends, the bits not yet cut into codes (R45, R64), and the string of a code as a
relation (spec/41_lzw_decoder.md R93). No step calls these; claims are stated with them. -/

namespace Sys2Proof.Machine

/-- The data bytes of the rest of a chain, `rem` bytes of the current sub-block unread (R61, R63). -/
def flatOf : Nat → List Byte → List Byte
  | _, [] => []
  | 0, b :: rest => if b = 0 then [] else flatOf b.toNat rest
  | r + 1, b :: rest => b :: flatOf r rest

/-- How many bytes the rest of a chain has, the terminator included; none when the input ends before it (R82, R84). -/
def chainEnd : Nat → List Byte → Option Nat
  | _, [] => none
  | 0, b :: rest => if b = 0 then some 1 else (chainEnd b.toNat rest).map (· + 1)
  | r + 1, _ :: rest => (chainEnd r rest).map (· + 1)

/-- The unread part of the input. -/
def State.unread (s : State) : List Byte := s.inp.drop s.ipos

/-- The flat bytes the reader has still to deliver; none once the chain is closed (R85). -/
def State.flat (s : State) : List Byte := if s.closed then [] else flatOf s.blkrem.toNat s.unread

/-- The terminator of the chain is in the input. -/
def State.terminated (s : State) : Bool := s.closed || (chainEnd s.blkrem.toNat s.unread).isSome

/-- A flat stream as a number, bit `i` of the stream at weight `2^i` (R45). -/
def flatValue : List Byte → Nat
  | [] => 0
  | b :: rest => b.toNat + 256 * flatValue rest

/-- The bits not yet cut into codes, as a number: the accumulator's, then the flat stream's (R16, R45). -/
def State.pending (s : State) : Nat := s.bitbuf.toNat + 2 ^ s.nbits.toNat * flatValue s.flat

/-- How many bits have not yet been cut into codes. -/
def State.pendingBits (s : State) : Nat := s.nbits.toNat + 8 * s.flat.length

/-- `String(k)` as the spec defines it (R93): a literal's own value, or the prefix's string and the entry's byte. -/
inductive StringIs (d : DictMem) (clr : Nat) : Code → List Byte → Prop where
  | literal (k : Code) : k.toNat < clr → StringIs d clr k [k.setWidth 8]
  | entry (k : Code) (str : List Byte) : clr ≤ k.toNat → StringIs d clr (DictMem.entry d k.toNat).pfx str →
      StringIs d clr k (str ++ [(DictMem.entry d k.toNat).byte])

/-- `k` has a string: a literal or an assigned entry (R93). -/
def State.stringCode (s : State) (k : Code) : Prop :=
  k.toNat < s.clr ∨ (s.first ≤ k.toNat ∧ k.toNat < s.next.toNat)

/-- The code of an instruction that emits a string: the literals, `DICT` and `KWKWK`. -/
def stringCodeOf : Instr → Option Code
  | .lit c => some c
  | .dict c => some c
  | .kwkwk c => some c
  | .litM1 b => some (b.setWidth 12)
  | .litM2 b => some (b.setWidth 12)
  | .litM3 b => some (b.setWidth 12)
  | .litM4 b => some (b.setWidth 12)
  | .litM5 b => some (b.setWidth 12)
  | .litM6 b => some (b.setWidth 12)
  | .litM7 b => some (b.setWidth 12)
  | .litM8 b => some (b.setWidth 12)
  | .sbTerm | .sbLen _ | .sbData _ | .clear | .endCode | .invalid _ => none
  | .clearM1 | .clearM2 | .clearM3 | .clearM4 | .clearM5 | .clearM6 | .clearM7 | .clearM8 => none
  | .endM1 | .endM2 | .endM3 | .endM4 | .endM5 | .endM6 | .endM7 | .endM8 => none
  | .start | .skip | .nop | .nop3 => none

/-- The state after `ExecKnown(c)` (R97), the string of `c` being `f :: rest`. -/
def State.afterKnown (c : Code) (f : Byte) (rest : List Byte) (s : State) : State :=
  if s.prevv = true ∧ s.next.toNat < 4096 then ((s.emit (f :: rest)).append s.prev f).setPrev c
  else (s.emit (f :: rest)).setPrev c

/-- Everything of a state but the reader's position in its input: the input, `IPOS`, `BLKREM` and `CLOSED`. -/
def State.eraseReader (s : State) : State := { s with inp := [], ipos := 0, blkrem := 0, closed := false }

end Sys2Proof.Machine
end

