-- ==== Sys2Proof/Safety.lean ====
section
/-! DEFINITION. What a safe state is: the invariants of spec/10_state.md R29 with the ones the other rules give
(R15, R18, R25, R41), as predicates that claims use. -/

namespace Sys2Proof.Machine

/-- R29 item 4: what the width is. -/
structure WidthRule (s : State) : Prop where
  general : (2 ≤ s.m.toNat ∨ (s.cfg.growGe = true ∧ 5 ≤ s.next.toNat)) →
    s.w.toNat = min 12 (Nat.log2 s.next.toNat + 1)
  m1Literal : s.m.toNat = 1 → s.cfg.growGe = false → s.w.toNat = 2
  m1First : s.m.toNat = 1 → s.cfg.growGe = true → s.next.toNat = 4 → s.w.toNat = 2

/-- R29 item 6: every assigned entry has a prefix below it that is neither CLEAR nor END, and a literal for its byte. -/
def DictOk (s : State) : Prop :=
  ∀ n, s.first ≤ n → n < s.next.toNat →
    ∃ e, DictMem.find s.dict n = some e ∧ e.pfx.toNat < n ∧ e.pfx.toNat ≠ s.clr ∧ e.pfx.toNat ≠ s.eoi ∧
      e.byte.toNat < s.clr

/-- R29, the items that hold while `ST = DECODE`, with `IPOS <= ILEN` (R41). Item 9 follows from item 6. -/
structure DecodeInv (s : State) : Prop where
  legal    : legalM s.m = true
  widthLo  : s.m.toNat + 1 ≤ s.w.toNat
  widthHi  : s.w.toNat ≤ 12
  slotLo   : s.first ≤ s.next.toNat
  slotHi   : s.next.toNat ≤ 4096
  width    : WidthRule s
  noPrev   : s.prevv = false → s.next.toNat = s.first ∧ s.w.toNat = s.m.toNat + 1
  prevCode : s.prevv = true → s.stringCode s.prev
  dict     : DictOk s
  bits     : s.nbits.toNat ≤ 7
  bitsHi   : s.bitbuf.toNat < 2 ^ s.nbits.toNat
  count    : s.ocnt.toNat ≤ s.olen.toNat
  bytes    : ∀ a, a < s.ocnt.toNat → ∃ b, Memory.read s.out (s.outBase + a) = some b ∧ b.toNat < s.clr
  slice    : s.olen.toNat ≤ s.outLen
  closed   : s.closed = false
  endseen  : s.endseen = false
  cause    : s.cause = .none
  mode     : s.mode = false
  pos      : s.ipos ≤ s.inp.length

/-- R29, while `ST = DRAIN`; a drain of a decode comes after END (R101). -/
structure DrainInv (s : State) : Prop where
  nbits   : s.nbits = 0
  bitbuf  : s.bitbuf = 0
  closed  : s.closed = false
  cause   : s.cause = .none
  decoded : s.mode = false → s.endseen = true
  pos     : s.ipos ≤ s.inp.length

/-- R29, while `ST = DONE`. -/
structure DoneInv (s : State) : Prop where
  nbits  : s.nbits = 0
  bitbuf : s.bitbuf = 0
  cause  : s.cause ≠ .none
  trunc  : s.trunc = true ↔ s.cause ≠ .ok

/-- While `ST = IDLE`: nothing has run since reset (R11, R22, R31). -/
structure IdleInv (s : State) : Prop where
  nbits  : s.nbits = 0
  bitbuf : s.bitbuf = 0
  cause  : s.cause = .none

/-- THE INVARIANT of every state a run reaches: the memories are in canonical form, the reversal stack is empty between
steps (R25), `CLOSED` implies `BLKREM = 0` (R18), `PREV = 0` while `PREVV = 0` (R15), and R29's part for the control
state. -/
structure Inv (s : State) : Prop where
  outWf  : Memory.wf s.out = true
  dictWf : DictMem.wf s.dict = true
  stack  : s.stack = []
  closed : s.closed = true → s.blkrem = 0
  prev   : s.prevv = false → s.prev = 0
  idle   : s.st = .idle → IdleInv s
  decode : s.st = .decode → DecodeInv s
  drain  : s.st = .drain → DrainInv s
  done   : s.st = .done → DoneInv s

/-- The control-state transitions of R11, a step that stays in its state included; only reset leads to `IDLE`. -/
def CtlState.mayBecome : CtlState → CtlState → Bool
  | .idle, .idle | .idle, .decode | .idle, .drain | .idle, .done => true
  | .decode, .decode | .decode, .drain | .decode, .done => true
  | .drain, .drain | .drain, .done => true
  | .done, .decode | .done, .drain | .done, .done => true
  | _, _ => false

/-- The step is the block's: the host's queue is empty or its head gives way to the block. -/
def State.blockTurn (s : State) : Bool :=
  match s.host with
  | [] => true
  | .letRun :: _ => true
  | .waitNotBusy :: _ => s.busy
  | _ => false

/-- The state a block step starts in when the turn is the block's: a `letRun` is taken off the queue. -/
def State.blockView (s : State) : State :=
  match s.host with
  | .letRun :: rest => { s with host := rest }
  | _ => s

/-- `n` steps of the machine, or the stop it meets on the way. -/
def stepN (n : Nat) (s : State) : Host.Outcome State Fault Refusal :=
  match n with
  | 0 => .next s
  | n + 1 =>
    match step s with
    | .next t => stepN n t
    | .fault f => .fault f
    | .refused r => .refused r

end Sys2Proof.Machine
end

