-- ==== Sys2Proof/Certificates/Slice0/Obligations.lean ====
section
/-! DEFINITION. The statements for the provers. Each docstring names the rule of spec/ it formalises; "derived" marks a
statement that follows from several rules or rests on an entry of the assumption log. Where a statement names the queue `host`,
`rdata` or `freeCtr`, those are the model's own fields (assumption log 3, 20): an operation leaves the queue when it acts. -/

open Sys2Proof Sys2Proof.Machine

/-! ### Reset -/

/-- R31: every register, flag and result field has the reset value of the table; the line `done` is low. -/
def Obligations.ResetLeavesSpecValues : Prop :=
  State.reset.st = .idle ∧ State.reset.m = 0 ∧ State.reset.w = 0 ∧ State.reset.next = 0 ∧ State.reset.prev = 0 ∧
  State.reset.prevv = false ∧ State.reset.bitbuf = 0 ∧ State.reset.nbits = 0 ∧ State.reset.blkrem = 0 ∧
  State.reset.closed = false ∧ State.reset.olen = 0 ∧ State.reset.ocnt = 0 ∧ State.reset.ipos = 0 ∧
  State.reset.icntWord = 0 ∧ State.reset.endseen = false ∧ State.reset.ovf = false ∧ State.reset.trunc = false ∧
  State.reset.mode = false ∧ State.reset.cause = .none ∧ State.reset.ecode = 0 ∧ State.reset.ewidth = 0 ∧
  State.reset.enext = 0 ∧ State.reset.doneLine = false

/-- R141: reset, in every state, puts the block to the values of R31 (`STATUS` reads 0x40, `done` is low), and does not touch
`IN` and `OUT`. -/
def Obligations.ResetFromEveryState : Prop :=
  ∀ (s : State) (rest : List HostOp), s.host = .reset :: rest →
    ∃ t, step s = .next t ∧
      t.st = .idle ∧ t.m = 0 ∧ t.w = 0 ∧ t.next = 0 ∧ t.prev = 0 ∧ t.prevv = false ∧ t.bitbuf = 0 ∧ t.nbits = 0 ∧
      t.blkrem = 0 ∧ t.closed = false ∧ t.olen = 0 ∧ t.ocnt = 0 ∧ t.ipos = 0 ∧ t.endseen = false ∧ t.ovf = false ∧
      t.trunc = false ∧ t.mode = false ∧ t.cause = .none ∧ t.ecode = 0 ∧ t.ewidth = 0 ∧ t.enext = 0 ∧
      t.doneLine = false ∧ t.statusWord = 0x00000040 ∧ t.inp = s.inp ∧ t.out = s.out ∧ t.outBase = s.outBase ∧
      t.outLen = s.outLen

/-! ### Host commands -/

/-- R113 with R118: `START` while busy is ignored; with a legal `M` it begins a decode; with an illegal `M` it halts with
`BADPARAM`. Nothing else changes. The output slice, an operand of `START`, has the `OLEN` bytes R143 step 3 asks for; with a
shorter one U9 says "refuse", and the model refuses (assumption log 7). -/
def Obligations.StartCommandEffect : Prop :=
  ∀ s : State,
    (s.busy = true → exec .start s = .next s) ∧
    (s.busy = false → 1 ≤ s.m.toNat → s.m.toNat ≤ 8 → s.outLen < s.olen.toNat →
      exec .start s = .refused .outputSliceTooShort) ∧
    (s.busy = false → 1 ≤ s.m.toNat → s.m.toNat ≤ 8 → s.olen.toNat ≤ s.outLen →
      ∃ t, exec .start s = .next t ∧
        t.st = .decode ∧ t.w.toNat = s.m.toNat + 1 ∧ t.next.toNat = 2 ^ s.m.toNat + 2 ∧ t.prev = 0 ∧ t.prevv = false ∧
        t.ipos = 0 ∧ t.ocnt = 0 ∧ t.bitbuf = 0 ∧ t.nbits = 0 ∧ t.blkrem = 0 ∧ t.closed = false ∧ t.endseen = false ∧
        t.ovf = false ∧ t.trunc = false ∧ t.mode = false ∧ t.cause = .none ∧ t.ecode = 0 ∧ t.ewidth = 0 ∧ t.enext = 0 ∧
        t.m = s.m ∧ t.olen = s.olen ∧ t.dict = s.dict ∧ t.out = s.out ∧ t.outBase = s.outBase ∧ t.outLen = s.outLen ∧
        t.inp = s.inp ∧ t.stack = s.stack ∧
        t.cfg = s.cfg ∧ t.host = s.host ∧ t.rdata = s.rdata ∧ t.freeCtr = s.freeCtr) ∧
    (s.busy = false → (s.m.toNat < 1 ∨ 8 < s.m.toNat) →
      ∃ t, exec .start s = .next t ∧
        t.st = .done ∧ t.cause = .badParam ∧ t.trunc = true ∧ t.w = 0 ∧ t.next = 0 ∧ t.prev = 0 ∧ t.prevv = false ∧
        t.ipos = 0 ∧ t.ocnt = 0 ∧ t.bitbuf = 0 ∧ t.nbits = 0 ∧ t.blkrem = 0 ∧ t.closed = false ∧ t.endseen = false ∧
        t.ovf = false ∧ t.mode = false ∧ t.ecode = 0 ∧ t.ewidth = 0 ∧ t.enext = 0 ∧
        t.m = s.m ∧ t.olen = s.olen ∧ t.dict = s.dict ∧ t.out = s.out ∧ t.outBase = s.outBase ∧ t.outLen = s.outLen ∧
        t.inp = s.inp ∧ t.stack = s.stack ∧
        t.cfg = s.cfg ∧ t.host = s.host ∧ t.rdata = s.rdata ∧ t.freeCtr = s.freeCtr)

/-- R114 with R118: `SKIP` while busy is ignored; otherwise it begins a drain at a length byte and leaves the decoder's
registers, `OCNT`, `OLEN`, `DICT` and `OUT` as they were. -/
def Obligations.SkipCommandEffect : Prop :=
  ∀ s : State,
    (s.busy = true → exec .skip s = .next s) ∧
    (s.busy = false → exec .skip s = .next
      { s with
        ipos := 0, bitbuf := 0, nbits := 0, blkrem := 0, closed := false
        endseen := false, ovf := false, trunc := false, mode := true
        cause := .none, ecode := 0, ewidth := 0, enext := 0, st := .drain })

/-- R115: a write to `CTRL` with `CMD = 0` or `CMD = 3` has no effect in any state. -/
def Obligations.NopHasNoEffect : Prop :=
  ∀ s : State, exec .nop s = .next s ∧ exec .nop3 s = .next s

/-- R71: a write to `CTRL` runs the command that bits [1:0] select; bits [31:2] are ignored. -/
def Obligations.CtrlWriteSelectsCommand : Prop :=
  ∀ (s : State) (v : Word) (rest : List HostOp), s.host = .write 0x00 v :: rest →
    (v.toNat % 4 = 0 → step s = exec .nop { s with host := rest }) ∧
    (v.toNat % 4 = 1 → step s = exec .start { s with host := rest }) ∧
    (v.toNat % 4 = 2 → step s = exec .skip { s with host := rest }) ∧
    (v.toNat % 4 = 3 → step s = exec .nop3 { s with host := rest })

/-- R116 and R118: `MINCODE` takes bits [3:0] and `OLEN` all 32 bits while not busy; while busy both writes are ignored;
writes to the read-only registers are ignored in every state. -/
def Obligations.RegisterWriteEffect : Prop :=
  ∀ (s : State) (v : Word) (rest : List HostOp),
    (s.host = .write 0x04 v :: rest → s.busy = false →
      step s = .next { s with m := v.extractLsb' 0 4, host := rest }) ∧
    (s.host = .write 0x08 v :: rest → s.busy = false → step s = .next { s with olen := v, host := rest }) ∧
    (∀ off, off = 0x00 ∨ off = 0x04 ∨ off = 0x08 → s.host = .write off v :: rest → s.busy = true →
      step s = .next { s with host := rest }) ∧
    (∀ off, off = 0x0C ∨ off = 0x10 ∨ off = 0x14 ∨ off = 0x18 ∨ off = 0x1C → s.host = .write off v :: rest →
      step s = .next { s with host := rest })

/-- Derived from R117 with the register map of R26, and R132: a read while not busy returns the value of the state the register
maps and has no side effect; `CTRL` reads as zero; a sample of the line `done` gives `STATUS.DONE`, in every state. That `CTRL`,
`MINCODE` and `OLEN` read so while busy too is the model's choice (assumption log 8). -/
def Obligations.RegisterReadEffect : Prop :=
  ∀ (s : State) (rest : List HostOp),
    (s.host = .read 0x00 :: rest → step s = .next { s with rdata := 0, host := rest }) ∧
    (s.host = .read 0x04 :: rest → step s = .next { s with rdata := BitVec.ofNat 32 s.m.toNat, host := rest }) ∧
    (s.host = .read 0x08 :: rest → step s = .next { s with rdata := s.olen, host := rest }) ∧
    (s.host = .read 0x0C :: rest → s.busy = false → step s = .next { s with rdata := s.statusWord, host := rest }) ∧
    (s.host = .read 0x10 :: rest → s.busy = false → step s = .next { s with rdata := s.ocnt, host := rest }) ∧
    (s.host = .read 0x14 :: rest → s.busy = false →
      step s = .next { s with rdata := BitVec.ofNat 32 (s.ipos % 2 ^ 32), host := rest }) ∧
    (s.host = .read 0x18 :: rest → s.busy = false → step s = .next { s with rdata := s.einfoWord, host := rest }) ∧
    (s.host = .read 0x1C :: rest → s.busy = false → step s = .next { s with rdata := s.dstateWord, host := rest }) ∧
    (s.host = .sampleDone :: rest →
      step s = .next { s with rdata := if s.st = .done then 1 else 0, host := rest })

/-- R27 with the numbers of R11 for `ST` and of R22 and R123 for `CAUSE`: the layout of `STATUS`, field by field; the reserved
fields are 0; the line `done` equals `STATUS.DONE`. -/
def Obligations.StatusWordLayout : Prop :=
  ∀ s : State,
    (s.st = .idle → s.statusWord.extractLsb' 0 2 = 0) ∧
    (s.st = .decode → s.statusWord.extractLsb' 0 2 = 1) ∧
    (s.st = .drain → s.statusWord.extractLsb' 0 2 = 2) ∧
    (s.st = .done → s.statusWord.extractLsb' 0 2 = 3) ∧
    s.statusWord.getLsbD 2 = (decide (s.st = .decode) || decide (s.st = .drain)) ∧
    s.statusWord.getLsbD 3 = decide (s.st = .done) ∧
    s.statusWord.getLsbD 4 = s.endseen ∧
    s.statusWord.getLsbD 5 = s.closed ∧
    s.statusWord.getLsbD 6 = decide (s.ocnt = s.olen) ∧
    s.statusWord.getLsbD 7 = s.ovf ∧
    s.statusWord.getLsbD 8 = s.trunc ∧
    s.statusWord.getLsbD 9 = s.mode ∧
    s.statusWord.extractLsb' 10 2 = 0 ∧
    (s.cause = .none → s.statusWord.extractLsb' 12 4 = 0) ∧
    (s.cause = .ok → s.statusWord.extractLsb' 12 4 = 1) ∧
    (s.cause = .short → s.statusWord.extractLsb' 12 4 = 2) ∧
    (s.cause = .truncated → s.statusWord.extractLsb' 12 4 = 3) ∧
    (s.cause = .corrupt → s.statusWord.extractLsb' 12 4 = 4) ∧
    (s.cause = .badParam → s.statusWord.extractLsb' 12 4 = 5) ∧
    s.statusWord.extractLsb' 16 16 = 0 ∧
    s.doneLine = s.statusWord.getLsbD 3

/-- Derived from R26's rows for `EINFO` and `DSTATE`: the fields of the two words, the unused bits zero. -/
def Obligations.ErrorAndDebugWordLayout : Prop :=
  ∀ s : State,
    s.einfoWord.extractLsb' 0 12 = s.ecode ∧ s.einfoWord.extractLsb' 12 4 = s.ewidth ∧
    s.einfoWord.extractLsb' 16 13 = s.enext ∧ s.einfoWord.extractLsb' 29 3 = 0 ∧
    s.dstateWord.extractLsb' 0 4 = s.w ∧ s.dstateWord.extractLsb' 4 13 = s.next ∧
    s.dstateWord.extractLsb' 17 12 = s.prev ∧ s.dstateWord.getLsbD 29 = s.prevv ∧
    s.dstateWord.extractLsb' 30 2 = 0

/-- R146: while busy the reads of `OUT`, `OCNT`, `ICNT`, `EINFO` and `DSTATE` are refused; a `STATUS` read returns `BUSY` 1 and
`DONE` 0 (its other bits are free values, so nothing is said of them); the line `done` reads 0. -/
def Obligations.BusyReadsOutsideAdmittedUse : Prop :=
  ∀ (s : State) (rest : List HostOp), s.busy = true →
    (∀ off, off = 0x10 ∨ off = 0x14 ∨ off = 0x18 ∨ off = 0x1C → s.host = .read off :: rest →
      step s = .refused .readWhileBusy) ∧
    (∀ a, s.host = .readOut a :: rest → step s = .refused .readWhileBusy) ∧
    (s.host = .read 0x0C :: rest → ∃ t, step s = .next t ∧ t.rdata.getLsbD 2 = true ∧ t.rdata.getLsbD 3 = false ∧
      { t with rdata := s.rdata, freeCtr := s.freeCtr, host := s.host } = s) ∧
    (s.host = .sampleDone :: rest → step s = .next { s with rdata := 0, host := rest })

/-- Derived. An access at an offset that is no register faults: R26 says "There is no other register" and gives such an access
no effect, and the fault is the model's choice (assumption log 14). The host binds the input by an operation of its own, while
not busy (R41, R143 step 4; a separate operation by assumption log 4), and is refused while busy (R52). -/
def Obligations.HostMemoryAccess : Prop :=
  ∀ (s : State) (rest : List HostOp),
    (∀ off v, csrAt off = none → s.host = .write off v :: rest ∨ s.host = .read off :: rest →
      step s = .fault (.unmappedRegister off)) ∧
    (∀ bytes, s.host = .bindIn bytes :: rest → s.busy = true → step s = .refused .inputChangedWhileBusy) ∧
    (∀ bytes, s.host = .bindIn bytes :: rest → s.busy = false →
      step s = .next { s with inp := bytes, host := rest })

/-- Derived from R42, R50, R119 and R143 step 3: while not busy the host provides an output slice anywhere in its memory, fills a
byte of the slice and no other byte, and reads a byte of the slice that was written: `OUT[a]` is the byte at the start of the
slice plus `a` (R40). While busy it can change neither slice nor contents. That these are operations of their own, and that an
address beyond the slice faults, is the model's choice (assumption log 5, 7). -/
def Obligations.HostOutputSlice : Prop :=
  ∀ (s : State) (rest : List HostOp),
    (∀ base len, s.host = .bindOut base len :: rest → s.busy = false →
      step s = .next { s with outBase := base, outLen := len, host := rest }) ∧
    (∀ a v, s.host = .writeOut a v :: rest → s.busy = false → a < s.outLen →
      ∃ t, step s = .next t ∧ Memory.read t.out (s.outBase + a) = some v ∧
        (∀ x, x ≠ s.outBase + a → Memory.read t.out x = Memory.read s.out x) ∧
        t = { s with out := t.out, host := rest }) ∧
    (∀ a b, s.host = .readOut a :: rest → s.busy = false → a < s.outLen → Memory.read s.out (s.outBase + a) = some b →
      step s = .next { s with rdata := BitVec.ofNat 32 b.toNat, host := rest }) ∧
    (∀ a v, s.host = .readOut a :: rest ∨ s.host = .writeOut a v :: rest → s.busy = false → s.outLen ≤ a →
      step s = .fault (.outsideSlice a)) ∧
    (∀ a v base len, s.host = .bindOut base len :: rest ∨ s.host = .writeOut a v :: rest → s.busy = true →
      step s = .refused .outputChangedWhileBusy)

/-- Derived from R143 steps 1 to 5, with R113 and R116: the host's sequence, begun while not busy, with an `m` of 1 to 8 and a slice
of at least `frame_w * frame_h` bytes, leads in six steps to the start of the decode of that input into that slice: `OLEN` is the
exact product, and what was in the output memory and in the dictionary is not touched. -/
def Obligations.StartSequenceBeginsDecode : Prop :=
  ∀ (s : State) (m : Byte) (w h : BitVec 16) (base len : Nat) (bytes : List Byte) (rest : List HostOp),
    s.host = startSequence m w h base len bytes ++ rest → s.busy = false → 1 ≤ m.toNat → m.toNat ≤ 8 →
    w.toNat * h.toNat ≤ len →
    ∃ t, stepN 6 s = .next t ∧
      t.st = .decode ∧ t.m.toNat = m.toNat ∧ t.w.toNat = m.toNat + 1 ∧ t.next.toNat = 2 ^ m.toNat + 2 ∧
      t.olen.toNat = w.toNat * h.toNat ∧ t.outBase = base ∧ t.outLen = len ∧ t.inp = bytes ∧ t.ipos = 0 ∧ t.ocnt = 0 ∧
      t.prevv = false ∧ t.blkrem = 0 ∧ t.closed = false ∧ t.nbits = 0 ∧ t.cause = .none ∧ t.mode = false ∧
      t.out = s.out ∧ t.dict = s.dict ∧ t.host = rest

/-! ### The sub-block reader -/

/-- R81: a length byte. -/
def Obligations.LengthByteEffect : Prop :=
  ∀ (s : State) (len : Byte), exec (.sbLen len) s = .next { s with blkrem := len, ipos := s.ipos + 1 }

/-- Derived from R82 with the caller of each control state (R91, R86, R107): the terminator closes the chain and, while a command
runs, ends it; `OK` under `SKIP` or with the output full, else `SHORT`. That it only closes the chain where no command runs is the
model's choice (assumption log 10). -/
def Obligations.TerminatorEffect : Prop :=
  ∀ s : State,
    (s.st = .decode ∨ s.st = .drain →
      exec .sbTerm s = .next
        { s with
          closed := true, ipos := s.ipos + 1, bitbuf := 0, nbits := 0, st := .done
          cause := if s.mode = true ∨ s.ocnt = s.olen then .ok else .short
          trunc := !(s.mode || decide (s.ocnt = s.olen)) }) ∧
    (s.st = .idle ∨ s.st = .done → exec .sbTerm s = .next { s with closed := true, ipos := s.ipos + 1 })

/-- Derived from R83, R86 and R91: a data byte is counted off; under `DECODE` it goes to the fetch, which puts it above the bits held
(R91); under `DRAIN` it is discarded (R86). That in `IDLE` and `DONE`, where the spec reads no byte, it is only counted off too is
the model's choice (assumption log 10). -/
def Obligations.DataByteEffect : Prop :=
  ∀ (s : State) (b : Byte), 0 < s.blkrem.toNat →
    ∃ t, exec (.sbData b) s = .next t ∧ t.blkrem.toNat = s.blkrem.toNat - 1 ∧ t.ipos = s.ipos + 1 ∧
      (s.st ≠ .decode → t = { s with blkrem := t.blkrem, ipos := t.ipos }) ∧
      (s.st = .decode → s.nbits.toNat < s.w.toNat → s.w.toNat ≤ 12 → s.bitbuf.toNat < 2 ^ s.nbits.toNat →
        t.nbits.toNat = s.nbits.toNat + 8 ∧ t.bitbuf.toNat = s.bitbuf.toNat + b.toNat * 2 ^ s.nbits.toNat ∧
        t = { s with blkrem := t.blkrem, ipos := t.ipos, nbits := t.nbits, bitbuf := t.bitbuf })

/-- R80 with R63: the bytes that successive calls of `NextByte()` return are the flat stream of the chain, and it reports
`EndChain` when the flat stream is used up and the terminator is there. -/
def Obligations.NextByteDeliversFlatStream : Prop :=
  ∀ s : State,
    (∀ b t, s.nextByte = .byte b t → s.flat = b :: t.flat ∧ t.terminated = s.terminated) ∧
    (∀ t, s.nextByte = .endChain t → s.flat = [] ∧ s.terminated = true ∧ t.closed = true) ∧
    (∀ t, s.nextByte = .exhausted t → s.flat = [] ∧ s.terminated = false ∧ t.inp.length ≤ t.ipos) ∧
    (∀ b rest, s.flat = b :: rest → ∃ t, s.nextByte = .byte b t)

/-- R85: after the chain is closed, `NextByte()` returns `EndChain` every time and consumes nothing. -/
def Obligations.ClosedChainStaysClosed : Prop :=
  ∀ s : State, s.closed = true → s.nextByte = .endChain s

/-- Derived from R84: on exhaustion the state already changed in the call stays changed. With no byte left at a length-byte position or
inside a sub-block nothing has changed; with a length byte as the last byte, `BLKREM` holds that length and `IPOS` points past it.
These are the only cases. -/
def Obligations.ExhaustionKeepsWhatWasRead : Prop :=
  ∀ s : State,
    (s.closed = false → s.inp[s.ipos]? = none → s.nextByte = .exhausted s) ∧
    (∀ len : Byte, s.closed = false → s.blkrem = 0 → len ≠ 0 → s.inp[s.ipos]? = some len → s.inp[s.ipos + 1]? = none →
      s.nextByte = .exhausted { s with blkrem := len, ipos := s.ipos + 1 }) ∧
    (∀ t, s.nextByte = .exhausted t →
      s.closed = false ∧
      ((s.inp[s.ipos]? = none ∧ t = s) ∨
       (∃ len : Byte, s.blkrem = 0 ∧ len ≠ 0 ∧ s.inp[s.ipos]? = some len ∧ s.inp[s.ipos + 1]? = none ∧
         t = { s with blkrem := len, ipos := s.ipos + 1 })))

/-- R86: the cases of `DrainStep`, as the step of the machine when the turn is the block's. -/
def Obligations.DrainStepCases : Prop :=
  ∀ s : State, s.host = [] → s.st = .drain →
    (s.closed = true → step s = .next s.finish) ∧
    (s.closed = false → s.inp[s.ipos]? = none → step s = .next
      { s with bitbuf := 0, nbits := 0, cause := .truncated, trunc := true, st := .done }) ∧
    (s.closed = false → s.blkrem = 0 → s.inp[s.ipos]? = some 0 →
      step s = .next (State.finish { s with closed := true, ipos := s.ipos + 1 })) ∧
    (∀ len, s.closed = false → s.blkrem = 0 → s.inp[s.ipos]? = some len → len ≠ 0 →
      step s = .next { s with blkrem := len, ipos := s.ipos + 1 }) ∧
    (∀ b, s.closed = false → s.blkrem ≠ 0 → s.inp[s.ipos]? = some b →
      step s = .next { s with blkrem := s.blkrem - 1, ipos := s.ipos + 1 })

/-- Derived from R86, R107, R114 and R124: a drain consumes the rest of the chain and ends just past its terminator, with `OK`
under `SKIP` or with the output full and `SHORT` otherwise; where the input ends before the terminator it consumes all of it and
ends `TRUNCATED`. It writes no output and changes no register of the decoder. -/
def Obligations.DrainConsumesRestOfChain : Prop :=
  ∀ s : State, s.st = .drain → s.closed = false → s.ipos ≤ s.inp.length →
    (∀ k, chainEnd s.blkrem.toNat s.unread = some k → ∃ t, runCommand k s = .next t ∧
      t = { s with
        st := .done, bitbuf := 0, nbits := 0, closed := true, blkrem := 0, ipos := s.ipos + k
        cause := if s.mode = true ∨ s.ocnt = s.olen then .ok else .short
        trunc := !(s.mode || decide (s.ocnt = s.olen)) }) ∧
    (chainEnd s.blkrem.toNat s.unread = none → ∃ t, runCommand (s.inp.length - s.ipos + 1) s = .next t ∧
      t = { s with
        st := .done, bitbuf := 0, nbits := 0, blkrem := t.blkrem, ipos := s.inp.length, cause := .truncated, trunc := true })

/-- Derived from R80 to R83 and R91: inside a code fetch each byte of the chain is taken as the instruction it decodes to. -/
def Obligations.FetchRunsSubBlockItems : Prop :=
  ∀ (s t : State) (b : Byte) (i : Instr) (n : Nat),
    s.st = .decode → s.closed = false → s.nbits.toNat < s.w.toNat → s.inp[s.ipos]? = some b →
    decode s.ctx (.sb b) = .ok i → exec i s = .next t →
    (i = .sbTerm → s.gatherBits (n + 1) = .ended t) ∧
    (∀ len, i = .sbLen len → s.gatherBits (n + 1) = t.gatherBits (n + 1)) ∧
    (∀ d, i = .sbData d → s.gatherBits (n + 1) = t.gatherBits n)

/-! ### The code fetch -/

/-- R91, R64, R45: where `W` bits are to be had, the fetch returns the next `W` bits of the stream, least significant first,
and leaves the rest; it changes only the accumulator and the reader's position. -/
def Obligations.FetchTakesNextBits : Prop :=
  ∀ s : State, DecodeInv s → s.w.toNat ≤ s.pendingBits →
    ∃ c t, s.fetchCode = .code c t ∧
      c.toNat = s.pending % 2 ^ s.w.toNat ∧ t.pending = s.pending / 2 ^ s.w.toNat ∧
      t.pendingBits + s.w.toNat = s.pendingBits ∧ t.nbits.toNat ≤ 7 ∧ t.bitbuf.toNat < 2 ^ t.nbits.toNat ∧
      t = { s with bitbuf := t.bitbuf, nbits := t.nbits, ipos := t.ipos, blkrem := t.blkrem }

/-- R106 and R124: where fewer than `W` bits are left the step ends in the fetch and the bits are dropped. With the
terminator in the input the cause is `OK` or `SHORT` by the fill of the output and the position is just past the
terminator; without it the cause is `TRUNCATED` and the whole input is consumed. -/
def Obligations.FetchEndsAtChainEnd : Prop :=
  ∀ s : State, DecodeInv s → s.pendingBits < s.w.toNat →
    ∃ t, s.fetchCode = .ended t ∧ t.endseen = false ∧
      t = { s with
        st := .done, bitbuf := 0, nbits := 0, ipos := t.ipos, blkrem := t.blkrem, closed := t.closed
        cause := t.cause, trunc := t.trunc } ∧
      (∀ k, chainEnd s.blkrem.toNat s.unread = some k → t.closed = true ∧ t.ipos = s.ipos + k ∧
        t.cause = (if s.ocnt = s.olen then .ok else .short) ∧ (t.trunc = true ↔ s.ocnt ≠ s.olen)) ∧
      (chainEnd s.blkrem.toNat s.unread = none → t.closed = false ∧ t.ipos = s.inp.length ∧ t.cause = .truncated ∧
        t.trunc = true)

/-! ### The codes -/

/-- R100: CLEAR, under every `M`: `W <- M + 1`, `NEXT <- 2^M + 2`, no previous code; nothing else changes. -/
def Obligations.ClearCodeEffect : Prop :=
  ∀ s : State,
    (∃ t, exec .clear s = .next t ∧ (legalM s.m = true → t.w.toNat = s.m.toNat + 1 ∧ t.next.toNat = 2 ^ s.m.toNat + 2) ∧
      t.prev = 0 ∧ t.prevv = false ∧
      t = { s with w := t.w, next := t.next, prev := t.prev, prevv := t.prevv }) ∧
    (s.m = 1 → exec .clearM1 s = .next { s with w := 2, next := 4, prev := 0, prevv := false }) ∧
    (s.m = 2 → exec .clearM2 s = .next { s with w := 3, next := 6, prev := 0, prevv := false }) ∧
    (s.m = 3 → exec .clearM3 s = .next { s with w := 4, next := 10, prev := 0, prevv := false }) ∧
    (s.m = 4 → exec .clearM4 s = .next { s with w := 5, next := 18, prev := 0, prevv := false }) ∧
    (s.m = 5 → exec .clearM5 s = .next { s with w := 6, next := 34, prev := 0, prevv := false }) ∧
    (s.m = 6 → exec .clearM6 s = .next { s with w := 7, next := 66, prev := 0, prevv := false }) ∧
    (s.m = 7 → exec .clearM7 s = .next { s with w := 8, next := 130, prev := 0, prevv := false }) ∧
    (s.m = 8 → exec .clearM8 s = .next { s with w := 9, next := 258, prev := 0, prevv := false })

/-- R101: END, under every `M`: `ENDSEEN <- 1`, the held bits are dropped, `ST <- DRAIN`; nothing else changes. -/
def Obligations.EndCodeEffect : Prop :=
  ∀ (s : State) (i : Instr),
    i ∈ [.endCode, .endM1, .endM2, .endM3, .endM4, .endM5, .endM6, .endM7, .endM8] →
    exec i s = .next { s with endseen := true, bitbuf := 0, nbits := 0, st := .drain }

/-- R97: a literal, under every `M`: its one byte is offered to the output; `(PREV, c)` is appended where there is a previous
code and the dictionary is not full; `PREV <- c`. -/
def Obligations.LiteralCodeEffect : Prop :=
  ∀ s : State, s.stack = [] →
    (∀ c : Code, c.toNat < 2 ^ s.m.toNat → exec (.lit c) s = .next (s.afterKnown c (c.setWidth 8) [])) ∧
    (∀ b : BitVec 1, s.m = 1 → exec (.litM1 b) s = .next (s.afterKnown (b.setWidth 12) (b.setWidth 8) [])) ∧
    (∀ b : BitVec 2, s.m = 2 → exec (.litM2 b) s = .next (s.afterKnown (b.setWidth 12) (b.setWidth 8) [])) ∧
    (∀ b : BitVec 3, s.m = 3 → exec (.litM3 b) s = .next (s.afterKnown (b.setWidth 12) (b.setWidth 8) [])) ∧
    (∀ b : BitVec 4, s.m = 4 → exec (.litM4 b) s = .next (s.afterKnown (b.setWidth 12) (b.setWidth 8) [])) ∧
    (∀ b : BitVec 5, s.m = 5 → exec (.litM5 b) s = .next (s.afterKnown (b.setWidth 12) (b.setWidth 8) [])) ∧
    (∀ b : BitVec 6, s.m = 6 → exec (.litM6 b) s = .next (s.afterKnown (b.setWidth 12) (b.setWidth 8) [])) ∧
    (∀ b : BitVec 7, s.m = 7 → exec (.litM7 b) s = .next (s.afterKnown (b.setWidth 12) (b.setWidth 8) [])) ∧
    (∀ b : BitVec 8, s.m = 8 → exec (.litM8 b) s = .next (s.afterKnown (b.setWidth 12) b []))

/-- R98: an assigned dictionary code: its whole string (two or more bytes) is offered to the output, `(PREV, First(c))` is
appended where the dictionary is not full, `PREV <- c`; there is always a previous code. -/
def Obligations.DictionaryCodeEffect : Prop :=
  ∀ (s : State) (c : Code), DecodeInv s → s.stack = [] → s.first ≤ c.toNat → c.toNat < s.next.toNat →
    s.prevv = true ∧
    ∃ f rest, StringIs s.dict s.clr c (f :: rest) ∧ rest ≠ [] ∧ exec (.dict c) s = .next (s.afterKnown c f rest)

/-- R99: KwKwK: `(PREV, First(PREV))` is appended at `NEXT = c` first, then `String(PREV)` and its first byte again are offered
to the output, and `PREV <- c`. -/
def Obligations.KwKwKCodeEffect : Prop :=
  ∀ (s : State) (c : Code), DecodeInv s → s.stack = [] → c.toNat = s.next.toNat → s.prevv = true →
    ∃ f rest, StringIs s.dict s.clr s.prev (f :: rest) ∧
      exec (.kwkwk c) s = .next (((s.append s.prev f).emit (f :: rest ++ [f])).setPrev c)

/-- R102: an invalid code: the code, its width and `NEXT` are recorded and the block halts with `CORRUPT`; nothing is
emitted or appended, `PREV` is unchanged and the chain is not drained. -/
def Obligations.InvalidCodeEffect : Prop :=
  ∀ (s : State) (c : Code), exec (.invalid c) s = .next
    { s with
      ecode := c, ewidth := s.w, enext := s.next, bitbuf := 0, nbits := 0, cause := .corrupt, trunc := true, st := .done }

/-- The frame of the codes that emit a string (R97 to R99, R112): the output memory is stored to from `OUT[OCNT]` on, below the
new `OCNT`, and nowhere else, the
dictionary at `NEXT` and nowhere else, and only `W`, `NEXT`, `PREV`, `PREVV`, `OCNT`, `OVF` and the emptied stack change. -/
def Obligations.StringCodeFrame : Prop :=
  ∀ (i : Instr) (c : Code) (s t : State), stringCodeOf i = some c → exec i s = .next t →
    s.ocnt.toNat ≤ t.ocnt.toNat ∧
    (∀ a, a < s.outBase + s.ocnt.toNat ∨ s.outBase + t.ocnt.toNat ≤ a → Memory.read t.out a = Memory.read s.out a) ∧
    (∀ n, n ≠ s.next.toNat → DictMem.find t.dict n = DictMem.find s.dict n) ∧
    t.prev = c ∧ t.prevv = true ∧ t.stack = [] ∧
    t = { s with
      w := t.w, next := t.next, prev := t.prev, prevv := t.prevv, ocnt := t.ocnt, ovf := t.ovf, dict := t.dict
      out := t.out, stack := t.stack }

/-! ### Output and dictionary -/

/-- R42: a byte is written at `OUT[OCNT]` and counted while `OCNT < OLEN`, else discarded with `OVF` set; every other byte of the
output is unchanged. -/
def Obligations.OutByteWritesAtCount : Prop :=
  ∀ (s : State) (v : Byte),
    (s.ocnt.toNat < s.olen.toNat →
      (s.outByte v).ocnt.toNat = s.ocnt.toNat + 1 ∧ Memory.read (s.outByte v).out (s.outBase + s.ocnt.toNat) = some v ∧
      (∀ a, a ≠ s.outBase + s.ocnt.toNat → Memory.read (s.outByte v).out a = Memory.read s.out a) ∧
      s.outByte v = { s with ocnt := (s.outByte v).ocnt, out := (s.outByte v).out }) ∧
    (s.olen.toNat ≤ s.ocnt.toNat → s.outByte v = { s with ovf := true })

/-- R94 with R42: the bytes of a string are offered in order; those that fit stand at ascending addresses from `OUT[OCNT]`, the
rest are discarded and set `OVF`; every other byte of the output is unchanged. -/
def Obligations.EmitWritesInOrder : Prop :=
  ∀ (s : State) (str : List Byte), s.ocnt.toNat ≤ s.olen.toNat →
    (s.emit str).ocnt.toNat = min (s.ocnt.toNat + str.length) s.olen.toNat ∧
    (∀ k, s.ocnt.toNat + k < (s.emit str).ocnt.toNat →
      Memory.read (s.emit str).out (s.outBase + s.ocnt.toNat + k) = str[k]?) ∧
    (∀ a, a < s.outBase + s.ocnt.toNat ∨ s.outBase + (s.emit str).ocnt.toNat ≤ a →
      Memory.read (s.emit str).out a = Memory.read s.out a) ∧
    (s.emit str).ovf = (s.ovf || decide (s.olen.toNat < s.ocnt.toNat + str.length)) ∧
    s.emit str = { s with ocnt := (s.emit str).ocnt, out := (s.emit str).out, ovf := (s.emit str).ovf }

/-- R95: `Append` writes the entry at `NEXT` and no other, raises `NEXT` by one and then grows the width at most by one. -/
def Obligations.AppendWritesEntry : Prop :=
  ∀ (s : State) (p : Code) (b : Byte), s.next.toNat < 4096 →
    DictMem.find (s.append p b).dict s.next.toNat = some { pfx := p, byte := b } ∧
    (∀ n, n ≠ s.next.toNat → DictMem.find (s.append p b).dict n = DictMem.find s.dict n) ∧
    (s.append p b).next.toNat = s.next.toNat + 1 ∧
    (s.append p b).w.toNat =
      (if s.w.toNat < 12 ∧ reaches s.cfg.growGe (s.next.toNat + 1) s.w.toNat = true then s.w.toNat + 1 else s.w.toNat) ∧
    s.append p b = { s with
      dict := (s.append p b).dict, next := (s.append p b).next, w := (s.append p b).w }

/-- R96: the growth test is `NEXT = 2^W` when `GROW_GE` is false and `NEXT >= 2^W` when it is true, below width 12; and for
`M >= 2` the two readings agree in every decoding state. -/
def Obligations.WidthGrowthTest : Prop :=
  (∀ n w : Nat, reaches false n w = true ↔ n = 2 ^ w) ∧
  (∀ n w : Nat, reaches true n w = true ↔ 2 ^ w ≤ n) ∧
  (∀ s : State, s.w.toNat < 12 → reaches s.cfg.growGe s.next.toNat s.w.toNat = true →
    s.grow = { s with w := s.grow.w } ∧ s.grow.w.toNat = s.w.toNat + 1) ∧
  (∀ s : State, ¬ (s.w.toNat < 12 ∧ reaches s.cfg.growGe s.next.toNat s.w.toNat = true) → s.grow = s) ∧
  (∀ s : State, DecodeInv s → 2 ≤ s.m.toNat → s.next.toNat < 4096 →
    reaches true (s.next.toNat + 1) s.w.toNat = true → s.w.toNat < 12 →
    reaches false (s.next.toNat + 1) s.w.toNat = true)

/-- R103: in the full state no code is KwKwK or invalid; the width is 12 but for `M = 1` with `GROW_GE` false; every literal and
every dictionary code is emitted and becomes `PREV` but appends nothing; CLEAR and END work as always. -/
def Obligations.FullDictionaryAppendsNothing : Prop :=
  (∀ (x : Ctx) (c : Code) (i : Instr), x.next.toNat = 4096 → decode x (.code c) = .ok i →
    i ≠ .kwkwk c ∧ i ≠ .invalid c) ∧
  (∀ s : State, DecodeInv s → s.stack = [] → s.next.toNat = 4096 →
    (s.w.toNat = 12 ∨ (s.m.toNat = 1 ∧ s.cfg.growGe = false ∧ s.w.toNat = 2)) ∧
    ∀ (c : Code) (i : Instr), decode s.ctx (.code c) = .ok i →
      (c.toNat = s.clr → exec i s = .next s.clearContext) ∧
      (c.toNat = s.eoi → exec i s = .next s.endDecode) ∧
      (s.stringCode c → ∃ str, StringIs s.dict s.clr c str ∧ exec i s = .next ((s.emit str).setPrev c)))

/-! ### Halts -/

/-- R130: what a halt does, and that everything else keeps its value. -/
def Obligations.HaltEffect : Prop :=
  ∀ (s : State) (cause : Cause),
    (s.halt cause).bitbuf = 0 ∧ (s.halt cause).nbits = 0 ∧ (s.halt cause).cause = cause ∧
    ((s.halt cause).trunc = true ↔ cause ≠ .ok) ∧ (s.halt cause).st = .done ∧ (s.halt cause).doneLine = true ∧
    s.halt cause = { s with
      bitbuf := (s.halt cause).bitbuf, nbits := (s.halt cause).nbits, cause := (s.halt cause).cause
      trunc := (s.halt cause).trunc, st := (s.halt cause).st }

/-- R107: `Finish` halts with `OK` under `SKIP` or when the output is full, else with `SHORT`. -/
def Obligations.FinishChoosesCause : Prop :=
  ∀ s : State,
    (s.mode = true ∨ s.ocnt = s.olen → s.finish = s.halt .ok) ∧
    (s.mode = false → s.ocnt ≠ s.olen → s.finish = s.halt .short)

/-! ### Decoding -/

/-- Derived (the design of the model): when the turn is the block's, a step in `DECODE` is the execution of the instruction
that the fetched code decodes to, in the state the fetch leaves; a step in `DRAIN` is the execution of the instruction that
the byte at `IPOS` decodes to; a host write to `CTRL` is the execution of the command its word decodes to. -/
def Obligations.StepRunsDecodedInstruction : Prop :=
  (∀ (s t : State) (c : Code) (i : Instr), s.blockTurn = true → s.st = .decode →
    s.blockView.fetchCode = .code c t → decode t.ctx (.code c) = .ok i → step s = exec i t) ∧
  (∀ (s : State) (b : Byte) (i : Instr), s.blockTurn = true → s.st = .drain → s.closed = false →
    s.inp[s.ipos]? = some b → decode s.ctx (.sb b) = .ok i → step s = exec i s.blockView) ∧
  (∀ (s : State) (v : Word) (i : Instr) (rest : List HostOp), s.host = .write 0x00 v :: rest →
    decode s.ctx (.cmd v) = .ok i → step s = exec i { s with host := rest })

/-- Derived from R4 (no block step is enabled in `IDLE` or `DONE`): with no host operation the machine stays as it is. That a step in
which nothing is enabled answers the state unchanged is the model's reading of it (assumption log 13). -/
def Obligations.IdleBlockStays : Prop :=
  ∀ s : State, s.host = [] → s.st = .idle ∨ s.st = .done → step s = .next s

/-- Every instruction that can stand in a context decodes from its own encoding there (all 37 rows, every operand value). -/
def Obligations.DecodeOfEncode : Prop :=
  ∀ (x : Ctx) (i : Instr), i.wf x = true → decode x (encode x i) = .ok i

/-- The other direction: what an item decodes to can stand in the context and encodes back to that item (for a command, to its
low two bits, the rest being ignored, R71). -/
def Obligations.EncodeOfDecode : Prop :=
  ∀ (x : Ctx) (item : Item) (i : Instr), decode x item = .ok i →
    i.wf x = true ∧
    match item with
    | .cmd v => encode x i = .cmd (v &&& 3)
    | _ => encode x i = item

/-- Derived from R67: the six classes of codes by the conditions of the table, for the legal values of `M`. That a code of the
classes 1 and 2 is answered by the row of its `M` and not by the class row of the same word is the model's choice (assumption
log 2). -/
def Obligations.CodeMapClasses : Prop :=
  ∀ (x : Ctx) (c : Code), legalM x.m = true → c.toNat < 2 ^ x.w.toNat →
    ∃ i, decode x (.code c) = .ok i ∧
      (c.toNat = 2 ^ x.m.toNat →
        [.clearM1, .clearM2, .clearM3, .clearM4, .clearM5, .clearM6, .clearM7, .clearM8][x.m.toNat - 1]? = some i) ∧
      (c.toNat = 2 ^ x.m.toNat + 1 →
        [.endM1, .endM2, .endM3, .endM4, .endM5, .endM6, .endM7, .endM8][x.m.toNat - 1]? = some i) ∧
      (c.toNat < 2 ^ x.m.toNat → stringCodeOf i = some c ∧ i ≠ .dict c ∧ i ≠ .kwkwk c) ∧
      (2 ^ x.m.toNat + 2 ≤ c.toNat → c.toNat < x.next.toNat → i = .dict c) ∧
      (2 ^ x.m.toNat + 2 ≤ c.toNat → c.toNat = x.next.toNat → x.prevv = true → i = .kwkwk c) ∧
      (2 ^ x.m.toNat + 2 ≤ c.toNat → x.next.toNat < c.toNat ∨ (c.toNat = x.next.toNat ∧ x.prevv = false) →
        i = .invalid c)

/-- Derived from R104 and R68: right after `START` or CLEAR every code at or above `2^M + 2` is invalid, whatever its value. -/
def Obligations.FirstCodeMustBeBasic : Prop :=
  ∀ (x : Ctx) (c : Code), x.next.toNat = firstOf x.m → x.prevv = false → firstOf x.m ≤ c.toNat →
    c.toNat < 2 ^ x.w.toNat → decode x (.code c) = .ok (.invalid c)

/-- Derived from R62, R67 and R71: words of each format, written out from the tables, decode to the instruction they stand for. That
CLEAR, END and LIT words are answered by the rows of `M = 2` and not by the class rows of the same words is the model's choice
(assumption log 2). -/
def Obligations.SpecWordsDecode : Prop :=
  let x : Ctx := { closed := false, blkrem := 0, m := 2, w := 4, next := 9, prevv := true }
  decode x (.sb 0x00) = .ok .sbTerm ∧
  decode x (.sb 0xFF) = .ok (.sbLen 0xFF) ∧
  decode { x with blkrem := 3 } (.sb 0x00) = .ok (.sbData 0x00) ∧
  decode x (.code 0b0100) = .ok .clearM2 ∧
  decode x (.code 0b0101) = .ok .endM2 ∧
  decode x (.code 0b0011) = .ok (.litM2 3) ∧
  decode x (.code 0b1000) = .ok (.dict 8) ∧
  decode x (.code 0b1001) = .ok (.kwkwk 9) ∧
  decode x (.code 0b1100) = .ok (.invalid 12) ∧
  decode x (.cmd 0xFFFFFFFD) = .ok .start ∧
  decode x (.cmd 2) = .ok .skip ∧
  decode x (.cmd 0) = .ok .nop ∧
  decode x (.cmd 3) = .ok .nop3

/-- Derived (assumption log 12): a word of the opcode table, placed for the next fetch, is run by the next step as the
instruction the decoder reads from it. -/
def Obligations.TableWordRunsNext : Prop :=
  ∀ (s : State) (nbits w : Nat) (i : Instr), decodeTableWord nbits w = some i →
    ∃ t, step (s.withFetchWord nbits w) = exec i t ∧ t.host = [] ∧ t.dict = s.dict ∧ t.out = s.out ∧ t.olen = s.olen ∧
      t.ocnt = s.ocnt ∧ t.cfg = s.cfg

/-! ### Whole-machine rules -/

/-- The invariant holds right after reset. -/
def Obligations.ResetMeetsInvariant : Prop := Inv State.reset

/-- R29 and the invariants of R15, R18 and R25: every step from a state that meets them, whatever the host does, gives a state
that meets them. -/
def Obligations.StepKeepsInvariant : Prop :=
  ∀ s t : State, Inv s → step s = .next t → Inv t

/-- Derived from R29, R110 and R123 ("No other exception exists"): from a state that meets the invariant a block step always
completes, and a step of the machine stops only on a host operation the spec does not admit. A fault is an access at an offset
that is no register (assumption log 14) or beyond the output slice (assumption log 5); a refusal is, while busy, a read R146
excludes or a change of the input (R52) or of the output (R50), or, while not busy, a `START` of a legal `M` with a slice of fewer
than `OLEN` bytes (U9, assumption log 7). -/
def Obligations.OnlyHostMisuseStops : Prop :=
  ∀ s : State, Inv s →
    (∃ t, blockStep s = .next t) ∧
    (∀ f, step s = .fault f → ∃ op rest, s.host = op :: rest ∧
      ((∃ off, f = .unmappedRegister off ∧ csrAt off = none ∧ (op = .read off ∨ ∃ v, op = .write off v)) ∨
       (∃ a, f = .outsideSlice a ∧ s.busy = false ∧ s.outLen ≤ a ∧ (op = .readOut a ∨ ∃ v, op = .writeOut a v)))) ∧
    (∀ r, step s = .refused r → ∃ op rest, s.host = op :: rest ∧
      ((r = .readWhileBusy ∧ s.busy = true ∧
          ((∃ a, op = .readOut a) ∨ ∃ off, (off = 0x10 ∨ off = 0x14 ∨ off = 0x18 ∨ off = 0x1C) ∧ op = .read off)) ∨
       (r = .inputChangedWhileBusy ∧ s.busy = true ∧ ∃ bytes, op = .bindIn bytes) ∨
       (r = .outputChangedWhileBusy ∧ s.busy = true ∧
          ((∃ base len, op = .bindOut base len) ∨ ∃ a v, op = .writeOut a v)) ∨
       (r = .outputSliceTooShort ∧ s.busy = false ∧ 1 ≤ s.m.toNat ∧ s.m.toNat ≤ 8 ∧ s.outLen < s.olen.toNat ∧
          ∃ v : Word, v.toNat % 4 = 1 ∧ op = .write 0x00 v)))

/-- Derived from R108 and R151: a running command reaches `DONE` within as many block steps as there are input bits left, and
one more. -/
def Obligations.CommandReachesDone : Prop :=
  ∀ s : State, Inv s → s.busy = true →
    ∃ t, runCommand (8 * (s.inp.length - s.ipos) + s.nbits.toNat + 1) s = .next t ∧ t.st = .done

/-- R11: the transitions of `ST`; nothing but reset leads to `IDLE`. -/
def Obligations.ControlStateTransitions : Prop :=
  ∀ s t : State, step s = .next t →
    s.st.mayBecome t.st = true ∨ (t.st = .idle ∧ ∃ rest, s.host = .reset :: rest)

/-- Derived from R20, R41, R113, R114 and R141: the stream position advances only forward; a block step never moves it back nor past the
end of the input, and does not change the input; a host operation leaves it, but for an accepted `START` or `SKIP` and reset, which
put it to 0. -/
def Obligations.StreamPositionMovesForward : Prop :=
  ∀ s t : State, step s = .next t →
    (s.blockTurn = true → s.ipos ≤ t.ipos ∧ t.inp = s.inp ∧ (s.ipos ≤ s.inp.length → t.ipos ≤ t.inp.length)) ∧
    (s.blockTurn = false →
      t.ipos = s.ipos ∨
      (t.ipos = 0 ∧ ∃ rest, s.host = .reset :: rest ∨
        (s.busy = false ∧ ∃ v : Word, (v.toNat % 4 = 1 ∨ v.toNat % 4 = 2) ∧ s.host = .write 0x00 v :: rest)))

/-- Derived from R42 and R112: whatever step is taken, the output memory changes only at `OUT[OCNT]` and above, below `OUT[OLEN]`, by the
block (in a state that meets the invariant that is inside the slice the host has provided), or at the one byte a host operation
fills; only `bindOut` moves the slice. -/
def Obligations.OutputWrittenOnlyInSlice : Prop :=
  ∀ s t : State, Inv s → step s = .next t →
    (∀ x, (x < s.outBase ∨ s.outBase + s.outLen ≤ x) → Memory.read t.out x = Memory.read s.out x) ∧
    (s.blockTurn = true → ∀ x, (x < s.outBase + s.ocnt.toNat ∨ s.outBase + s.olen.toNat ≤ x) →
      Memory.read t.out x = Memory.read s.out x) ∧
    (∀ x, s.blockTurn = false → Memory.read t.out x ≠ Memory.read s.out x →
      ∃ a v rest, s.host = .writeOut a v :: rest ∧ x = s.outBase + a) ∧
    ((t.outBase = s.outBase ∧ t.outLen = s.outLen) ∨ ∃ base len rest, s.host = .bindOut base len :: rest)

/-- Derived from R7 and R10: the parameter `GROW_GE` is constant over a run. -/
def Obligations.ConfigurationNeverChanges : Prop :=
  ∀ s t : State, step s = .next t → t.cfg = s.cfg

/-- R109: every byte of the string of a code that can be decoded is below `2^M`, and so is every byte written since `START`. -/
def Obligations.OutputBytesBelowPowerOfM : Prop :=
  ∀ s : State, DecodeInv s →
    (∀ (k : Code) (str : List Byte), s.stringCode k → StringIs s.dict s.clr k str → ∀ b ∈ str, b.toNat < 2 ^ s.m.toNat) ∧
    (∀ a, a < s.ocnt.toNat → ∃ b, Memory.read s.out (s.outBase + a) = some b ∧ b.toNat < 2 ^ s.m.toNat)

/-- Derived from R29 item 9 (which the spec derives from item 6): every literal and every assigned entry has one string; it has one
byte for a literal and at most `k - 2^M` bytes for an entry `k`, so never more than `4095 - 2^M`. -/
def Obligations.StringLengthBound : Prop :=
  ∀ (s : State) (k : Code), DecodeInv s → s.stringCode k →
    ∃ str, StringIs s.dict s.clr k str ∧ s.string k = some str ∧ s.firstByte k = str[0]? ∧
      (k.toNat < s.clr → str.length = 1) ∧
      (s.first ≤ k.toNat → 2 ≤ str.length ∧ str.length ≤ k.toNat - 2 ^ s.m.toNat ∧
        str.length ≤ 4095 - 2 ^ s.m.toNat)

/-- R63: how the data is divided into sub-blocks is not seen by the decoder: two decodes in the same state but for their chains,
whose chains are closed by a terminator and have the same flat stream, end in the same state but for the reader's position. -/
def Obligations.SameFlatStreamSameResult : Prop :=
  ∀ (s t s' t' : State) (n k : Nat),
    Inv s → Inv t → s.st = .decode → t.st = .decode → s.eraseReader = t.eraseReader → s.flat = t.flat →
    s.terminated = true → t.terminated = true →
    runCommand n s = .next s' → s'.busy = false → runCommand k t = .next t' → t'.busy = false →
    s'.eraseReader = t'.eraseReader
end

