-- ==== Sys2Proof/Laws/Basic.lean ====
section
/-! SUPPORT. The Boolean checks of Syntax and WellFormed as propositions with their numbers written out. -/

namespace Sys2Proof

theorem legalM_iff {m : BitVec 4} : legalM m = true ↔ 1 ≤ m.toNat ∧ m.toNat ≤ 8 := by
  simp only [legalM, Bool.and_eq_true, decide_eq_true_eq]

theorem legalM_false_iff {m : BitVec 4} : legalM m = false ↔ m.toNat < 1 ∨ 8 < m.toNat := by
  rw [← Bool.not_eq_true, legalM_iff]; omega

theorem fitsWidth_iff {x : Ctx} {n : Nat} : fitsWidth x n = true ↔ n < 2 ^ x.w.toNat ∧ n < 4096 := by
  simp only [fitsWidth, Bool.and_eq_true, decide_eq_true_eq]

theorem atLength_iff {x : Ctx} : atLength x = true ↔ x.closed = false ∧ x.blkrem = 0 := by
  simp only [atLength, Bool.and_eq_true, Bool.not_eq_true', decide_eq_true_eq]

theorem hasM_iff {x : Ctx} {m : Nat} : hasM x m = true ↔ x.m.toNat = m := by
  simp only [hasM, decide_eq_true_eq]

end Sys2Proof
end

