-- ==== Sys2Proof/Laws/Memory.lean ====
section
/-! SUPPORT. The laws of the two list memories: a read after a write, and the canonical form. -/

namespace Sys2Proof.Machine

@[simp] theorem Memory.read_write_same (mem : Memory) (a : Nat) (v : Byte) :
    Memory.read (Memory.write mem a v) a = some v := by
  induction mem with
  | nil => simp [Memory.write, Memory.read]
  | cons c rest ih =>
    obtain ⟨k, b⟩ := c
    by_cases h1 : a < k
    · simp [Memory.write, Memory.read, h1]
    · by_cases h2 : a = k
      · simp [Memory.write, Memory.read, h2]
      · simp [Memory.write, Memory.read, h1, h2, Ne.symm h2, ih]

theorem Memory.read_write_other (mem : Memory) (a x : Nat) (v : Byte) (h : x ≠ a) :
    Memory.read (Memory.write mem a v) x = Memory.read mem x := by
  induction mem with
  | nil => simp [Memory.write, Memory.read, Ne.symm h]
  | cons c rest ih =>
    obtain ⟨k, b⟩ := c
    by_cases h1 : a < k
    · simp [Memory.write, Memory.read, h1, Ne.symm h]
    · by_cases h2 : a = k
      · subst h2; simp [Memory.write, Memory.read, Ne.symm h]
      · simp [Memory.write, Memory.read, h1, h2, ih]

theorem Memory.risingFrom_write (mem : Memory) (lo a : Nat) (v : Byte) (hlo : lo ≤ a)
    (h : Memory.risingFrom lo mem = true) : Memory.risingFrom lo (Memory.write mem a v) = true := by
  induction mem generalizing lo with
  | nil => simp [Memory.write, Memory.risingFrom, hlo]
  | cons c rest ih =>
    obtain ⟨k, b⟩ := c
    simp only [Memory.risingFrom, Bool.and_eq_true, decide_eq_true_eq] at h
    by_cases h1 : a < k
    · simp [Memory.write, Memory.risingFrom, h1, hlo, h.2]
    · by_cases h2 : a = k
      · subst h2; simp [Memory.write, Memory.risingFrom, hlo, h.2]
      · simp [Memory.write, Memory.risingFrom, h1, h2, h.1, ih (k + 1) (by omega) h.2]

/-- Every write keeps the canonical form of the output memory. -/
theorem Memory.wf_write (mem : Memory) (a : Nat) (v : Byte) (h : Memory.wf mem = true) :
    Memory.wf (Memory.write mem a v) = true := Memory.risingFrom_write mem 0 a v (Nat.zero_le a) h

@[simp] theorem DictMem.find_set_same (d : DictMem) (k : Nat) (e : DictEntry) :
    DictMem.find (DictMem.set d k e) k = some e := by
  induction d with
  | nil => simp [DictMem.set, DictMem.find]
  | cons c rest ih =>
    obtain ⟨i, x⟩ := c
    by_cases h1 : k < i
    · simp [DictMem.set, DictMem.find, h1]
    · by_cases h2 : k = i
      · simp [DictMem.set, DictMem.find, h2]
      · simp [DictMem.set, DictMem.find, h1, h2, Ne.symm h2, ih]

theorem DictMem.find_set_other (d : DictMem) (k x : Nat) (e : DictEntry) (h : x ≠ k) :
    DictMem.find (DictMem.set d k e) x = DictMem.find d x := by
  induction d with
  | nil => simp [DictMem.set, DictMem.find, Ne.symm h]
  | cons c rest ih =>
    obtain ⟨i, y⟩ := c
    by_cases h1 : k < i
    · simp [DictMem.set, DictMem.find, h1, Ne.symm h]
    · by_cases h2 : k = i
      · subst h2; simp [DictMem.set, DictMem.find, Ne.symm h]
      · simp [DictMem.set, DictMem.find, h1, h2, ih]

theorem DictMem.entry_of_find {d : DictMem} {k : Nat} {e : DictEntry} (h : DictMem.find d k = some e) :
    DictMem.entry d k = e := by simp [DictMem.entry, h]

@[simp] theorem DictMem.entry_set_same (d : DictMem) (k : Nat) (e : DictEntry) :
    DictMem.entry (DictMem.set d k e) k = e := by simp [DictMem.entry]

theorem DictMem.entry_set_other (d : DictMem) (k x : Nat) (e : DictEntry) (h : x ≠ k) :
    DictMem.entry (DictMem.set d k e) x = DictMem.entry d x := by
  simp [DictMem.entry, DictMem.find_set_other d k x e h]

theorem DictMem.risingFrom_set (d : DictMem) (lo k : Nat) (e : DictEntry) (hlo : lo ≤ k) (hk : k < 4096)
    (h : DictMem.risingFrom lo d = true) : DictMem.risingFrom lo (DictMem.set d k e) = true := by
  induction d generalizing lo with
  | nil => simp [DictMem.set, DictMem.risingFrom, hlo, hk]
  | cons c rest ih =>
    obtain ⟨i, x⟩ := c
    simp only [DictMem.risingFrom, Bool.and_eq_true, decide_eq_true_eq] at h
    by_cases h1 : k < i
    · simp [DictMem.set, DictMem.risingFrom, h1, hlo, hk, h.2, h.1.2]
    · by_cases h2 : k = i
      · subst h2; simp [DictMem.set, DictMem.risingFrom, hlo, hk, h.2]
      · simp [DictMem.set, DictMem.risingFrom, h1, h2, h.1, ih (i + 1) (by omega) h.2]

/-- Writing an entry of the table keeps its canonical form. -/
theorem DictMem.wf_set (d : DictMem) (k : Nat) (e : DictEntry) (hk : k < 4096) (h : DictMem.wf d = true) :
    DictMem.wf (DictMem.set d k e) = true := DictMem.risingFrom_set d 0 k e (Nat.zero_le k) hk h

end Sys2Proof.Machine
end

