-- ==== Sys2Proof/Laws/State.lean ====
section
/-! SUPPORT. One lemma per field per update of State, true by rfl, so that no proof unfolds a record update. -/

namespace Sys2Proof.Machine

/-! ### `halt` -/

@[simp] theorem State.halt_cfg (c : Cause) (s : State) : (s.halt c).cfg = s.cfg := rfl
@[simp] theorem State.halt_st (c : Cause) (s : State) : (s.halt c).st = .done := rfl
@[simp] theorem State.halt_m (c : Cause) (s : State) : (s.halt c).m = s.m := rfl
@[simp] theorem State.halt_w (c : Cause) (s : State) : (s.halt c).w = s.w := rfl
@[simp] theorem State.halt_next (c : Cause) (s : State) : (s.halt c).next = s.next := rfl
@[simp] theorem State.halt_prev (c : Cause) (s : State) : (s.halt c).prev = s.prev := rfl
@[simp] theorem State.halt_prevv (c : Cause) (s : State) : (s.halt c).prevv = s.prevv := rfl
@[simp] theorem State.halt_bitbuf (c : Cause) (s : State) : (s.halt c).bitbuf = 0 := rfl
@[simp] theorem State.halt_nbits (c : Cause) (s : State) : (s.halt c).nbits = 0 := rfl
@[simp] theorem State.halt_blkrem (c : Cause) (s : State) : (s.halt c).blkrem = s.blkrem := rfl
@[simp] theorem State.halt_closed (c : Cause) (s : State) : (s.halt c).closed = s.closed := rfl
@[simp] theorem State.halt_olen (c : Cause) (s : State) : (s.halt c).olen = s.olen := rfl
@[simp] theorem State.halt_ocnt (c : Cause) (s : State) : (s.halt c).ocnt = s.ocnt := rfl
@[simp] theorem State.halt_ipos (c : Cause) (s : State) : (s.halt c).ipos = s.ipos := rfl
@[simp] theorem State.halt_endseen (c : Cause) (s : State) : (s.halt c).endseen = s.endseen := rfl
@[simp] theorem State.halt_ovf (c : Cause) (s : State) : (s.halt c).ovf = s.ovf := rfl
@[simp] theorem State.halt_trunc (c : Cause) (s : State) : (s.halt c).trunc = c.trunc := rfl
@[simp] theorem State.halt_mode (c : Cause) (s : State) : (s.halt c).mode = s.mode := rfl
@[simp] theorem State.halt_cause (c : Cause) (s : State) : (s.halt c).cause = c := rfl
@[simp] theorem State.halt_ecode (c : Cause) (s : State) : (s.halt c).ecode = s.ecode := rfl
@[simp] theorem State.halt_ewidth (c : Cause) (s : State) : (s.halt c).ewidth = s.ewidth := rfl
@[simp] theorem State.halt_enext (c : Cause) (s : State) : (s.halt c).enext = s.enext := rfl
@[simp] theorem State.halt_dict (c : Cause) (s : State) : (s.halt c).dict = s.dict := rfl
@[simp] theorem State.halt_stack (c : Cause) (s : State) : (s.halt c).stack = s.stack := rfl
@[simp] theorem State.halt_inp (c : Cause) (s : State) : (s.halt c).inp = s.inp := rfl
@[simp] theorem State.halt_out (c : Cause) (s : State) : (s.halt c).out = s.out := rfl
@[simp] theorem State.halt_outBase (c : Cause) (s : State) : (s.halt c).outBase = s.outBase := rfl
@[simp] theorem State.halt_outLen (c : Cause) (s : State) : (s.halt c).outLen = s.outLen := rfl
@[simp] theorem State.halt_host (c : Cause) (s : State) : (s.halt c).host = s.host := rfl
@[simp] theorem State.halt_rdata (c : Cause) (s : State) : (s.halt c).rdata = s.rdata := rfl
@[simp] theorem State.halt_freeCtr (c : Cause) (s : State) : (s.halt c).freeCtr = s.freeCtr := rfl

/-! ### `advance` -/

@[simp] theorem State.advance_cfg (s : State) : s.advance.cfg = s.cfg := rfl
@[simp] theorem State.advance_st (s : State) : s.advance.st = s.st := rfl
@[simp] theorem State.advance_m (s : State) : s.advance.m = s.m := rfl
@[simp] theorem State.advance_w (s : State) : s.advance.w = s.w := rfl
@[simp] theorem State.advance_next (s : State) : s.advance.next = s.next := rfl
@[simp] theorem State.advance_prev (s : State) : s.advance.prev = s.prev := rfl
@[simp] theorem State.advance_prevv (s : State) : s.advance.prevv = s.prevv := rfl
@[simp] theorem State.advance_bitbuf (s : State) : s.advance.bitbuf = s.bitbuf := rfl
@[simp] theorem State.advance_nbits (s : State) : s.advance.nbits = s.nbits := rfl
@[simp] theorem State.advance_blkrem (s : State) : s.advance.blkrem = s.blkrem := rfl
@[simp] theorem State.advance_closed (s : State) : s.advance.closed = s.closed := rfl
@[simp] theorem State.advance_olen (s : State) : s.advance.olen = s.olen := rfl
@[simp] theorem State.advance_ocnt (s : State) : s.advance.ocnt = s.ocnt := rfl
@[simp] theorem State.advance_ipos (s : State) : s.advance.ipos = s.ipos + 1 := rfl
@[simp] theorem State.advance_endseen (s : State) : s.advance.endseen = s.endseen := rfl
@[simp] theorem State.advance_ovf (s : State) : s.advance.ovf = s.ovf := rfl
@[simp] theorem State.advance_trunc (s : State) : s.advance.trunc = s.trunc := rfl
@[simp] theorem State.advance_mode (s : State) : s.advance.mode = s.mode := rfl
@[simp] theorem State.advance_cause (s : State) : s.advance.cause = s.cause := rfl
@[simp] theorem State.advance_ecode (s : State) : s.advance.ecode = s.ecode := rfl
@[simp] theorem State.advance_ewidth (s : State) : s.advance.ewidth = s.ewidth := rfl
@[simp] theorem State.advance_enext (s : State) : s.advance.enext = s.enext := rfl
@[simp] theorem State.advance_dict (s : State) : s.advance.dict = s.dict := rfl
@[simp] theorem State.advance_stack (s : State) : s.advance.stack = s.stack := rfl
@[simp] theorem State.advance_inp (s : State) : s.advance.inp = s.inp := rfl
@[simp] theorem State.advance_out (s : State) : s.advance.out = s.out := rfl
@[simp] theorem State.advance_outBase (s : State) : s.advance.outBase = s.outBase := rfl
@[simp] theorem State.advance_outLen (s : State) : s.advance.outLen = s.outLen := rfl
@[simp] theorem State.advance_host (s : State) : s.advance.host = s.host := rfl
@[simp] theorem State.advance_rdata (s : State) : s.advance.rdata = s.rdata := rfl
@[simp] theorem State.advance_freeCtr (s : State) : s.advance.freeCtr = s.freeCtr := rfl

/-! ### `takeLen` -/

@[simp] theorem State.takeLen_cfg (b : Byte) (s : State) : (s.takeLen b).cfg = s.cfg := rfl
@[simp] theorem State.takeLen_st (b : Byte) (s : State) : (s.takeLen b).st = s.st := rfl
@[simp] theorem State.takeLen_m (b : Byte) (s : State) : (s.takeLen b).m = s.m := rfl
@[simp] theorem State.takeLen_w (b : Byte) (s : State) : (s.takeLen b).w = s.w := rfl
@[simp] theorem State.takeLen_next (b : Byte) (s : State) : (s.takeLen b).next = s.next := rfl
@[simp] theorem State.takeLen_prev (b : Byte) (s : State) : (s.takeLen b).prev = s.prev := rfl
@[simp] theorem State.takeLen_prevv (b : Byte) (s : State) : (s.takeLen b).prevv = s.prevv := rfl
@[simp] theorem State.takeLen_bitbuf (b : Byte) (s : State) : (s.takeLen b).bitbuf = s.bitbuf := rfl
@[simp] theorem State.takeLen_nbits (b : Byte) (s : State) : (s.takeLen b).nbits = s.nbits := rfl
@[simp] theorem State.takeLen_blkrem (b : Byte) (s : State) : (s.takeLen b).blkrem = b := rfl
@[simp] theorem State.takeLen_closed (b : Byte) (s : State) : (s.takeLen b).closed = s.closed := rfl
@[simp] theorem State.takeLen_olen (b : Byte) (s : State) : (s.takeLen b).olen = s.olen := rfl
@[simp] theorem State.takeLen_ocnt (b : Byte) (s : State) : (s.takeLen b).ocnt = s.ocnt := rfl
@[simp] theorem State.takeLen_ipos (b : Byte) (s : State) : (s.takeLen b).ipos = s.ipos + 1 := rfl
@[simp] theorem State.takeLen_endseen (b : Byte) (s : State) : (s.takeLen b).endseen = s.endseen := rfl
@[simp] theorem State.takeLen_ovf (b : Byte) (s : State) : (s.takeLen b).ovf = s.ovf := rfl
@[simp] theorem State.takeLen_trunc (b : Byte) (s : State) : (s.takeLen b).trunc = s.trunc := rfl
@[simp] theorem State.takeLen_mode (b : Byte) (s : State) : (s.takeLen b).mode = s.mode := rfl
@[simp] theorem State.takeLen_cause (b : Byte) (s : State) : (s.takeLen b).cause = s.cause := rfl
@[simp] theorem State.takeLen_ecode (b : Byte) (s : State) : (s.takeLen b).ecode = s.ecode := rfl
@[simp] theorem State.takeLen_ewidth (b : Byte) (s : State) : (s.takeLen b).ewidth = s.ewidth := rfl
@[simp] theorem State.takeLen_enext (b : Byte) (s : State) : (s.takeLen b).enext = s.enext := rfl
@[simp] theorem State.takeLen_dict (b : Byte) (s : State) : (s.takeLen b).dict = s.dict := rfl
@[simp] theorem State.takeLen_stack (b : Byte) (s : State) : (s.takeLen b).stack = s.stack := rfl
@[simp] theorem State.takeLen_inp (b : Byte) (s : State) : (s.takeLen b).inp = s.inp := rfl
@[simp] theorem State.takeLen_out (b : Byte) (s : State) : (s.takeLen b).out = s.out := rfl
@[simp] theorem State.takeLen_outBase (b : Byte) (s : State) : (s.takeLen b).outBase = s.outBase := rfl
@[simp] theorem State.takeLen_outLen (b : Byte) (s : State) : (s.takeLen b).outLen = s.outLen := rfl
@[simp] theorem State.takeLen_host (b : Byte) (s : State) : (s.takeLen b).host = s.host := rfl
@[simp] theorem State.takeLen_rdata (b : Byte) (s : State) : (s.takeLen b).rdata = s.rdata := rfl
@[simp] theorem State.takeLen_freeCtr (b : Byte) (s : State) : (s.takeLen b).freeCtr = s.freeCtr := rfl

/-! ### `takeTerm` -/

@[simp] theorem State.takeTerm_cfg (s : State) : s.takeTerm.cfg = s.cfg := rfl
@[simp] theorem State.takeTerm_st (s : State) : s.takeTerm.st = s.st := rfl
@[simp] theorem State.takeTerm_m (s : State) : s.takeTerm.m = s.m := rfl
@[simp] theorem State.takeTerm_w (s : State) : s.takeTerm.w = s.w := rfl
@[simp] theorem State.takeTerm_next (s : State) : s.takeTerm.next = s.next := rfl
@[simp] theorem State.takeTerm_prev (s : State) : s.takeTerm.prev = s.prev := rfl
@[simp] theorem State.takeTerm_prevv (s : State) : s.takeTerm.prevv = s.prevv := rfl
@[simp] theorem State.takeTerm_bitbuf (s : State) : s.takeTerm.bitbuf = s.bitbuf := rfl
@[simp] theorem State.takeTerm_nbits (s : State) : s.takeTerm.nbits = s.nbits := rfl
@[simp] theorem State.takeTerm_blkrem (s : State) : s.takeTerm.blkrem = s.blkrem := rfl
@[simp] theorem State.takeTerm_closed (s : State) : s.takeTerm.closed = true := rfl
@[simp] theorem State.takeTerm_olen (s : State) : s.takeTerm.olen = s.olen := rfl
@[simp] theorem State.takeTerm_ocnt (s : State) : s.takeTerm.ocnt = s.ocnt := rfl
@[simp] theorem State.takeTerm_ipos (s : State) : s.takeTerm.ipos = s.ipos + 1 := rfl
@[simp] theorem State.takeTerm_endseen (s : State) : s.takeTerm.endseen = s.endseen := rfl
@[simp] theorem State.takeTerm_ovf (s : State) : s.takeTerm.ovf = s.ovf := rfl
@[simp] theorem State.takeTerm_trunc (s : State) : s.takeTerm.trunc = s.trunc := rfl
@[simp] theorem State.takeTerm_mode (s : State) : s.takeTerm.mode = s.mode := rfl
@[simp] theorem State.takeTerm_cause (s : State) : s.takeTerm.cause = s.cause := rfl
@[simp] theorem State.takeTerm_ecode (s : State) : s.takeTerm.ecode = s.ecode := rfl
@[simp] theorem State.takeTerm_ewidth (s : State) : s.takeTerm.ewidth = s.ewidth := rfl
@[simp] theorem State.takeTerm_enext (s : State) : s.takeTerm.enext = s.enext := rfl
@[simp] theorem State.takeTerm_dict (s : State) : s.takeTerm.dict = s.dict := rfl
@[simp] theorem State.takeTerm_stack (s : State) : s.takeTerm.stack = s.stack := rfl
@[simp] theorem State.takeTerm_inp (s : State) : s.takeTerm.inp = s.inp := rfl
@[simp] theorem State.takeTerm_out (s : State) : s.takeTerm.out = s.out := rfl
@[simp] theorem State.takeTerm_outBase (s : State) : s.takeTerm.outBase = s.outBase := rfl
@[simp] theorem State.takeTerm_outLen (s : State) : s.takeTerm.outLen = s.outLen := rfl
@[simp] theorem State.takeTerm_host (s : State) : s.takeTerm.host = s.host := rfl
@[simp] theorem State.takeTerm_rdata (s : State) : s.takeTerm.rdata = s.rdata := rfl
@[simp] theorem State.takeTerm_freeCtr (s : State) : s.takeTerm.freeCtr = s.freeCtr := rfl

/-! ### `takeData` -/

@[simp] theorem State.takeData_cfg (s : State) : s.takeData.cfg = s.cfg := rfl
@[simp] theorem State.takeData_st (s : State) : s.takeData.st = s.st := rfl
@[simp] theorem State.takeData_m (s : State) : s.takeData.m = s.m := rfl
@[simp] theorem State.takeData_w (s : State) : s.takeData.w = s.w := rfl
@[simp] theorem State.takeData_next (s : State) : s.takeData.next = s.next := rfl
@[simp] theorem State.takeData_prev (s : State) : s.takeData.prev = s.prev := rfl
@[simp] theorem State.takeData_prevv (s : State) : s.takeData.prevv = s.prevv := rfl
@[simp] theorem State.takeData_bitbuf (s : State) : s.takeData.bitbuf = s.bitbuf := rfl
@[simp] theorem State.takeData_nbits (s : State) : s.takeData.nbits = s.nbits := rfl
@[simp] theorem State.takeData_blkrem (s : State) : s.takeData.blkrem = s.blkrem - 1 := rfl
@[simp] theorem State.takeData_closed (s : State) : s.takeData.closed = s.closed := rfl
@[simp] theorem State.takeData_olen (s : State) : s.takeData.olen = s.olen := rfl
@[simp] theorem State.takeData_ocnt (s : State) : s.takeData.ocnt = s.ocnt := rfl
@[simp] theorem State.takeData_ipos (s : State) : s.takeData.ipos = s.ipos + 1 := rfl
@[simp] theorem State.takeData_endseen (s : State) : s.takeData.endseen = s.endseen := rfl
@[simp] theorem State.takeData_ovf (s : State) : s.takeData.ovf = s.ovf := rfl
@[simp] theorem State.takeData_trunc (s : State) : s.takeData.trunc = s.trunc := rfl
@[simp] theorem State.takeData_mode (s : State) : s.takeData.mode = s.mode := rfl
@[simp] theorem State.takeData_cause (s : State) : s.takeData.cause = s.cause := rfl
@[simp] theorem State.takeData_ecode (s : State) : s.takeData.ecode = s.ecode := rfl
@[simp] theorem State.takeData_ewidth (s : State) : s.takeData.ewidth = s.ewidth := rfl
@[simp] theorem State.takeData_enext (s : State) : s.takeData.enext = s.enext := rfl
@[simp] theorem State.takeData_dict (s : State) : s.takeData.dict = s.dict := rfl
@[simp] theorem State.takeData_stack (s : State) : s.takeData.stack = s.stack := rfl
@[simp] theorem State.takeData_inp (s : State) : s.takeData.inp = s.inp := rfl
@[simp] theorem State.takeData_out (s : State) : s.takeData.out = s.out := rfl
@[simp] theorem State.takeData_outBase (s : State) : s.takeData.outBase = s.outBase := rfl
@[simp] theorem State.takeData_outLen (s : State) : s.takeData.outLen = s.outLen := rfl
@[simp] theorem State.takeData_host (s : State) : s.takeData.host = s.host := rfl
@[simp] theorem State.takeData_rdata (s : State) : s.takeData.rdata = s.rdata := rfl
@[simp] theorem State.takeData_freeCtr (s : State) : s.takeData.freeCtr = s.freeCtr := rfl

/-! ### `gather` -/

@[simp] theorem State.gather_cfg (b : Byte) (s : State) : (s.gather b).cfg = s.cfg := rfl
@[simp] theorem State.gather_st (b : Byte) (s : State) : (s.gather b).st = s.st := rfl
@[simp] theorem State.gather_m (b : Byte) (s : State) : (s.gather b).m = s.m := rfl
@[simp] theorem State.gather_w (b : Byte) (s : State) : (s.gather b).w = s.w := rfl
@[simp] theorem State.gather_next (b : Byte) (s : State) : (s.gather b).next = s.next := rfl
@[simp] theorem State.gather_prev (b : Byte) (s : State) : (s.gather b).prev = s.prev := rfl
@[simp] theorem State.gather_prevv (b : Byte) (s : State) : (s.gather b).prevv = s.prevv := rfl
@[simp] theorem State.gather_bitbuf (b : Byte) (s : State) : (s.gather b).bitbuf = s.bitbuf ||| (b.setWidth 19 <<< s.nbits.toNat) := rfl
@[simp] theorem State.gather_nbits (b : Byte) (s : State) : (s.gather b).nbits = s.nbits + 8 := rfl
@[simp] theorem State.gather_blkrem (b : Byte) (s : State) : (s.gather b).blkrem = s.blkrem := rfl
@[simp] theorem State.gather_closed (b : Byte) (s : State) : (s.gather b).closed = s.closed := rfl
@[simp] theorem State.gather_olen (b : Byte) (s : State) : (s.gather b).olen = s.olen := rfl
@[simp] theorem State.gather_ocnt (b : Byte) (s : State) : (s.gather b).ocnt = s.ocnt := rfl
@[simp] theorem State.gather_ipos (b : Byte) (s : State) : (s.gather b).ipos = s.ipos := rfl
@[simp] theorem State.gather_endseen (b : Byte) (s : State) : (s.gather b).endseen = s.endseen := rfl
@[simp] theorem State.gather_ovf (b : Byte) (s : State) : (s.gather b).ovf = s.ovf := rfl
@[simp] theorem State.gather_trunc (b : Byte) (s : State) : (s.gather b).trunc = s.trunc := rfl
@[simp] theorem State.gather_mode (b : Byte) (s : State) : (s.gather b).mode = s.mode := rfl
@[simp] theorem State.gather_cause (b : Byte) (s : State) : (s.gather b).cause = s.cause := rfl
@[simp] theorem State.gather_ecode (b : Byte) (s : State) : (s.gather b).ecode = s.ecode := rfl
@[simp] theorem State.gather_ewidth (b : Byte) (s : State) : (s.gather b).ewidth = s.ewidth := rfl
@[simp] theorem State.gather_enext (b : Byte) (s : State) : (s.gather b).enext = s.enext := rfl
@[simp] theorem State.gather_dict (b : Byte) (s : State) : (s.gather b).dict = s.dict := rfl
@[simp] theorem State.gather_stack (b : Byte) (s : State) : (s.gather b).stack = s.stack := rfl
@[simp] theorem State.gather_inp (b : Byte) (s : State) : (s.gather b).inp = s.inp := rfl
@[simp] theorem State.gather_out (b : Byte) (s : State) : (s.gather b).out = s.out := rfl
@[simp] theorem State.gather_outBase (b : Byte) (s : State) : (s.gather b).outBase = s.outBase := rfl
@[simp] theorem State.gather_outLen (b : Byte) (s : State) : (s.gather b).outLen = s.outLen := rfl
@[simp] theorem State.gather_host (b : Byte) (s : State) : (s.gather b).host = s.host := rfl
@[simp] theorem State.gather_rdata (b : Byte) (s : State) : (s.gather b).rdata = s.rdata := rfl
@[simp] theorem State.gather_freeCtr (b : Byte) (s : State) : (s.gather b).freeCtr = s.freeCtr := rfl

/-! ### `setPrev` -/

@[simp] theorem State.setPrev_cfg (c : Code) (s : State) : (s.setPrev c).cfg = s.cfg := rfl
@[simp] theorem State.setPrev_st (c : Code) (s : State) : (s.setPrev c).st = s.st := rfl
@[simp] theorem State.setPrev_m (c : Code) (s : State) : (s.setPrev c).m = s.m := rfl
@[simp] theorem State.setPrev_w (c : Code) (s : State) : (s.setPrev c).w = s.w := rfl
@[simp] theorem State.setPrev_next (c : Code) (s : State) : (s.setPrev c).next = s.next := rfl
@[simp] theorem State.setPrev_prev (c : Code) (s : State) : (s.setPrev c).prev = c := rfl
@[simp] theorem State.setPrev_prevv (c : Code) (s : State) : (s.setPrev c).prevv = true := rfl
@[simp] theorem State.setPrev_bitbuf (c : Code) (s : State) : (s.setPrev c).bitbuf = s.bitbuf := rfl
@[simp] theorem State.setPrev_nbits (c : Code) (s : State) : (s.setPrev c).nbits = s.nbits := rfl
@[simp] theorem State.setPrev_blkrem (c : Code) (s : State) : (s.setPrev c).blkrem = s.blkrem := rfl
@[simp] theorem State.setPrev_closed (c : Code) (s : State) : (s.setPrev c).closed = s.closed := rfl
@[simp] theorem State.setPrev_olen (c : Code) (s : State) : (s.setPrev c).olen = s.olen := rfl
@[simp] theorem State.setPrev_ocnt (c : Code) (s : State) : (s.setPrev c).ocnt = s.ocnt := rfl
@[simp] theorem State.setPrev_ipos (c : Code) (s : State) : (s.setPrev c).ipos = s.ipos := rfl
@[simp] theorem State.setPrev_endseen (c : Code) (s : State) : (s.setPrev c).endseen = s.endseen := rfl
@[simp] theorem State.setPrev_ovf (c : Code) (s : State) : (s.setPrev c).ovf = s.ovf := rfl
@[simp] theorem State.setPrev_trunc (c : Code) (s : State) : (s.setPrev c).trunc = s.trunc := rfl
@[simp] theorem State.setPrev_mode (c : Code) (s : State) : (s.setPrev c).mode = s.mode := rfl
@[simp] theorem State.setPrev_cause (c : Code) (s : State) : (s.setPrev c).cause = s.cause := rfl
@[simp] theorem State.setPrev_ecode (c : Code) (s : State) : (s.setPrev c).ecode = s.ecode := rfl
@[simp] theorem State.setPrev_ewidth (c : Code) (s : State) : (s.setPrev c).ewidth = s.ewidth := rfl
@[simp] theorem State.setPrev_enext (c : Code) (s : State) : (s.setPrev c).enext = s.enext := rfl
@[simp] theorem State.setPrev_dict (c : Code) (s : State) : (s.setPrev c).dict = s.dict := rfl
@[simp] theorem State.setPrev_stack (c : Code) (s : State) : (s.setPrev c).stack = s.stack := rfl
@[simp] theorem State.setPrev_inp (c : Code) (s : State) : (s.setPrev c).inp = s.inp := rfl
@[simp] theorem State.setPrev_out (c : Code) (s : State) : (s.setPrev c).out = s.out := rfl
@[simp] theorem State.setPrev_outBase (c : Code) (s : State) : (s.setPrev c).outBase = s.outBase := rfl
@[simp] theorem State.setPrev_outLen (c : Code) (s : State) : (s.setPrev c).outLen = s.outLen := rfl
@[simp] theorem State.setPrev_host (c : Code) (s : State) : (s.setPrev c).host = s.host := rfl
@[simp] theorem State.setPrev_rdata (c : Code) (s : State) : (s.setPrev c).rdata = s.rdata := rfl
@[simp] theorem State.setPrev_freeCtr (c : Code) (s : State) : (s.setPrev c).freeCtr = s.freeCtr := rfl

/-! ### `clearContext` -/

@[simp] theorem State.clearContext_cfg (s : State) : s.clearContext.cfg = s.cfg := rfl
@[simp] theorem State.clearContext_st (s : State) : s.clearContext.st = s.st := rfl
@[simp] theorem State.clearContext_m (s : State) : s.clearContext.m = s.m := rfl
@[simp] theorem State.clearContext_w (s : State) : s.clearContext.w = s.m + 1 := rfl
@[simp] theorem State.clearContext_next (s : State) : s.clearContext.next = BitVec.ofNat 13 s.first := rfl
@[simp] theorem State.clearContext_prev (s : State) : s.clearContext.prev = 0 := rfl
@[simp] theorem State.clearContext_prevv (s : State) : s.clearContext.prevv = false := rfl
@[simp] theorem State.clearContext_bitbuf (s : State) : s.clearContext.bitbuf = s.bitbuf := rfl
@[simp] theorem State.clearContext_nbits (s : State) : s.clearContext.nbits = s.nbits := rfl
@[simp] theorem State.clearContext_blkrem (s : State) : s.clearContext.blkrem = s.blkrem := rfl
@[simp] theorem State.clearContext_closed (s : State) : s.clearContext.closed = s.closed := rfl
@[simp] theorem State.clearContext_olen (s : State) : s.clearContext.olen = s.olen := rfl
@[simp] theorem State.clearContext_ocnt (s : State) : s.clearContext.ocnt = s.ocnt := rfl
@[simp] theorem State.clearContext_ipos (s : State) : s.clearContext.ipos = s.ipos := rfl
@[simp] theorem State.clearContext_endseen (s : State) : s.clearContext.endseen = s.endseen := rfl
@[simp] theorem State.clearContext_ovf (s : State) : s.clearContext.ovf = s.ovf := rfl
@[simp] theorem State.clearContext_trunc (s : State) : s.clearContext.trunc = s.trunc := rfl
@[simp] theorem State.clearContext_mode (s : State) : s.clearContext.mode = s.mode := rfl
@[simp] theorem State.clearContext_cause (s : State) : s.clearContext.cause = s.cause := rfl
@[simp] theorem State.clearContext_ecode (s : State) : s.clearContext.ecode = s.ecode := rfl
@[simp] theorem State.clearContext_ewidth (s : State) : s.clearContext.ewidth = s.ewidth := rfl
@[simp] theorem State.clearContext_enext (s : State) : s.clearContext.enext = s.enext := rfl
@[simp] theorem State.clearContext_dict (s : State) : s.clearContext.dict = s.dict := rfl
@[simp] theorem State.clearContext_stack (s : State) : s.clearContext.stack = s.stack := rfl
@[simp] theorem State.clearContext_inp (s : State) : s.clearContext.inp = s.inp := rfl
@[simp] theorem State.clearContext_out (s : State) : s.clearContext.out = s.out := rfl
@[simp] theorem State.clearContext_outBase (s : State) : s.clearContext.outBase = s.outBase := rfl
@[simp] theorem State.clearContext_outLen (s : State) : s.clearContext.outLen = s.outLen := rfl
@[simp] theorem State.clearContext_host (s : State) : s.clearContext.host = s.host := rfl
@[simp] theorem State.clearContext_rdata (s : State) : s.clearContext.rdata = s.rdata := rfl
@[simp] theorem State.clearContext_freeCtr (s : State) : s.clearContext.freeCtr = s.freeCtr := rfl

/-! ### `endDecode` -/

@[simp] theorem State.endDecode_cfg (s : State) : s.endDecode.cfg = s.cfg := rfl
@[simp] theorem State.endDecode_st (s : State) : s.endDecode.st = .drain := rfl
@[simp] theorem State.endDecode_m (s : State) : s.endDecode.m = s.m := rfl
@[simp] theorem State.endDecode_w (s : State) : s.endDecode.w = s.w := rfl
@[simp] theorem State.endDecode_next (s : State) : s.endDecode.next = s.next := rfl
@[simp] theorem State.endDecode_prev (s : State) : s.endDecode.prev = s.prev := rfl
@[simp] theorem State.endDecode_prevv (s : State) : s.endDecode.prevv = s.prevv := rfl
@[simp] theorem State.endDecode_bitbuf (s : State) : s.endDecode.bitbuf = 0 := rfl
@[simp] theorem State.endDecode_nbits (s : State) : s.endDecode.nbits = 0 := rfl
@[simp] theorem State.endDecode_blkrem (s : State) : s.endDecode.blkrem = s.blkrem := rfl
@[simp] theorem State.endDecode_closed (s : State) : s.endDecode.closed = s.closed := rfl
@[simp] theorem State.endDecode_olen (s : State) : s.endDecode.olen = s.olen := rfl
@[simp] theorem State.endDecode_ocnt (s : State) : s.endDecode.ocnt = s.ocnt := rfl
@[simp] theorem State.endDecode_ipos (s : State) : s.endDecode.ipos = s.ipos := rfl
@[simp] theorem State.endDecode_endseen (s : State) : s.endDecode.endseen = true := rfl
@[simp] theorem State.endDecode_ovf (s : State) : s.endDecode.ovf = s.ovf := rfl
@[simp] theorem State.endDecode_trunc (s : State) : s.endDecode.trunc = s.trunc := rfl
@[simp] theorem State.endDecode_mode (s : State) : s.endDecode.mode = s.mode := rfl
@[simp] theorem State.endDecode_cause (s : State) : s.endDecode.cause = s.cause := rfl
@[simp] theorem State.endDecode_ecode (s : State) : s.endDecode.ecode = s.ecode := rfl
@[simp] theorem State.endDecode_ewidth (s : State) : s.endDecode.ewidth = s.ewidth := rfl
@[simp] theorem State.endDecode_enext (s : State) : s.endDecode.enext = s.enext := rfl
@[simp] theorem State.endDecode_dict (s : State) : s.endDecode.dict = s.dict := rfl
@[simp] theorem State.endDecode_stack (s : State) : s.endDecode.stack = s.stack := rfl
@[simp] theorem State.endDecode_inp (s : State) : s.endDecode.inp = s.inp := rfl
@[simp] theorem State.endDecode_out (s : State) : s.endDecode.out = s.out := rfl
@[simp] theorem State.endDecode_outBase (s : State) : s.endDecode.outBase = s.outBase := rfl
@[simp] theorem State.endDecode_outLen (s : State) : s.endDecode.outLen = s.outLen := rfl
@[simp] theorem State.endDecode_host (s : State) : s.endDecode.host = s.host := rfl
@[simp] theorem State.endDecode_rdata (s : State) : s.endDecode.rdata = s.rdata := rfl
@[simp] theorem State.endDecode_freeCtr (s : State) : s.endDecode.freeCtr = s.freeCtr := rfl

/-! ### `corrupt` -/

@[simp] theorem State.corrupt_cfg (c : Code) (s : State) : (s.corrupt c).cfg = s.cfg := rfl
@[simp] theorem State.corrupt_st (c : Code) (s : State) : (s.corrupt c).st = .done := rfl
@[simp] theorem State.corrupt_m (c : Code) (s : State) : (s.corrupt c).m = s.m := rfl
@[simp] theorem State.corrupt_w (c : Code) (s : State) : (s.corrupt c).w = s.w := rfl
@[simp] theorem State.corrupt_next (c : Code) (s : State) : (s.corrupt c).next = s.next := rfl
@[simp] theorem State.corrupt_prev (c : Code) (s : State) : (s.corrupt c).prev = s.prev := rfl
@[simp] theorem State.corrupt_prevv (c : Code) (s : State) : (s.corrupt c).prevv = s.prevv := rfl
@[simp] theorem State.corrupt_bitbuf (c : Code) (s : State) : (s.corrupt c).bitbuf = 0 := rfl
@[simp] theorem State.corrupt_nbits (c : Code) (s : State) : (s.corrupt c).nbits = 0 := rfl
@[simp] theorem State.corrupt_blkrem (c : Code) (s : State) : (s.corrupt c).blkrem = s.blkrem := rfl
@[simp] theorem State.corrupt_closed (c : Code) (s : State) : (s.corrupt c).closed = s.closed := rfl
@[simp] theorem State.corrupt_olen (c : Code) (s : State) : (s.corrupt c).olen = s.olen := rfl
@[simp] theorem State.corrupt_ocnt (c : Code) (s : State) : (s.corrupt c).ocnt = s.ocnt := rfl
@[simp] theorem State.corrupt_ipos (c : Code) (s : State) : (s.corrupt c).ipos = s.ipos := rfl
@[simp] theorem State.corrupt_endseen (c : Code) (s : State) : (s.corrupt c).endseen = s.endseen := rfl
@[simp] theorem State.corrupt_ovf (c : Code) (s : State) : (s.corrupt c).ovf = s.ovf := rfl
@[simp] theorem State.corrupt_trunc (c : Code) (s : State) : (s.corrupt c).trunc = true := rfl
@[simp] theorem State.corrupt_mode (c : Code) (s : State) : (s.corrupt c).mode = s.mode := rfl
@[simp] theorem State.corrupt_cause (c : Code) (s : State) : (s.corrupt c).cause = .corrupt := rfl
@[simp] theorem State.corrupt_ecode (c : Code) (s : State) : (s.corrupt c).ecode = c := rfl
@[simp] theorem State.corrupt_ewidth (c : Code) (s : State) : (s.corrupt c).ewidth = s.w := rfl
@[simp] theorem State.corrupt_enext (c : Code) (s : State) : (s.corrupt c).enext = s.next := rfl
@[simp] theorem State.corrupt_dict (c : Code) (s : State) : (s.corrupt c).dict = s.dict := rfl
@[simp] theorem State.corrupt_stack (c : Code) (s : State) : (s.corrupt c).stack = s.stack := rfl
@[simp] theorem State.corrupt_inp (c : Code) (s : State) : (s.corrupt c).inp = s.inp := rfl
@[simp] theorem State.corrupt_out (c : Code) (s : State) : (s.corrupt c).out = s.out := rfl
@[simp] theorem State.corrupt_outBase (c : Code) (s : State) : (s.corrupt c).outBase = s.outBase := rfl
@[simp] theorem State.corrupt_outLen (c : Code) (s : State) : (s.corrupt c).outLen = s.outLen := rfl
@[simp] theorem State.corrupt_host (c : Code) (s : State) : (s.corrupt c).host = s.host := rfl
@[simp] theorem State.corrupt_rdata (c : Code) (s : State) : (s.corrupt c).rdata = s.rdata := rfl
@[simp] theorem State.corrupt_freeCtr (c : Code) (s : State) : (s.corrupt c).freeCtr = s.freeCtr := rfl

/-! ### `beginCommand` -/

@[simp] theorem State.beginCommand_cfg (k : Bool) (s : State) : (s.beginCommand k).cfg = s.cfg := rfl
@[simp] theorem State.beginCommand_st (k : Bool) (s : State) : (s.beginCommand k).st = s.st := rfl
@[simp] theorem State.beginCommand_m (k : Bool) (s : State) : (s.beginCommand k).m = s.m := rfl
@[simp] theorem State.beginCommand_w (k : Bool) (s : State) : (s.beginCommand k).w = s.w := rfl
@[simp] theorem State.beginCommand_next (k : Bool) (s : State) : (s.beginCommand k).next = s.next := rfl
@[simp] theorem State.beginCommand_prev (k : Bool) (s : State) : (s.beginCommand k).prev = s.prev := rfl
@[simp] theorem State.beginCommand_prevv (k : Bool) (s : State) : (s.beginCommand k).prevv = s.prevv := rfl
@[simp] theorem State.beginCommand_bitbuf (k : Bool) (s : State) : (s.beginCommand k).bitbuf = 0 := rfl
@[simp] theorem State.beginCommand_nbits (k : Bool) (s : State) : (s.beginCommand k).nbits = 0 := rfl
@[simp] theorem State.beginCommand_blkrem (k : Bool) (s : State) : (s.beginCommand k).blkrem = 0 := rfl
@[simp] theorem State.beginCommand_closed (k : Bool) (s : State) : (s.beginCommand k).closed = false := rfl
@[simp] theorem State.beginCommand_olen (k : Bool) (s : State) : (s.beginCommand k).olen = s.olen := rfl
@[simp] theorem State.beginCommand_ocnt (k : Bool) (s : State) : (s.beginCommand k).ocnt = s.ocnt := rfl
@[simp] theorem State.beginCommand_ipos (k : Bool) (s : State) : (s.beginCommand k).ipos = 0 := rfl
@[simp] theorem State.beginCommand_endseen (k : Bool) (s : State) : (s.beginCommand k).endseen = false := rfl
@[simp] theorem State.beginCommand_ovf (k : Bool) (s : State) : (s.beginCommand k).ovf = false := rfl
@[simp] theorem State.beginCommand_trunc (k : Bool) (s : State) : (s.beginCommand k).trunc = false := rfl
@[simp] theorem State.beginCommand_mode (k : Bool) (s : State) : (s.beginCommand k).mode = k := rfl
@[simp] theorem State.beginCommand_cause (k : Bool) (s : State) : (s.beginCommand k).cause = .none := rfl
@[simp] theorem State.beginCommand_ecode (k : Bool) (s : State) : (s.beginCommand k).ecode = 0 := rfl
@[simp] theorem State.beginCommand_ewidth (k : Bool) (s : State) : (s.beginCommand k).ewidth = 0 := rfl
@[simp] theorem State.beginCommand_enext (k : Bool) (s : State) : (s.beginCommand k).enext = 0 := rfl
@[simp] theorem State.beginCommand_dict (k : Bool) (s : State) : (s.beginCommand k).dict = s.dict := rfl
@[simp] theorem State.beginCommand_stack (k : Bool) (s : State) : (s.beginCommand k).stack = s.stack := rfl
@[simp] theorem State.beginCommand_inp (k : Bool) (s : State) : (s.beginCommand k).inp = s.inp := rfl
@[simp] theorem State.beginCommand_out (k : Bool) (s : State) : (s.beginCommand k).out = s.out := rfl
@[simp] theorem State.beginCommand_outBase (k : Bool) (s : State) : (s.beginCommand k).outBase = s.outBase := rfl
@[simp] theorem State.beginCommand_outLen (k : Bool) (s : State) : (s.beginCommand k).outLen = s.outLen := rfl
@[simp] theorem State.beginCommand_host (k : Bool) (s : State) : (s.beginCommand k).host = s.host := rfl
@[simp] theorem State.beginCommand_rdata (k : Bool) (s : State) : (s.beginCommand k).rdata = s.rdata := rfl
@[simp] theorem State.beginCommand_freeCtr (k : Bool) (s : State) : (s.beginCommand k).freeCtr = s.freeCtr := rfl

/-! ### `startDecode` -/

@[simp] theorem State.startDecode_cfg (s : State) : s.startDecode.cfg = s.cfg := rfl
@[simp] theorem State.startDecode_st (s : State) : s.startDecode.st = .decode := rfl
@[simp] theorem State.startDecode_m (s : State) : s.startDecode.m = s.m := rfl
@[simp] theorem State.startDecode_w (s : State) : s.startDecode.w = s.m + 1 := rfl
@[simp] theorem State.startDecode_next (s : State) : s.startDecode.next = BitVec.ofNat 13 s.first := rfl
@[simp] theorem State.startDecode_prev (s : State) : s.startDecode.prev = 0 := rfl
@[simp] theorem State.startDecode_prevv (s : State) : s.startDecode.prevv = false := rfl
@[simp] theorem State.startDecode_bitbuf (s : State) : s.startDecode.bitbuf = 0 := rfl
@[simp] theorem State.startDecode_nbits (s : State) : s.startDecode.nbits = 0 := rfl
@[simp] theorem State.startDecode_blkrem (s : State) : s.startDecode.blkrem = 0 := rfl
@[simp] theorem State.startDecode_closed (s : State) : s.startDecode.closed = false := rfl
@[simp] theorem State.startDecode_olen (s : State) : s.startDecode.olen = s.olen := rfl
@[simp] theorem State.startDecode_ocnt (s : State) : s.startDecode.ocnt = 0 := rfl
@[simp] theorem State.startDecode_ipos (s : State) : s.startDecode.ipos = 0 := rfl
@[simp] theorem State.startDecode_endseen (s : State) : s.startDecode.endseen = false := rfl
@[simp] theorem State.startDecode_ovf (s : State) : s.startDecode.ovf = false := rfl
@[simp] theorem State.startDecode_trunc (s : State) : s.startDecode.trunc = false := rfl
@[simp] theorem State.startDecode_mode (s : State) : s.startDecode.mode = false := rfl
@[simp] theorem State.startDecode_cause (s : State) : s.startDecode.cause = .none := rfl
@[simp] theorem State.startDecode_ecode (s : State) : s.startDecode.ecode = 0 := rfl
@[simp] theorem State.startDecode_ewidth (s : State) : s.startDecode.ewidth = 0 := rfl
@[simp] theorem State.startDecode_enext (s : State) : s.startDecode.enext = 0 := rfl
@[simp] theorem State.startDecode_dict (s : State) : s.startDecode.dict = s.dict := rfl
@[simp] theorem State.startDecode_stack (s : State) : s.startDecode.stack = s.stack := rfl
@[simp] theorem State.startDecode_inp (s : State) : s.startDecode.inp = s.inp := rfl
@[simp] theorem State.startDecode_out (s : State) : s.startDecode.out = s.out := rfl
@[simp] theorem State.startDecode_outBase (s : State) : s.startDecode.outBase = s.outBase := rfl
@[simp] theorem State.startDecode_outLen (s : State) : s.startDecode.outLen = s.outLen := rfl
@[simp] theorem State.startDecode_host (s : State) : s.startDecode.host = s.host := rfl
@[simp] theorem State.startDecode_rdata (s : State) : s.startDecode.rdata = s.rdata := rfl
@[simp] theorem State.startDecode_freeCtr (s : State) : s.startDecode.freeCtr = s.freeCtr := rfl

/-! ### `startIllegal` -/

@[simp] theorem State.startIllegal_cfg (s : State) : s.startIllegal.cfg = s.cfg := rfl
@[simp] theorem State.startIllegal_st (s : State) : s.startIllegal.st = .done := rfl
@[simp] theorem State.startIllegal_m (s : State) : s.startIllegal.m = s.m := rfl
@[simp] theorem State.startIllegal_w (s : State) : s.startIllegal.w = 0 := rfl
@[simp] theorem State.startIllegal_next (s : State) : s.startIllegal.next = 0 := rfl
@[simp] theorem State.startIllegal_prev (s : State) : s.startIllegal.prev = 0 := rfl
@[simp] theorem State.startIllegal_prevv (s : State) : s.startIllegal.prevv = false := rfl
@[simp] theorem State.startIllegal_bitbuf (s : State) : s.startIllegal.bitbuf = 0 := rfl
@[simp] theorem State.startIllegal_nbits (s : State) : s.startIllegal.nbits = 0 := rfl
@[simp] theorem State.startIllegal_blkrem (s : State) : s.startIllegal.blkrem = 0 := rfl
@[simp] theorem State.startIllegal_closed (s : State) : s.startIllegal.closed = false := rfl
@[simp] theorem State.startIllegal_olen (s : State) : s.startIllegal.olen = s.olen := rfl
@[simp] theorem State.startIllegal_ocnt (s : State) : s.startIllegal.ocnt = 0 := rfl
@[simp] theorem State.startIllegal_ipos (s : State) : s.startIllegal.ipos = 0 := rfl
@[simp] theorem State.startIllegal_endseen (s : State) : s.startIllegal.endseen = false := rfl
@[simp] theorem State.startIllegal_ovf (s : State) : s.startIllegal.ovf = false := rfl
@[simp] theorem State.startIllegal_trunc (s : State) : s.startIllegal.trunc = true := rfl
@[simp] theorem State.startIllegal_mode (s : State) : s.startIllegal.mode = false := rfl
@[simp] theorem State.startIllegal_cause (s : State) : s.startIllegal.cause = .badParam := rfl
@[simp] theorem State.startIllegal_ecode (s : State) : s.startIllegal.ecode = 0 := rfl
@[simp] theorem State.startIllegal_ewidth (s : State) : s.startIllegal.ewidth = 0 := rfl
@[simp] theorem State.startIllegal_enext (s : State) : s.startIllegal.enext = 0 := rfl
@[simp] theorem State.startIllegal_dict (s : State) : s.startIllegal.dict = s.dict := rfl
@[simp] theorem State.startIllegal_stack (s : State) : s.startIllegal.stack = s.stack := rfl
@[simp] theorem State.startIllegal_inp (s : State) : s.startIllegal.inp = s.inp := rfl
@[simp] theorem State.startIllegal_out (s : State) : s.startIllegal.out = s.out := rfl
@[simp] theorem State.startIllegal_outBase (s : State) : s.startIllegal.outBase = s.outBase := rfl
@[simp] theorem State.startIllegal_outLen (s : State) : s.startIllegal.outLen = s.outLen := rfl
@[simp] theorem State.startIllegal_host (s : State) : s.startIllegal.host = s.host := rfl
@[simp] theorem State.startIllegal_rdata (s : State) : s.startIllegal.rdata = s.rdata := rfl
@[simp] theorem State.startIllegal_freeCtr (s : State) : s.startIllegal.freeCtr = s.freeCtr := rfl

/-! ### `startDrain` -/

@[simp] theorem State.startDrain_cfg (s : State) : s.startDrain.cfg = s.cfg := rfl
@[simp] theorem State.startDrain_st (s : State) : s.startDrain.st = .drain := rfl
@[simp] theorem State.startDrain_m (s : State) : s.startDrain.m = s.m := rfl
@[simp] theorem State.startDrain_w (s : State) : s.startDrain.w = s.w := rfl
@[simp] theorem State.startDrain_next (s : State) : s.startDrain.next = s.next := rfl
@[simp] theorem State.startDrain_prev (s : State) : s.startDrain.prev = s.prev := rfl
@[simp] theorem State.startDrain_prevv (s : State) : s.startDrain.prevv = s.prevv := rfl
@[simp] theorem State.startDrain_bitbuf (s : State) : s.startDrain.bitbuf = 0 := rfl
@[simp] theorem State.startDrain_nbits (s : State) : s.startDrain.nbits = 0 := rfl
@[simp] theorem State.startDrain_blkrem (s : State) : s.startDrain.blkrem = 0 := rfl
@[simp] theorem State.startDrain_closed (s : State) : s.startDrain.closed = false := rfl
@[simp] theorem State.startDrain_olen (s : State) : s.startDrain.olen = s.olen := rfl
@[simp] theorem State.startDrain_ocnt (s : State) : s.startDrain.ocnt = s.ocnt := rfl
@[simp] theorem State.startDrain_ipos (s : State) : s.startDrain.ipos = 0 := rfl
@[simp] theorem State.startDrain_endseen (s : State) : s.startDrain.endseen = false := rfl
@[simp] theorem State.startDrain_ovf (s : State) : s.startDrain.ovf = false := rfl
@[simp] theorem State.startDrain_trunc (s : State) : s.startDrain.trunc = false := rfl
@[simp] theorem State.startDrain_mode (s : State) : s.startDrain.mode = true := rfl
@[simp] theorem State.startDrain_cause (s : State) : s.startDrain.cause = .none := rfl
@[simp] theorem State.startDrain_ecode (s : State) : s.startDrain.ecode = 0 := rfl
@[simp] theorem State.startDrain_ewidth (s : State) : s.startDrain.ewidth = 0 := rfl
@[simp] theorem State.startDrain_enext (s : State) : s.startDrain.enext = 0 := rfl
@[simp] theorem State.startDrain_dict (s : State) : s.startDrain.dict = s.dict := rfl
@[simp] theorem State.startDrain_stack (s : State) : s.startDrain.stack = s.stack := rfl
@[simp] theorem State.startDrain_inp (s : State) : s.startDrain.inp = s.inp := rfl
@[simp] theorem State.startDrain_out (s : State) : s.startDrain.out = s.out := rfl
@[simp] theorem State.startDrain_outBase (s : State) : s.startDrain.outBase = s.outBase := rfl
@[simp] theorem State.startDrain_outLen (s : State) : s.startDrain.outLen = s.outLen := rfl
@[simp] theorem State.startDrain_host (s : State) : s.startDrain.host = s.host := rfl
@[simp] theorem State.startDrain_rdata (s : State) : s.startDrain.rdata = s.rdata := rfl
@[simp] theorem State.startDrain_freeCtr (s : State) : s.startDrain.freeCtr = s.freeCtr := rfl

/-! ### `resetBlock` -/

@[simp] theorem State.resetBlock_cfg (s : State) : s.resetBlock.cfg = s.cfg := rfl
@[simp] theorem State.resetBlock_st (s : State) : s.resetBlock.st = .idle := rfl
@[simp] theorem State.resetBlock_m (s : State) : s.resetBlock.m = 0 := rfl
@[simp] theorem State.resetBlock_w (s : State) : s.resetBlock.w = 0 := rfl
@[simp] theorem State.resetBlock_next (s : State) : s.resetBlock.next = 0 := rfl
@[simp] theorem State.resetBlock_prev (s : State) : s.resetBlock.prev = 0 := rfl
@[simp] theorem State.resetBlock_prevv (s : State) : s.resetBlock.prevv = false := rfl
@[simp] theorem State.resetBlock_bitbuf (s : State) : s.resetBlock.bitbuf = 0 := rfl
@[simp] theorem State.resetBlock_nbits (s : State) : s.resetBlock.nbits = 0 := rfl
@[simp] theorem State.resetBlock_blkrem (s : State) : s.resetBlock.blkrem = 0 := rfl
@[simp] theorem State.resetBlock_closed (s : State) : s.resetBlock.closed = false := rfl
@[simp] theorem State.resetBlock_olen (s : State) : s.resetBlock.olen = 0 := rfl
@[simp] theorem State.resetBlock_ocnt (s : State) : s.resetBlock.ocnt = 0 := rfl
@[simp] theorem State.resetBlock_ipos (s : State) : s.resetBlock.ipos = 0 := rfl
@[simp] theorem State.resetBlock_endseen (s : State) : s.resetBlock.endseen = false := rfl
@[simp] theorem State.resetBlock_ovf (s : State) : s.resetBlock.ovf = false := rfl
@[simp] theorem State.resetBlock_trunc (s : State) : s.resetBlock.trunc = false := rfl
@[simp] theorem State.resetBlock_mode (s : State) : s.resetBlock.mode = false := rfl
@[simp] theorem State.resetBlock_cause (s : State) : s.resetBlock.cause = .none := rfl
@[simp] theorem State.resetBlock_ecode (s : State) : s.resetBlock.ecode = 0 := rfl
@[simp] theorem State.resetBlock_ewidth (s : State) : s.resetBlock.ewidth = 0 := rfl
@[simp] theorem State.resetBlock_enext (s : State) : s.resetBlock.enext = 0 := rfl
@[simp] theorem State.resetBlock_dict (s : State) : s.resetBlock.dict = s.dict := rfl
@[simp] theorem State.resetBlock_stack (s : State) : s.resetBlock.stack = [] := rfl
@[simp] theorem State.resetBlock_inp (s : State) : s.resetBlock.inp = s.inp := rfl
@[simp] theorem State.resetBlock_out (s : State) : s.resetBlock.out = s.out := rfl
@[simp] theorem State.resetBlock_outBase (s : State) : s.resetBlock.outBase = s.outBase := rfl
@[simp] theorem State.resetBlock_outLen (s : State) : s.resetBlock.outLen = s.outLen := rfl
@[simp] theorem State.resetBlock_host (s : State) : s.resetBlock.host = s.host := rfl
@[simp] theorem State.resetBlock_rdata (s : State) : s.resetBlock.rdata = s.rdata := rfl
@[simp] theorem State.resetBlock_freeCtr (s : State) : s.resetBlock.freeCtr = s.freeCtr := rfl

end Sys2Proof.Machine
end

