-- ==== Sys2Proof/Laws/Output.lean ====
section
/-! SUPPORT. What the output operations, the growth and the append leave unchanged, one lemma per field. -/

namespace Sys2Proof.Machine

/-! ### `outByte` -/

@[simp] theorem State.outByte_cfg (s : State) (v : Byte) : (s.outByte v).cfg = s.cfg := by
  unfold State.outByte; split <;> rfl
@[simp] theorem State.outByte_st (s : State) (v : Byte) : (s.outByte v).st = s.st := by
  unfold State.outByte; split <;> rfl
@[simp] theorem State.outByte_m (s : State) (v : Byte) : (s.outByte v).m = s.m := by
  unfold State.outByte; split <;> rfl
@[simp] theorem State.outByte_w (s : State) (v : Byte) : (s.outByte v).w = s.w := by
  unfold State.outByte; split <;> rfl
@[simp] theorem State.outByte_next (s : State) (v : Byte) : (s.outByte v).next = s.next := by
  unfold State.outByte; split <;> rfl
@[simp] theorem State.outByte_prev (s : State) (v : Byte) : (s.outByte v).prev = s.prev := by
  unfold State.outByte; split <;> rfl
@[simp] theorem State.outByte_prevv (s : State) (v : Byte) : (s.outByte v).prevv = s.prevv := by
  unfold State.outByte; split <;> rfl
@[simp] theorem State.outByte_bitbuf (s : State) (v : Byte) : (s.outByte v).bitbuf = s.bitbuf := by
  unfold State.outByte; split <;> rfl
@[simp] theorem State.outByte_nbits (s : State) (v : Byte) : (s.outByte v).nbits = s.nbits := by
  unfold State.outByte; split <;> rfl
@[simp] theorem State.outByte_blkrem (s : State) (v : Byte) : (s.outByte v).blkrem = s.blkrem := by
  unfold State.outByte; split <;> rfl
@[simp] theorem State.outByte_closed (s : State) (v : Byte) : (s.outByte v).closed = s.closed := by
  unfold State.outByte; split <;> rfl
@[simp] theorem State.outByte_olen (s : State) (v : Byte) : (s.outByte v).olen = s.olen := by
  unfold State.outByte; split <;> rfl
@[simp] theorem State.outByte_ipos (s : State) (v : Byte) : (s.outByte v).ipos = s.ipos := by
  unfold State.outByte; split <;> rfl
@[simp] theorem State.outByte_endseen (s : State) (v : Byte) : (s.outByte v).endseen = s.endseen := by
  unfold State.outByte; split <;> rfl
@[simp] theorem State.outByte_trunc (s : State) (v : Byte) : (s.outByte v).trunc = s.trunc := by
  unfold State.outByte; split <;> rfl
@[simp] theorem State.outByte_mode (s : State) (v : Byte) : (s.outByte v).mode = s.mode := by
  unfold State.outByte; split <;> rfl
@[simp] theorem State.outByte_cause (s : State) (v : Byte) : (s.outByte v).cause = s.cause := by
  unfold State.outByte; split <;> rfl
@[simp] theorem State.outByte_ecode (s : State) (v : Byte) : (s.outByte v).ecode = s.ecode := by
  unfold State.outByte; split <;> rfl
@[simp] theorem State.outByte_ewidth (s : State) (v : Byte) : (s.outByte v).ewidth = s.ewidth := by
  unfold State.outByte; split <;> rfl
@[simp] theorem State.outByte_enext (s : State) (v : Byte) : (s.outByte v).enext = s.enext := by
  unfold State.outByte; split <;> rfl
@[simp] theorem State.outByte_dict (s : State) (v : Byte) : (s.outByte v).dict = s.dict := by
  unfold State.outByte; split <;> rfl
@[simp] theorem State.outByte_stack (s : State) (v : Byte) : (s.outByte v).stack = s.stack := by
  unfold State.outByte; split <;> rfl
@[simp] theorem State.outByte_inp (s : State) (v : Byte) : (s.outByte v).inp = s.inp := by
  unfold State.outByte; split <;> rfl
@[simp] theorem State.outByte_outBase (s : State) (v : Byte) : (s.outByte v).outBase = s.outBase := by
  unfold State.outByte; split <;> rfl
@[simp] theorem State.outByte_outLen (s : State) (v : Byte) : (s.outByte v).outLen = s.outLen := by
  unfold State.outByte; split <;> rfl
@[simp] theorem State.outByte_host (s : State) (v : Byte) : (s.outByte v).host = s.host := by
  unfold State.outByte; split <;> rfl
@[simp] theorem State.outByte_rdata (s : State) (v : Byte) : (s.outByte v).rdata = s.rdata := by
  unfold State.outByte; split <;> rfl
@[simp] theorem State.outByte_freeCtr (s : State) (v : Byte) : (s.outByte v).freeCtr = s.freeCtr := by
  unfold State.outByte; split <;> rfl

/-! ### `emit` -/

@[simp] theorem State.emit_cfg (str : List Byte) (s : State) : (s.emit str).cfg = s.cfg := by
  induction str generalizing s with
  | nil => rfl
  | cons v rest ih => simp [State.emit, ih]
@[simp] theorem State.emit_st (str : List Byte) (s : State) : (s.emit str).st = s.st := by
  induction str generalizing s with
  | nil => rfl
  | cons v rest ih => simp [State.emit, ih]
@[simp] theorem State.emit_m (str : List Byte) (s : State) : (s.emit str).m = s.m := by
  induction str generalizing s with
  | nil => rfl
  | cons v rest ih => simp [State.emit, ih]
@[simp] theorem State.emit_w (str : List Byte) (s : State) : (s.emit str).w = s.w := by
  induction str generalizing s with
  | nil => rfl
  | cons v rest ih => simp [State.emit, ih]
@[simp] theorem State.emit_next (str : List Byte) (s : State) : (s.emit str).next = s.next := by
  induction str generalizing s with
  | nil => rfl
  | cons v rest ih => simp [State.emit, ih]
@[simp] theorem State.emit_prev (str : List Byte) (s : State) : (s.emit str).prev = s.prev := by
  induction str generalizing s with
  | nil => rfl
  | cons v rest ih => simp [State.emit, ih]
@[simp] theorem State.emit_prevv (str : List Byte) (s : State) : (s.emit str).prevv = s.prevv := by
  induction str generalizing s with
  | nil => rfl
  | cons v rest ih => simp [State.emit, ih]
@[simp] theorem State.emit_bitbuf (str : List Byte) (s : State) : (s.emit str).bitbuf = s.bitbuf := by
  induction str generalizing s with
  | nil => rfl
  | cons v rest ih => simp [State.emit, ih]
@[simp] theorem State.emit_nbits (str : List Byte) (s : State) : (s.emit str).nbits = s.nbits := by
  induction str generalizing s with
  | nil => rfl
  | cons v rest ih => simp [State.emit, ih]
@[simp] theorem State.emit_blkrem (str : List Byte) (s : State) : (s.emit str).blkrem = s.blkrem := by
  induction str generalizing s with
  | nil => rfl
  | cons v rest ih => simp [State.emit, ih]
@[simp] theorem State.emit_closed (str : List Byte) (s : State) : (s.emit str).closed = s.closed := by
  induction str generalizing s with
  | nil => rfl
  | cons v rest ih => simp [State.emit, ih]
@[simp] theorem State.emit_olen (str : List Byte) (s : State) : (s.emit str).olen = s.olen := by
  induction str generalizing s with
  | nil => rfl
  | cons v rest ih => simp [State.emit, ih]
@[simp] theorem State.emit_ipos (str : List Byte) (s : State) : (s.emit str).ipos = s.ipos := by
  induction str generalizing s with
  | nil => rfl
  | cons v rest ih => simp [State.emit, ih]
@[simp] theorem State.emit_endseen (str : List Byte) (s : State) : (s.emit str).endseen = s.endseen := by
  induction str generalizing s with
  | nil => rfl
  | cons v rest ih => simp [State.emit, ih]
@[simp] theorem State.emit_trunc (str : List Byte) (s : State) : (s.emit str).trunc = s.trunc := by
  induction str generalizing s with
  | nil => rfl
  | cons v rest ih => simp [State.emit, ih]
@[simp] theorem State.emit_mode (str : List Byte) (s : State) : (s.emit str).mode = s.mode := by
  induction str generalizing s with
  | nil => rfl
  | cons v rest ih => simp [State.emit, ih]
@[simp] theorem State.emit_cause (str : List Byte) (s : State) : (s.emit str).cause = s.cause := by
  induction str generalizing s with
  | nil => rfl
  | cons v rest ih => simp [State.emit, ih]
@[simp] theorem State.emit_ecode (str : List Byte) (s : State) : (s.emit str).ecode = s.ecode := by
  induction str generalizing s with
  | nil => rfl
  | cons v rest ih => simp [State.emit, ih]
@[simp] theorem State.emit_ewidth (str : List Byte) (s : State) : (s.emit str).ewidth = s.ewidth := by
  induction str generalizing s with
  | nil => rfl
  | cons v rest ih => simp [State.emit, ih]
@[simp] theorem State.emit_enext (str : List Byte) (s : State) : (s.emit str).enext = s.enext := by
  induction str generalizing s with
  | nil => rfl
  | cons v rest ih => simp [State.emit, ih]
@[simp] theorem State.emit_dict (str : List Byte) (s : State) : (s.emit str).dict = s.dict := by
  induction str generalizing s with
  | nil => rfl
  | cons v rest ih => simp [State.emit, ih]
@[simp] theorem State.emit_stack (str : List Byte) (s : State) : (s.emit str).stack = s.stack := by
  induction str generalizing s with
  | nil => rfl
  | cons v rest ih => simp [State.emit, ih]
@[simp] theorem State.emit_inp (str : List Byte) (s : State) : (s.emit str).inp = s.inp := by
  induction str generalizing s with
  | nil => rfl
  | cons v rest ih => simp [State.emit, ih]
@[simp] theorem State.emit_outBase (str : List Byte) (s : State) : (s.emit str).outBase = s.outBase := by
  induction str generalizing s with
  | nil => rfl
  | cons v rest ih => simp [State.emit, ih]
@[simp] theorem State.emit_outLen (str : List Byte) (s : State) : (s.emit str).outLen = s.outLen := by
  induction str generalizing s with
  | nil => rfl
  | cons v rest ih => simp [State.emit, ih]
@[simp] theorem State.emit_host (str : List Byte) (s : State) : (s.emit str).host = s.host := by
  induction str generalizing s with
  | nil => rfl
  | cons v rest ih => simp [State.emit, ih]
@[simp] theorem State.emit_rdata (str : List Byte) (s : State) : (s.emit str).rdata = s.rdata := by
  induction str generalizing s with
  | nil => rfl
  | cons v rest ih => simp [State.emit, ih]
@[simp] theorem State.emit_freeCtr (str : List Byte) (s : State) : (s.emit str).freeCtr = s.freeCtr := by
  induction str generalizing s with
  | nil => rfl
  | cons v rest ih => simp [State.emit, ih]

/-! ### `grow` and `append` -/

@[simp] theorem State.grow_cfg (s : State) : s.grow.cfg = s.cfg := by
  unfold State.grow; split <;> rfl
@[simp] theorem State.grow_st (s : State) : s.grow.st = s.st := by
  unfold State.grow; split <;> rfl
@[simp] theorem State.grow_m (s : State) : s.grow.m = s.m := by
  unfold State.grow; split <;> rfl
@[simp] theorem State.grow_next (s : State) : s.grow.next = s.next := by
  unfold State.grow; split <;> rfl
@[simp] theorem State.grow_prev (s : State) : s.grow.prev = s.prev := by
  unfold State.grow; split <;> rfl
@[simp] theorem State.grow_prevv (s : State) : s.grow.prevv = s.prevv := by
  unfold State.grow; split <;> rfl
@[simp] theorem State.grow_bitbuf (s : State) : s.grow.bitbuf = s.bitbuf := by
  unfold State.grow; split <;> rfl
@[simp] theorem State.grow_nbits (s : State) : s.grow.nbits = s.nbits := by
  unfold State.grow; split <;> rfl
@[simp] theorem State.grow_blkrem (s : State) : s.grow.blkrem = s.blkrem := by
  unfold State.grow; split <;> rfl
@[simp] theorem State.grow_closed (s : State) : s.grow.closed = s.closed := by
  unfold State.grow; split <;> rfl
@[simp] theorem State.grow_olen (s : State) : s.grow.olen = s.olen := by
  unfold State.grow; split <;> rfl
@[simp] theorem State.grow_ocnt (s : State) : s.grow.ocnt = s.ocnt := by
  unfold State.grow; split <;> rfl
@[simp] theorem State.grow_ipos (s : State) : s.grow.ipos = s.ipos := by
  unfold State.grow; split <;> rfl
@[simp] theorem State.grow_endseen (s : State) : s.grow.endseen = s.endseen := by
  unfold State.grow; split <;> rfl
@[simp] theorem State.grow_ovf (s : State) : s.grow.ovf = s.ovf := by
  unfold State.grow; split <;> rfl
@[simp] theorem State.grow_trunc (s : State) : s.grow.trunc = s.trunc := by
  unfold State.grow; split <;> rfl
@[simp] theorem State.grow_mode (s : State) : s.grow.mode = s.mode := by
  unfold State.grow; split <;> rfl
@[simp] theorem State.grow_cause (s : State) : s.grow.cause = s.cause := by
  unfold State.grow; split <;> rfl
@[simp] theorem State.grow_ecode (s : State) : s.grow.ecode = s.ecode := by
  unfold State.grow; split <;> rfl
@[simp] theorem State.grow_ewidth (s : State) : s.grow.ewidth = s.ewidth := by
  unfold State.grow; split <;> rfl
@[simp] theorem State.grow_enext (s : State) : s.grow.enext = s.enext := by
  unfold State.grow; split <;> rfl
@[simp] theorem State.grow_dict (s : State) : s.grow.dict = s.dict := by
  unfold State.grow; split <;> rfl
@[simp] theorem State.grow_stack (s : State) : s.grow.stack = s.stack := by
  unfold State.grow; split <;> rfl
@[simp] theorem State.grow_inp (s : State) : s.grow.inp = s.inp := by
  unfold State.grow; split <;> rfl
@[simp] theorem State.grow_out (s : State) : s.grow.out = s.out := by
  unfold State.grow; split <;> rfl
@[simp] theorem State.grow_outBase (s : State) : s.grow.outBase = s.outBase := by
  unfold State.grow; split <;> rfl
@[simp] theorem State.grow_outLen (s : State) : s.grow.outLen = s.outLen := by
  unfold State.grow; split <;> rfl
@[simp] theorem State.grow_host (s : State) : s.grow.host = s.host := by
  unfold State.grow; split <;> rfl
@[simp] theorem State.grow_rdata (s : State) : s.grow.rdata = s.rdata := by
  unfold State.grow; split <;> rfl
@[simp] theorem State.grow_freeCtr (s : State) : s.grow.freeCtr = s.freeCtr := by
  unfold State.grow; split <;> rfl
@[simp] theorem State.append_cfg (s : State) (p : Code) (b : Byte) : (s.append p b).cfg = s.cfg := by
  simp [State.append]
@[simp] theorem State.append_st (s : State) (p : Code) (b : Byte) : (s.append p b).st = s.st := by
  simp [State.append]
@[simp] theorem State.append_m (s : State) (p : Code) (b : Byte) : (s.append p b).m = s.m := by
  simp [State.append]
@[simp] theorem State.append_next (s : State) (p : Code) (b : Byte) : (s.append p b).next = s.next + 1 := by
  simp [State.append]
@[simp] theorem State.append_prev (s : State) (p : Code) (b : Byte) : (s.append p b).prev = s.prev := by
  simp [State.append]
@[simp] theorem State.append_prevv (s : State) (p : Code) (b : Byte) : (s.append p b).prevv = s.prevv := by
  simp [State.append]
@[simp] theorem State.append_bitbuf (s : State) (p : Code) (b : Byte) : (s.append p b).bitbuf = s.bitbuf := by
  simp [State.append]
@[simp] theorem State.append_nbits (s : State) (p : Code) (b : Byte) : (s.append p b).nbits = s.nbits := by
  simp [State.append]
@[simp] theorem State.append_blkrem (s : State) (p : Code) (b : Byte) : (s.append p b).blkrem = s.blkrem := by
  simp [State.append]
@[simp] theorem State.append_closed (s : State) (p : Code) (b : Byte) : (s.append p b).closed = s.closed := by
  simp [State.append]
@[simp] theorem State.append_olen (s : State) (p : Code) (b : Byte) : (s.append p b).olen = s.olen := by
  simp [State.append]
@[simp] theorem State.append_ocnt (s : State) (p : Code) (b : Byte) : (s.append p b).ocnt = s.ocnt := by
  simp [State.append]
@[simp] theorem State.append_ipos (s : State) (p : Code) (b : Byte) : (s.append p b).ipos = s.ipos := by
  simp [State.append]
@[simp] theorem State.append_endseen (s : State) (p : Code) (b : Byte) : (s.append p b).endseen = s.endseen := by
  simp [State.append]
@[simp] theorem State.append_ovf (s : State) (p : Code) (b : Byte) : (s.append p b).ovf = s.ovf := by
  simp [State.append]
@[simp] theorem State.append_trunc (s : State) (p : Code) (b : Byte) : (s.append p b).trunc = s.trunc := by
  simp [State.append]
@[simp] theorem State.append_mode (s : State) (p : Code) (b : Byte) : (s.append p b).mode = s.mode := by
  simp [State.append]
@[simp] theorem State.append_cause (s : State) (p : Code) (b : Byte) : (s.append p b).cause = s.cause := by
  simp [State.append]
@[simp] theorem State.append_ecode (s : State) (p : Code) (b : Byte) : (s.append p b).ecode = s.ecode := by
  simp [State.append]
@[simp] theorem State.append_ewidth (s : State) (p : Code) (b : Byte) : (s.append p b).ewidth = s.ewidth := by
  simp [State.append]
@[simp] theorem State.append_enext (s : State) (p : Code) (b : Byte) : (s.append p b).enext = s.enext := by
  simp [State.append]
@[simp] theorem State.append_dict (s : State) (p : Code) (b : Byte) : (s.append p b).dict = DictMem.set s.dict s.next.toNat { pfx := p, byte := b } := by
  simp [State.append]
@[simp] theorem State.append_stack (s : State) (p : Code) (b : Byte) : (s.append p b).stack = s.stack := by
  simp [State.append]
@[simp] theorem State.append_inp (s : State) (p : Code) (b : Byte) : (s.append p b).inp = s.inp := by
  simp [State.append]
@[simp] theorem State.append_out (s : State) (p : Code) (b : Byte) : (s.append p b).out = s.out := by
  simp [State.append]
@[simp] theorem State.append_outBase (s : State) (p : Code) (b : Byte) : (s.append p b).outBase = s.outBase := by
  simp [State.append]
@[simp] theorem State.append_outLen (s : State) (p : Code) (b : Byte) : (s.append p b).outLen = s.outLen := by
  simp [State.append]
@[simp] theorem State.append_host (s : State) (p : Code) (b : Byte) : (s.append p b).host = s.host := by
  simp [State.append]
@[simp] theorem State.append_rdata (s : State) (p : Code) (b : Byte) : (s.append p b).rdata = s.rdata := by
  simp [State.append]
@[simp] theorem State.append_freeCtr (s : State) (p : Code) (b : Byte) : (s.append p b).freeCtr = s.freeCtr := by
  simp [State.append]

/-- The width after an append (R96): one more where the growth test fires below width 12. -/
theorem State.append_w (s : State) (p : Code) (b : Byte) :
    (s.append p b).w =
      (if s.w.toNat < 12 ∧ reaches s.cfg.growGe (s.next + 1).toNat s.w.toNat = true then s.w + 1 else s.w) := by
  simp only [State.append, State.grow]
  split <;> rfl

/-! ### `finish` -/

@[simp] theorem State.finish_cfg (s : State) : s.finish.cfg = s.cfg := by
  unfold State.finish; split <;> rfl
@[simp] theorem State.finish_m (s : State) : s.finish.m = s.m := by
  unfold State.finish; split <;> rfl
@[simp] theorem State.finish_w (s : State) : s.finish.w = s.w := by
  unfold State.finish; split <;> rfl
@[simp] theorem State.finish_next (s : State) : s.finish.next = s.next := by
  unfold State.finish; split <;> rfl
@[simp] theorem State.finish_prev (s : State) : s.finish.prev = s.prev := by
  unfold State.finish; split <;> rfl
@[simp] theorem State.finish_prevv (s : State) : s.finish.prevv = s.prevv := by
  unfold State.finish; split <;> rfl
@[simp] theorem State.finish_blkrem (s : State) : s.finish.blkrem = s.blkrem := by
  unfold State.finish; split <;> rfl
@[simp] theorem State.finish_closed (s : State) : s.finish.closed = s.closed := by
  unfold State.finish; split <;> rfl
@[simp] theorem State.finish_olen (s : State) : s.finish.olen = s.olen := by
  unfold State.finish; split <;> rfl
@[simp] theorem State.finish_ocnt (s : State) : s.finish.ocnt = s.ocnt := by
  unfold State.finish; split <;> rfl
@[simp] theorem State.finish_ipos (s : State) : s.finish.ipos = s.ipos := by
  unfold State.finish; split <;> rfl
@[simp] theorem State.finish_endseen (s : State) : s.finish.endseen = s.endseen := by
  unfold State.finish; split <;> rfl
@[simp] theorem State.finish_ovf (s : State) : s.finish.ovf = s.ovf := by
  unfold State.finish; split <;> rfl
@[simp] theorem State.finish_mode (s : State) : s.finish.mode = s.mode := by
  unfold State.finish; split <;> rfl
@[simp] theorem State.finish_ecode (s : State) : s.finish.ecode = s.ecode := by
  unfold State.finish; split <;> rfl
@[simp] theorem State.finish_ewidth (s : State) : s.finish.ewidth = s.ewidth := by
  unfold State.finish; split <;> rfl
@[simp] theorem State.finish_enext (s : State) : s.finish.enext = s.enext := by
  unfold State.finish; split <;> rfl
@[simp] theorem State.finish_dict (s : State) : s.finish.dict = s.dict := by
  unfold State.finish; split <;> rfl
@[simp] theorem State.finish_stack (s : State) : s.finish.stack = s.stack := by
  unfold State.finish; split <;> rfl
@[simp] theorem State.finish_inp (s : State) : s.finish.inp = s.inp := by
  unfold State.finish; split <;> rfl
@[simp] theorem State.finish_out (s : State) : s.finish.out = s.out := by
  unfold State.finish; split <;> rfl
@[simp] theorem State.finish_outBase (s : State) : s.finish.outBase = s.outBase := by
  unfold State.finish; split <;> rfl
@[simp] theorem State.finish_outLen (s : State) : s.finish.outLen = s.outLen := by
  unfold State.finish; split <;> rfl
@[simp] theorem State.finish_host (s : State) : s.finish.host = s.host := by
  unfold State.finish; split <;> rfl
@[simp] theorem State.finish_rdata (s : State) : s.finish.rdata = s.rdata := by
  unfold State.finish; split <;> rfl
@[simp] theorem State.finish_freeCtr (s : State) : s.finish.freeCtr = s.freeCtr := by
  unfold State.finish; split <;> rfl
@[simp] theorem State.finish_bitbuf (s : State) : s.finish.bitbuf = 0 := by
  unfold State.finish; split <;> rfl
@[simp] theorem State.finish_nbits (s : State) : s.finish.nbits = 0 := by
  unfold State.finish; split <;> rfl
@[simp] theorem State.finish_st (s : State) : s.finish.st = .done := by
  unfold State.finish; split <;> rfl
/-- The cause `Finish` chooses is `OK` or `SHORT`, and `TRUNC` says which. -/
theorem State.finish_cause (s : State) :
    (s.finish.cause = .ok ∧ s.finish.trunc = false) ∨ (s.finish.cause = .short ∧ s.finish.trunc = true) := by
  unfold State.finish; split
  · exact .inl ⟨rfl, rfl⟩
  · exact .inr ⟨rfl, rfl⟩

/-! ### What `outByte` does -/

/-- `OutByte` below the limit (R42). -/
theorem State.outByte_fits (s : State) (v : Byte) (h : s.ocnt.toNat < s.olen.toNat) :
    s.outByte v = { s with out := Memory.write s.out (s.outBase + s.ocnt.toNat) v, ocnt := s.ocnt + 1 } := by
  simp [State.outByte, h]

/-- `OutByte` at the limit (R42). -/
theorem State.outByte_full (s : State) (v : Byte) (h : ¬ s.ocnt.toNat < s.olen.toNat) :
    s.outByte v = { s with ovf := true } := by
  simp [State.outByte, h]

/-- The output count never wraps: it is raised only below `OLEN`. -/
theorem State.outByte_ocnt (s : State) (v : Byte) :
    (s.outByte v).ocnt.toNat = if s.ocnt.toNat < s.olen.toNat then s.ocnt.toNat + 1 else s.ocnt.toNat := by
  by_cases h : s.ocnt.toNat < s.olen.toNat
  · have := s.olen.isLt
    rw [if_pos h, State.outByte_fits s v h]
    have h1 : (1 : BitVec 32).toNat = 1 := rfl
    simp only [BitVec.toNat_add]
    omega
  · rw [if_neg h, State.outByte_full s v h]

theorem State.outByte_outWf (s : State) (v : Byte) (h : Memory.wf s.out = true) :
    Memory.wf (s.outByte v).out = true := by
  by_cases hc : s.ocnt.toNat < s.olen.toNat
  · rw [State.outByte_fits s v hc]; exact Memory.wf_write _ _ _ h
  · rw [State.outByte_full s v hc]; exact h

theorem State.emit_outWf (str : List Byte) (s : State) (h : Memory.wf s.out = true) :
    Memory.wf (s.emit str).out = true := by
  induction str generalizing s with
  | nil => exact h
  | cons v rest ih => exact ih _ (State.outByte_outWf s v h)

/-- Offering bytes, with room or without: what an emission leaves unchanged (R42, R94). -/
theorem State.emit_frame (str : List Byte) (s : State) :
    s.ocnt.toNat ≤ (s.emit str).ocnt.toNat ∧
    (∀ a, a < s.outBase + s.ocnt.toNat ∨ s.outBase + (s.emit str).ocnt.toNat ≤ a →
      Memory.read (s.emit str).out a = Memory.read s.out a) ∧
    s.emit str = { s with ocnt := (s.emit str).ocnt, out := (s.emit str).out, ovf := (s.emit str).ovf } := by
  induction str generalizing s with
  | nil => exact ⟨le_refl _, fun _ _ => rfl, rfl⟩
  | cons v rest ih =>
    obtain ⟨h1, h2, h3⟩ := ih (s.outByte v)
    have ho := s.outByte_ocnt v
    refine ⟨?_, ?_, ?_⟩
    · show _ ≤ (State.emit rest (s.outByte v)).ocnt.toNat
      split at ho <;> omega
    · intro a ha
      have ha' : a < s.outBase + s.ocnt.toNat ∨ s.outBase + (State.emit rest (s.outByte v)).ocnt.toNat ≤ a := ha
      have hb := s.outByte_outBase v
      show Memory.read (State.emit rest (s.outByte v)).out a = _
      by_cases hc : s.ocnt.toNat < s.olen.toNat
      · rw [if_pos hc] at ho
        rw [h2 a (by omega), State.outByte_fits s v hc]
        exact Memory.read_write_other _ _ _ _ (by omega)
      · rw [if_neg hc] at ho
        rw [h2 a (by omega), State.outByte_full s v hc]
    · have e : s.emit (v :: rest) = State.emit rest (s.outByte v) := rfl
      rw [e]
      generalize State.emit rest (s.outByte v) = u at h3 ⊢
      by_cases hc : s.ocnt.toNat < s.olen.toNat
      · rw [State.outByte_fits s v hc] at h3; exact h3
      · rw [State.outByte_full s v hc] at h3; exact h3

/-- The pop half of an emission leaves the stack empty. -/
@[simp] theorem State.popEmit_stack (s : State) : s.popEmit.stack = [] := by simp [State.popEmit]

end Sys2Proof.Machine
end

