-- ==== Sys2Proof/Laws/PerInstr.lean ====
section
/-! SUPPORT. Statements made per instruction. RoundTrip: an instruction that can stand in a context decodes from its own
encoding there. -/

namespace Sys2Proof.Laws.RoundTrip

/-- Decoding the encoding of `i` gives `i` back, in every context it can stand in. -/
def Statement (i : Instr) : Prop := ∀ x : Ctx, i.wf x = true → decode x (encode x i) = .ok i

/-- A code that fits the width is classified (R64, R67). -/
theorem decode_code {x : Ctx} {c : Code} (h : c.toNat < 2 ^ x.w.toNat) :
    decode x (.code c) = .ok (classifyCode x c) := by simp [decode, h]

/-- The CLEAR code is the first class of R67. -/
theorem classify_clear {x : Ctx} {c : Code} (h : c.toNat = clrOf x.m) : classifyCode x c = clearRow x.m := by
  simp [classifyCode, h]

/-- The END code is the second class of R67. -/
theorem classify_end {x : Ctx} {c : Code} (h : c.toNat = eoiOf x.m) : classifyCode x c = endRow x.m := by
  simp [classifyCode, h, clrOf, eoiOf]

/-- The codes below `2^M` are the third class of R67. -/
theorem classify_lit {x : Ctx} {c : Code} (h : c.toNat < clrOf x.m) : classifyCode x c = litRow x.m c := by
  have h1 : c.toNat ≠ clrOf x.m := by omega
  have h2 : c.toNat ≠ eoiOf x.m := by simp only [clrOf, eoiOf] at *; omega
  simp [classifyCode, h, h1, h2]

/-- The codes from `2^M + 2` on are classes 4 to 6 of R67. -/
theorem classify_high {x : Ctx} {c : Code} (h : firstOf x.m ≤ c.toNat) :
    classifyCode x c = if c.toNat < x.next.toNat then .dict c
      else if c.toNat = x.next.toNat ∧ x.prevv = true then .kwkwk c else .invalid c := by
  simp only [firstOf] at h
  have h1 : c.toNat ≠ clrOf x.m := by simp only [clrOf]; omega
  have h2 : c.toNat ≠ eoiOf x.m := by simp only [eoiOf]; omega
  have h3 : ¬ c.toNat < clrOf x.m := by simp only [clrOf]; omega
  simp only [classifyCode, h1, h2, h3, if_false]

/-- A value that fits the width keeps its value in 12 bits (R64). -/
theorem toNat_code {x : Ctx} {n : Nat} (h : fitsWidth x n = true) :
    (BitVec.ofNat 12 n).toNat = n ∧ n < 2 ^ x.w.toNat := by
  rw [fitsWidth_iff] at h
  exact ⟨by rw [BitVec.toNat_ofNat]; omega, h.1⟩

/-- No row of one `M` is chosen for an illegal `M` (R69). -/
theorem illegal_row {m : BitVec 4} (h : legalM m = false) :
    m.toNat ≠ 1 ∧ m.toNat ≠ 2 ∧ m.toNat ≠ 3 ∧ m.toNat ≠ 4 ∧ m.toNat ≠ 5 ∧ m.toNat ≠ 6 ∧ m.toNat ≠ 7 ∧ m.toNat ≠ 8 := by
  rw [legalM_false_iff] at h
  omega

theorem sbTerm : Statement .sbTerm := by
  intro x h
  simp only [Instr.wf, atLength, Bool.and_eq_true, Bool.not_eq_true', decide_eq_true_eq] at h
  simp [encode, decode, classifySb, h]

theorem sbLen (len : Byte) : Statement (.sbLen len) := by
  intro x h
  simp only [Instr.wf, atLength, Bool.and_eq_true, Bool.not_eq_true', decide_eq_true_eq] at h
  have hl : ¬ len = 0#8 := h.2
  simp [encode, decode, classifySb, h.1, hl]

theorem sbData (b : Byte) : Statement (.sbData b) := by
  intro x h
  simp only [Instr.wf, Bool.and_eq_true, Bool.not_eq_true', decide_eq_true_eq] at h
  have hl : ¬ x.blkrem = 0#8 := h.2
  simp [encode, decode, classifySb, h.1, hl]

theorem clear : Statement .clear := by
  intro x h
  simp only [Instr.wf, Bool.and_eq_true, Bool.not_eq_true'] at h
  obtain ⟨hv, hw⟩ := toNat_code h.2
  rw [encode, decode_code (by rw [hv]; exact hw), classify_clear hv]
  simp [clearRow, illegal_row h.1]

theorem endCode : Statement .endCode := by
  intro x h
  simp only [Instr.wf, Bool.and_eq_true, Bool.not_eq_true'] at h
  obtain ⟨hv, hw⟩ := toNat_code h.2
  rw [encode, decode_code (by rw [hv]; exact hw), classify_end hv]
  simp [endRow, illegal_row h.1]

theorem lit (c : Code) : Statement (.lit c) := by
  intro x h
  simp only [Instr.wf, Bool.and_eq_true, Bool.not_eq_true', decide_eq_true_eq] at h
  rw [encode, decode_code (toNat_code h.2).2, classify_lit h.1.2]
  simp [litRow, illegal_row h.1.1]

theorem dict (c : Code) : Statement (.dict c) := by
  intro x h
  simp only [Instr.wf, Bool.and_eq_true, decide_eq_true_eq] at h
  rw [encode, decode_code (toNat_code h.2).2, classify_high h.1.1, if_pos h.1.2]

theorem kwkwk (c : Code) : Statement (.kwkwk c) := by
  intro x h
  simp only [Instr.wf, Bool.and_eq_true, decide_eq_true_eq] at h
  rw [encode, decode_code (toNat_code h.2).2, classify_high h.1.1.1, if_neg (by omega), if_pos ⟨h.1.1.2, h.1.2⟩]

theorem invalid (c : Code) : Statement (.invalid c) := by
  intro x h
  simp only [Instr.wf, Bool.and_eq_true, Bool.or_eq_true, Bool.not_eq_true', decide_eq_true_eq] at h
  rw [encode, decode_code (toNat_code h.1.2).2, classify_high h.1.1]
  rcases h.2 with hn | ⟨hn, hp⟩
  · rw [if_neg (by omega), if_neg (by omega)]
  · rw [if_neg (by omega), if_neg (by simp [hp])]

theorem clearM1 : Statement .clearM1 := by
  intro x h
  simp only [Instr.wf, hasM, Bool.and_eq_true, decide_eq_true_eq] at h
  have hw := (toNat_code h.2).2
  rw [encode, decode_code (show (0x002 : Code).toNat < _ from hw), classify_clear (by rw [clrOf, h.1]; rfl)]
  simp [clearRow, h.1]

theorem endM1 : Statement .endM1 := by
  intro x h
  simp only [Instr.wf, hasM, Bool.and_eq_true, decide_eq_true_eq] at h
  have hw := (toNat_code h.2).2
  rw [encode, decode_code (show (0x003 : Code).toNat < _ from hw), classify_end (by rw [eoiOf, h.1]; rfl)]
  simp [endRow, h.1]

theorem litM1 (b : BitVec 1) : Statement (.litM1 b) := by
  intro x h
  simp only [Instr.wf, hasM, Bool.and_eq_true, decide_eq_true_eq] at h
  have hb := b.isLt
  have hv : (b.setWidth 12).toNat = b.toNat := by rw [BitVec.toNat_setWidth]; omega
  rw [encode, decode_code (by rw [hv]; exact (toNat_code h.2).2), classify_lit (by rw [hv, clrOf, h.1]; omega)]
  have hs : (b.setWidth 12).setWidth 1 = b := by
    apply BitVec.eq_of_toNat_eq
    rw [BitVec.toNat_setWidth, hv]; omega
  simp only [litRow, h.1, hs]

theorem clearM2 : Statement .clearM2 := by
  intro x h
  simp only [Instr.wf, hasM, Bool.and_eq_true, decide_eq_true_eq] at h
  have hw := (toNat_code h.2).2
  rw [encode, decode_code (show (0x004 : Code).toNat < _ from hw), classify_clear (by rw [clrOf, h.1]; rfl)]
  simp [clearRow, h.1]

theorem endM2 : Statement .endM2 := by
  intro x h
  simp only [Instr.wf, hasM, Bool.and_eq_true, decide_eq_true_eq] at h
  have hw := (toNat_code h.2).2
  rw [encode, decode_code (show (0x005 : Code).toNat < _ from hw), classify_end (by rw [eoiOf, h.1]; rfl)]
  simp [endRow, h.1]

theorem litM2 (b : BitVec 2) : Statement (.litM2 b) := by
  intro x h
  simp only [Instr.wf, hasM, Bool.and_eq_true, decide_eq_true_eq] at h
  have hb := b.isLt
  have hv : (b.setWidth 12).toNat = b.toNat := by rw [BitVec.toNat_setWidth]; omega
  rw [encode, decode_code (by rw [hv]; exact (toNat_code h.2).2), classify_lit (by rw [hv, clrOf, h.1]; omega)]
  have hs : (b.setWidth 12).setWidth 2 = b := by
    apply BitVec.eq_of_toNat_eq
    rw [BitVec.toNat_setWidth, hv]; omega
  simp only [litRow, h.1, hs]

theorem clearM3 : Statement .clearM3 := by
  intro x h
  simp only [Instr.wf, hasM, Bool.and_eq_true, decide_eq_true_eq] at h
  have hw := (toNat_code h.2).2
  rw [encode, decode_code (show (0x008 : Code).toNat < _ from hw), classify_clear (by rw [clrOf, h.1]; rfl)]
  simp [clearRow, h.1]

theorem endM3 : Statement .endM3 := by
  intro x h
  simp only [Instr.wf, hasM, Bool.and_eq_true, decide_eq_true_eq] at h
  have hw := (toNat_code h.2).2
  rw [encode, decode_code (show (0x009 : Code).toNat < _ from hw), classify_end (by rw [eoiOf, h.1]; rfl)]
  simp [endRow, h.1]

theorem litM3 (b : BitVec 3) : Statement (.litM3 b) := by
  intro x h
  simp only [Instr.wf, hasM, Bool.and_eq_true, decide_eq_true_eq] at h
  have hb := b.isLt
  have hv : (b.setWidth 12).toNat = b.toNat := by rw [BitVec.toNat_setWidth]; omega
  rw [encode, decode_code (by rw [hv]; exact (toNat_code h.2).2), classify_lit (by rw [hv, clrOf, h.1]; omega)]
  have hs : (b.setWidth 12).setWidth 3 = b := by
    apply BitVec.eq_of_toNat_eq
    rw [BitVec.toNat_setWidth, hv]; omega
  simp only [litRow, h.1, hs]

theorem clearM4 : Statement .clearM4 := by
  intro x h
  simp only [Instr.wf, hasM, Bool.and_eq_true, decide_eq_true_eq] at h
  have hw := (toNat_code h.2).2
  rw [encode, decode_code (show (0x010 : Code).toNat < _ from hw), classify_clear (by rw [clrOf, h.1]; rfl)]
  simp [clearRow, h.1]

theorem endM4 : Statement .endM4 := by
  intro x h
  simp only [Instr.wf, hasM, Bool.and_eq_true, decide_eq_true_eq] at h
  have hw := (toNat_code h.2).2
  rw [encode, decode_code (show (0x011 : Code).toNat < _ from hw), classify_end (by rw [eoiOf, h.1]; rfl)]
  simp [endRow, h.1]

theorem litM4 (b : BitVec 4) : Statement (.litM4 b) := by
  intro x h
  simp only [Instr.wf, hasM, Bool.and_eq_true, decide_eq_true_eq] at h
  have hb := b.isLt
  have hv : (b.setWidth 12).toNat = b.toNat := by rw [BitVec.toNat_setWidth]; omega
  rw [encode, decode_code (by rw [hv]; exact (toNat_code h.2).2), classify_lit (by rw [hv, clrOf, h.1]; omega)]
  have hs : (b.setWidth 12).setWidth 4 = b := by
    apply BitVec.eq_of_toNat_eq
    rw [BitVec.toNat_setWidth, hv]; omega
  simp only [litRow, h.1, hs]

theorem clearM5 : Statement .clearM5 := by
  intro x h
  simp only [Instr.wf, hasM, Bool.and_eq_true, decide_eq_true_eq] at h
  have hw := (toNat_code h.2).2
  rw [encode, decode_code (show (0x020 : Code).toNat < _ from hw), classify_clear (by rw [clrOf, h.1]; rfl)]
  simp [clearRow, h.1]

theorem endM5 : Statement .endM5 := by
  intro x h
  simp only [Instr.wf, hasM, Bool.and_eq_true, decide_eq_true_eq] at h
  have hw := (toNat_code h.2).2
  rw [encode, decode_code (show (0x021 : Code).toNat < _ from hw), classify_end (by rw [eoiOf, h.1]; rfl)]
  simp [endRow, h.1]

theorem litM5 (b : BitVec 5) : Statement (.litM5 b) := by
  intro x h
  simp only [Instr.wf, hasM, Bool.and_eq_true, decide_eq_true_eq] at h
  have hb := b.isLt
  have hv : (b.setWidth 12).toNat = b.toNat := by rw [BitVec.toNat_setWidth]; omega
  rw [encode, decode_code (by rw [hv]; exact (toNat_code h.2).2), classify_lit (by rw [hv, clrOf, h.1]; omega)]
  have hs : (b.setWidth 12).setWidth 5 = b := by
    apply BitVec.eq_of_toNat_eq
    rw [BitVec.toNat_setWidth, hv]; omega
  simp only [litRow, h.1, hs]

theorem clearM6 : Statement .clearM6 := by
  intro x h
  simp only [Instr.wf, hasM, Bool.and_eq_true, decide_eq_true_eq] at h
  have hw := (toNat_code h.2).2
  rw [encode, decode_code (show (0x040 : Code).toNat < _ from hw), classify_clear (by rw [clrOf, h.1]; rfl)]
  simp [clearRow, h.1]

theorem endM6 : Statement .endM6 := by
  intro x h
  simp only [Instr.wf, hasM, Bool.and_eq_true, decide_eq_true_eq] at h
  have hw := (toNat_code h.2).2
  rw [encode, decode_code (show (0x041 : Code).toNat < _ from hw), classify_end (by rw [eoiOf, h.1]; rfl)]
  simp [endRow, h.1]

theorem litM6 (b : BitVec 6) : Statement (.litM6 b) := by
  intro x h
  simp only [Instr.wf, hasM, Bool.and_eq_true, decide_eq_true_eq] at h
  have hb := b.isLt
  have hv : (b.setWidth 12).toNat = b.toNat := by rw [BitVec.toNat_setWidth]; omega
  rw [encode, decode_code (by rw [hv]; exact (toNat_code h.2).2), classify_lit (by rw [hv, clrOf, h.1]; omega)]
  have hs : (b.setWidth 12).setWidth 6 = b := by
    apply BitVec.eq_of_toNat_eq
    rw [BitVec.toNat_setWidth, hv]; omega
  simp only [litRow, h.1, hs]

theorem clearM7 : Statement .clearM7 := by
  intro x h
  simp only [Instr.wf, hasM, Bool.and_eq_true, decide_eq_true_eq] at h
  have hw := (toNat_code h.2).2
  rw [encode, decode_code (show (0x080 : Code).toNat < _ from hw), classify_clear (by rw [clrOf, h.1]; rfl)]
  simp [clearRow, h.1]

theorem endM7 : Statement .endM7 := by
  intro x h
  simp only [Instr.wf, hasM, Bool.and_eq_true, decide_eq_true_eq] at h
  have hw := (toNat_code h.2).2
  rw [encode, decode_code (show (0x081 : Code).toNat < _ from hw), classify_end (by rw [eoiOf, h.1]; rfl)]
  simp [endRow, h.1]

theorem litM7 (b : BitVec 7) : Statement (.litM7 b) := by
  intro x h
  simp only [Instr.wf, hasM, Bool.and_eq_true, decide_eq_true_eq] at h
  have hb := b.isLt
  have hv : (b.setWidth 12).toNat = b.toNat := by rw [BitVec.toNat_setWidth]; omega
  rw [encode, decode_code (by rw [hv]; exact (toNat_code h.2).2), classify_lit (by rw [hv, clrOf, h.1]; omega)]
  have hs : (b.setWidth 12).setWidth 7 = b := by
    apply BitVec.eq_of_toNat_eq
    rw [BitVec.toNat_setWidth, hv]; omega
  simp only [litRow, h.1, hs]

theorem clearM8 : Statement .clearM8 := by
  intro x h
  simp only [Instr.wf, hasM, Bool.and_eq_true, decide_eq_true_eq] at h
  have hw := (toNat_code h.2).2
  rw [encode, decode_code (show (0x100 : Code).toNat < _ from hw), classify_clear (by rw [clrOf, h.1]; rfl)]
  simp [clearRow, h.1]

theorem endM8 : Statement .endM8 := by
  intro x h
  simp only [Instr.wf, hasM, Bool.and_eq_true, decide_eq_true_eq] at h
  have hw := (toNat_code h.2).2
  rw [encode, decode_code (show (0x101 : Code).toNat < _ from hw), classify_end (by rw [eoiOf, h.1]; rfl)]
  simp [endRow, h.1]

theorem litM8 (b : BitVec 8) : Statement (.litM8 b) := by
  intro x h
  simp only [Instr.wf, hasM, Bool.and_eq_true, decide_eq_true_eq] at h
  have hb := b.isLt
  have hv : (b.setWidth 12).toNat = b.toNat := by rw [BitVec.toNat_setWidth]; omega
  rw [encode, decode_code (by rw [hv]; exact (toNat_code h.2).2), classify_lit (by rw [hv, clrOf, h.1]; omega)]
  have hs : (b.setWidth 12).setWidth 8 = b := by
    apply BitVec.eq_of_toNat_eq
    rw [BitVec.toNat_setWidth, hv]; omega
  simp only [litRow, h.1, hs]

theorem start : Statement .start := fun _ _ => rfl

theorem skip : Statement .skip := fun _ _ => rfl

theorem nop : Statement .nop := fun _ _ => rfl

theorem nop3 : Statement .nop3 := fun _ _ => rfl

end Sys2Proof.Laws.RoundTrip
end

