-- ==== Sys2Proof/Laws/Reader.lean ====
section
/-! SUPPORT. The reader and the fetch: one lemma for everything `NextByte()` can do, the bit accumulator as arithmetic, and
what a fetch leaves unchanged. -/

namespace Sys2Proof.Machine

theorem State.inByte_some {s : State} {b : Byte} (h : s.inp[s.ipos]? = some b) : s.inByte = .byte b := by
  simp [State.inByte, h]

theorem State.inByte_none {s : State} (h : s.inp[s.ipos]? = none) : s.inByte = .exhausted := by
  simp [State.inByte, h]

/-- Everything `NextByte()` can answer (R80, R84, R85), with the state it leaves. -/
theorem State.nextByte_cases (s : State) :
    (s.closed = true ∧ s.nextByte = .endChain s) ∨
    (s.closed = false ∧ s.inp[s.ipos]? = none ∧ s.nextByte = .exhausted s) ∨
    (s.closed = false ∧ s.blkrem = 0 ∧ s.inp[s.ipos]? = some 0 ∧ s.nextByte = .endChain s.takeTerm) ∨
    (∃ len : Byte, s.closed = false ∧ s.blkrem = 0 ∧ len ≠ 0 ∧ s.inp[s.ipos]? = some len ∧
      s.inp[s.ipos + 1]? = none ∧ s.nextByte = .exhausted (s.takeLen len)) ∨
    (∃ len b : Byte, s.closed = false ∧ s.blkrem = 0 ∧ len ≠ 0 ∧ s.inp[s.ipos]? = some len ∧
      s.inp[s.ipos + 1]? = some b ∧ s.nextByte = .byte b (s.takeLen len).takeData) ∨
    (∃ b : Byte, s.closed = false ∧ s.blkrem ≠ 0 ∧ s.inp[s.ipos]? = some b ∧ s.nextByte = .byte b s.takeData) := by
  cases hc : s.closed with
  | true => exact .inl ⟨rfl, by simp [State.nextByte, hc]⟩
  | false =>
    right
    by_cases hb : s.blkrem = 0
    · cases hi : s.inp[s.ipos]? with
      | none => exact .inl ⟨rfl, rfl, by
        simp only [State.nextByte, hc, hb, State.inByte_none hi, if_true, if_false, Bool.false_eq_true]⟩
      | some len =>
        right
        by_cases hl : len = 0
        · subst hl
          exact .inl ⟨rfl, hb, rfl, by
          simp only [State.nextByte, hc, hb, State.inByte_some hi, if_true, if_false, Bool.false_eq_true]⟩
        · right
          cases hj : s.inp[s.ipos + 1]? with
          | none =>
            refine .inl ⟨len, rfl, hb, hl, rfl, rfl, ?_⟩
            have : (s.takeLen len).inByte = .exhausted := State.inByte_none (by simpa using hj)
            simp only [State.nextByte, hc, hb, State.inByte_some hi, hl, State.readData, this, if_true, if_false, Bool.false_eq_true]
          | some b =>
            refine .inr (.inl ⟨len, b, rfl, hb, hl, rfl, rfl, ?_⟩)
            have : (s.takeLen len).inByte = .byte b := State.inByte_some (by simpa using hj)
            simp only [State.nextByte, hc, hb, State.inByte_some hi, hl, State.readData, this, if_true, if_false, Bool.false_eq_true]
    · cases hi : s.inp[s.ipos]? with
      | none => exact .inl ⟨rfl, rfl, by
        simp only [State.nextByte, hc, hb, State.readData, State.inByte_none hi, if_false, Bool.false_eq_true]⟩
      | some b =>
        exact .inr (.inr (.inr (.inr ⟨b, rfl, hb, rfl, by
          simp only [State.nextByte, hc, hb, State.readData, State.inByte_some hi, if_false, Bool.false_eq_true]⟩)))

/-! ### The bit accumulator as arithmetic -/

/-- A byte enters above the bits held, without a wrap (R91, R110). -/
theorem State.gather_value {s : State} (b : Byte) (hn : s.nbits.toNat ≤ 11) (hb : s.bitbuf.toNat < 2 ^ s.nbits.toNat) :
    (s.gather b).nbits.toNat = s.nbits.toNat + 8 ∧
    (s.gather b).bitbuf.toNat = s.bitbuf.toNat + b.toNat * 2 ^ s.nbits.toNat ∧
    (s.gather b).bitbuf.toNat < 2 ^ (s.nbits.toNat + 8) := by
  have h8 := b.isLt
  have hval : (b.setWidth 19 <<< s.nbits.toNat).toNat = b.toNat * 2 ^ s.nbits.toNat := by
    have hp : 2 ^ s.nbits.toNat ≤ 2 ^ 11 := Nat.pow_le_pow_right (by decide) hn
    have hm : b.toNat * 2 ^ s.nbits.toNat < 2 ^ 19 :=
      calc b.toNat * 2 ^ s.nbits.toNat ≤ b.toNat * 2 ^ 11 := Nat.mul_le_mul_left _ hp
        _ < 2 ^ 19 := by omega
    rw [BitVec.toNat_shiftLeft, BitVec.toNat_setWidth, Nat.mod_eq_of_lt (a := b.toNat) (by omega), Nat.shiftLeft_eq,
      Nat.mod_eq_of_lt hm]
  have hor : (s.gather b).bitbuf.toNat = s.bitbuf.toNat + b.toNat * 2 ^ s.nbits.toNat := by
    rw [State.gather_bitbuf, BitVec.toNat_or, hval, Nat.or_comm, Nat.mul_comm, ← Nat.two_pow_add_eq_or_of_lt hb]
    omega
  refine ⟨?_, hor, ?_⟩
  · rw [State.gather_nbits, BitVec.toNat_add]
    have : (8 : BitVec 5).toNat = 8 := rfl
    omega
  · rw [hor, Nat.pow_add]
    have : b.toNat * 2 ^ s.nbits.toNat + 2 ^ s.nbits.toNat ≤ 2 ^ s.nbits.toNat * 2 ^ 8 := by
      rw [Nat.mul_comm (2 ^ s.nbits.toNat), ← Nat.succ_mul]
      exact Nat.mul_le_mul_right _ (by omega)
    omega

/-- Two rounds of the fetch loop are enough in every state: the loop never stops for want of rounds (R91 "never 3"). -/
theorem State.gather_two_rounds {s t : State} (h : s.gatherBits 2 = .ready t) : t.w.toNat ≤ t.nbits.toNat := by
  have hw := s.w.isLt
  have step8 : ∀ (u : State) (b : Byte), u.nbits.toNat ≤ 22 → (u.gather b).nbits.toNat = u.nbits.toNat + 8 := by
    intro u b hu
    rw [State.gather_nbits, BitVec.toNat_add]
    have : (8 : BitVec 5).toNat = 8 := rfl
    omega
  have same : ∀ (u v : State) (b : Byte), u.nextByte = .byte b v → v.nbits = u.nbits ∧ v.w = u.w := by
    intro u v b hv
    rcases u.nextByte_cases with ⟨_, hu⟩ | ⟨_, _, hu⟩ | ⟨_, _, _, hu⟩ | ⟨_, _, _, _, _, _, hu⟩ |
      ⟨_, _, _, _, _, _, _, hu⟩ | ⟨_, _, _, _, hu⟩ <;> rw [hu] at hv <;> cases hv <;> simp
  simp only [State.gatherBits] at h
  by_cases h1 : s.nbits.toNat < s.w.toNat
  · rw [if_pos h1] at h
    cases hb : s.nextByte with
    | exhausted u => rw [hb] at h; cases h
    | endChain u => rw [hb] at h; cases h
    | byte b u =>
      rw [hb] at h
      simp only at h
      obtain ⟨un, uw⟩ := same s u b hb
      have hg := step8 u b (by rw [un]; omega)
      by_cases h2 : (u.gather b).nbits.toNat < (u.gather b).w.toNat
      · rw [if_pos h2] at h
        cases hb2 : (u.gather b).nextByte with
        | exhausted v => rw [hb2] at h; cases h
        | endChain v => rw [hb2] at h; cases h
        | byte b2 v =>
          rw [hb2] at h
          cases h
          obtain ⟨vn, vw⟩ := same (u.gather b) v b2 hb2
          have hg2 := step8 v b2 (by rw [vn]; simp only [State.gather_w, uw] at h2; omega)
          rw [hg2, vn, hg, un, State.gather_w, vw, State.gather_w, uw]
          omega
      · rw [if_neg h2] at h; cases h; omega
  · rw [if_neg h1] at h; cases h; omega

end Sys2Proof.Machine
end

