-- ==== Sys2Proof/Laws/Stream.lean ====
section
/-! SUPPORT. The reader against the flat stream: what one `NextByte()` does to the flat bytes still to be delivered and to the
end of the chain, and what the gathering loop of the fetch keeps. -/

namespace Sys2Proof.Machine

theorem State.unread_cons {s : State} {b : Byte} (h : s.inp[s.ipos]? = some b) :
    s.unread = b :: s.inp.drop (s.ipos + 1) := by
  have hl := (List.getElem?_eq_some_iff.1 h).1
  have := (List.getElem?_eq_some_iff.1 h).2
  simp only [State.unread, ← this]
  rw [← List.drop_eq_getElem_cons hl]

theorem State.unread_nil {s : State} (h : s.inp[s.ipos]? = none) : s.unread = [] := by
  have := List.getElem?_eq_none_iff.1 h
  simp [State.unread, this]

theorem flatOf_zero (b : Byte) (rest : List Byte) :
    flatOf 0 (b :: rest) = if b = 0 then [] else flatOf b.toNat rest := rfl

@[simp] theorem flatOf_nil (n : Nat) : flatOf n [] = [] := by cases n <;> rfl

@[simp] theorem chainEnd_nil (n : Nat) : chainEnd n [] = none := by cases n <;> rfl

theorem chainEnd_zero (b : Byte) (rest : List Byte) :
    chainEnd 0 (b :: rest) = if b = 0 then some 1 else (chainEnd b.toNat rest).map (· + 1) := rfl

theorem flatOf_pos {n : Nat} (h : n ≠ 0) (b : Byte) (rest : List Byte) :
    flatOf n (b :: rest) = b :: flatOf (n - 1) rest := by
  cases n with
  | zero => exact absurd rfl h
  | succ n => rfl

theorem chainEnd_pos {n : Nat} (h : n ≠ 0) (b : Byte) (rest : List Byte) :
    chainEnd n (b :: rest) = (chainEnd (n - 1) rest).map (· + 1) := by
  cases n with
  | zero => exact absurd rfl h
  | succ n => rfl

theorem byte_toNat_ne {b : Byte} (h : b ≠ 0) : b.toNat ≠ 0 := fun hh => h (BitVec.eq_of_toNat_eq hh)

theorem byte_pred_toNat {b : Byte} (h : b ≠ 0) : (b - 1).toNat = b.toNat - 1 := by
  have := byte_toNat_ne h
  rw [BitVec.toNat_sub]
  have : (1 : Byte).toNat = 1 := rfl
  omega

/-- `NextByte()` against the flat stream (R63, R80): it reports the end of the chain only when nothing is left and the
terminator is there, exhaustion only when nothing is left and it is not, and else delivers the next flat byte, counting the
bytes it consumed off the end of the chain. -/
theorem State.nextByte_flat (s : State) :
    (∃ t, s.nextByte = .endChain t ∧ s.flat = [] ∧ s.terminated = true ∧ t.closed = true ∧
      (s.closed = false → chainEnd s.blkrem.toNat s.unread = some 1 ∧ s.blkrem = 0 ∧ t = s.takeTerm)) ∨
    (∃ t, s.nextByte = .exhausted t ∧ s.flat = [] ∧ s.terminated = false ∧ t.inp.length ≤ t.ipos ∧ s.closed = false ∧
      chainEnd s.blkrem.toNat s.unread = none ∧ t = { s with blkrem := t.blkrem, ipos := t.ipos } ∧ s.ipos ≤ t.ipos ∧
      (s.ipos ≤ s.inp.length → t.ipos = s.inp.length)) ∨
    (∃ b t, s.nextByte = .byte b t ∧ s.flat = b :: t.flat ∧ t.terminated = s.terminated ∧ s.closed = false ∧
      s.ipos < t.ipos ∧ t.ipos ≤ s.inp.length ∧
      chainEnd s.blkrem.toNat s.unread = (chainEnd t.blkrem.toNat t.unread).map (· + (t.ipos - s.ipos)) ∧
      t = { s with blkrem := t.blkrem, ipos := t.ipos }) := by
  rcases s.nextByte_cases with ⟨hc, hu⟩ | ⟨hc, hn, hu⟩ | ⟨hc, hb, hi, hu⟩ | ⟨len, hc, hb, hl, hi, hj, hu⟩ |
      ⟨len, b, hc, hb, hl, hi, hj, hu⟩ | ⟨b, hc, hb, hi, hu⟩
  · exact .inl ⟨s, hu, by simp [State.flat, hc], by simp [State.terminated, hc], hc, by simp [hc]⟩
  · have hx := List.getElem?_eq_none_iff.1 hn
    exact .inr (.inl ⟨s, hu, by simp [State.flat, hc, State.unread_nil hn],
      by simp [State.terminated, hc, State.unread_nil hn], hx, hc, by simp [State.unread_nil hn], rfl, le_refl _, by omega⟩)
  · exact .inl ⟨_, hu, by simp [State.flat, hc, State.unread_cons hi, hb, flatOf_zero],
      by simp [State.terminated, hc, State.unread_cons hi, hb, chainEnd_zero], rfl,
      fun _ => ⟨by simp [State.unread_cons hi, hb, chainEnd_zero], hb, rfl⟩⟩
  · have hx := List.getElem?_eq_none_iff.1 hj
    have hx0 := (List.getElem?_eq_some_iff.1 hi).1
    have hd : s.inp.drop (s.ipos + 1) = [] := by simp [hx]
    have hl' : ¬ len = 0#8 := hl
    refine .inr (.inl ⟨_, hu, by simp [State.flat, hc, State.unread_cons hi, hb, flatOf_zero, hd],
      by simp [State.terminated, hc, State.unread_cons hi, hb, chainEnd_zero, hd, hl'], hx, hc,
      by simp [State.unread_cons hi, hb, chainEnd_zero, hd, hl'], rfl, Nat.le_succ _, ?_⟩)
    intro _
    show s.ipos + 1 = _
    omega
  · have hx1 := (List.getElem?_eq_some_iff.1 hj).1
    have hd : s.inp.drop (s.ipos + 1) = b :: s.inp.drop (s.ipos + 2) := by
      have := State.unread_cons (s := s.advance) (by simpa using hj)
      simpa [State.unread] using this
    have h1 : (s.takeLen len).takeData.unread = s.inp.drop (s.ipos + 2) := rfl
    refine .inr (.inr ⟨b, _, hu, ?_, ?_, hc, ?_, hx1, ?_, rfl⟩)
    · simp only [State.flat, hc, Bool.false_eq_true, if_false, State.unread_cons hi, hb, State.takeData_closed,
        State.takeLen_closed, h1]
      show flatOf 0 _ = _
      rw [flatOf_zero, if_neg hl, hd, flatOf_pos (byte_toNat_ne hl), State.takeData_blkrem, State.takeLen_blkrem,
        byte_pred_toNat hl]
    · simp only [State.terminated, hc, State.unread_cons hi, hb, State.takeData_closed, State.takeLen_closed, h1,
        Bool.false_or]
      show _ = (chainEnd 0 _).isSome
      rw [chainEnd_zero, if_neg hl, hd, chainEnd_pos (byte_toNat_ne hl), State.takeData_blkrem, State.takeLen_blkrem,
        byte_pred_toNat hl]
      cases chainEnd (len.toNat - 1) (List.drop (s.ipos + 2) s.inp) <;> rfl
    · show s.ipos < s.ipos + 1 + 1
      omega
    · rw [State.unread_cons hi, hb, h1]
      show chainEnd 0 _ = Option.map (· + (s.ipos + 1 + 1 - s.ipos)) _
      rw [chainEnd_zero, if_neg hl, hd, chainEnd_pos (byte_toNat_ne hl), State.takeData_blkrem, State.takeLen_blkrem,
        byte_pred_toNat hl, show s.ipos + 1 + 1 - s.ipos = 2 by omega]
      cases chainEnd (len.toNat - 1) (List.drop (s.ipos + 2) s.inp) <;> rfl
  · have hx0 := (List.getElem?_eq_some_iff.1 hi).1
    have h1 : s.takeData.unread = s.inp.drop (s.ipos + 1) := rfl
    refine .inr (.inr ⟨b, _, hu, ?_, ?_, hc, Nat.lt_succ_self _, hx0, ?_, rfl⟩)
    · simp only [State.flat, hc, Bool.false_eq_true, if_false, State.unread_cons hi, State.takeData_closed, h1]
      rw [flatOf_pos (byte_toNat_ne hb), State.takeData_blkrem, byte_pred_toNat hb]
    · simp only [State.terminated, hc, State.unread_cons hi, State.takeData_closed, h1, Bool.false_or]
      rw [chainEnd_pos (byte_toNat_ne hb), State.takeData_blkrem, byte_pred_toNat hb, Option.isSome_map]
    · rw [State.unread_cons hi, h1, chainEnd_pos (byte_toNat_ne hb), State.takeData_blkrem, byte_pred_toNat hb]
      show _ = Option.map (· + (s.ipos + 1 - s.ipos)) _
      rw [show s.ipos + 1 - s.ipos = 1 by omega]

/-! ### The gathering loop -/

/-- `t` is a state that the gathering loop passes through from `s`: the same bits to come, more of them held. -/
structure Held (s t : State) : Prop where
  pend  : t.pending = s.pending
  bits  : t.pendingBits = s.pendingBits
  hi    : t.bitbuf.toNat < 2 ^ t.nbits.toNat
  count : t.nbits.toNat < s.w.toNat + 8 ∨ t.nbits = s.nbits
  frame : t = { s with bitbuf := t.bitbuf, nbits := t.nbits, ipos := t.ipos, blkrem := t.blkrem }
  chain : chainEnd s.blkrem.toNat s.unread = (chainEnd t.blkrem.toNat t.unread).map (· + (t.ipos - s.ipos))
  pos   : s.ipos ≤ t.ipos
  term  : t.terminated = s.terminated

theorem Held.refl {s : State} (h : s.bitbuf.toNat < 2 ^ s.nbits.toNat) : Held s s :=
  ⟨rfl, rfl, h, .inr rfl, rfl, by simp, le_refl _, rfl⟩

theorem Held.trans {s t u : State} (h1 : Held s t) (h2 : Held t u) : Held s u := by
  have hw : t.w = s.w := by rw [h1.frame]
  refine ⟨h2.pend.trans h1.pend, h2.bits.trans h1.bits, h2.hi, ?_, ?_, ?_, h1.pos.trans h2.pos, h2.term.trans h1.term⟩
  · rcases h2.count with h | h
    · exact .inl (hw ▸ h)
    · rcases h1.count with h' | h'
      · exact .inl (by rw [h]; exact h')
      · exact .inr (h.trans h')
  · have h3 := h2.frame
    rw [h1.frame] at h3
    exact h3
  · rw [h1.chain, h2.chain]
    have := h1.pos
    have := h2.pos
    cases chainEnd u.blkrem.toNat u.unread <;> simp
    omega

/-- One round of the loop: a byte of the stream enters the accumulator. -/
theorem State.held_of_byte {s t : State} {b : Byte} (hn : s.nbits.toNat < s.w.toNat) (hw : s.w.toNat ≤ 12)
    (hb : s.bitbuf.toNat < 2 ^ s.nbits.toNat) (h : s.nextByte = .byte b t) :
    Held s (t.gather b) ∧ (t.gather b).nbits.toNat = s.nbits.toNat + 8 ∧ s.ipos < t.ipos ∧ t.ipos ≤ s.inp.length := by
  rcases s.nextByte_flat with ⟨t', h', _⟩ | ⟨t', h', _⟩ | ⟨b', t', h', a, c, hc, hp, hq, hch, hf⟩
  · rw [h] at h'; cases h'
  · rw [h] at h'; cases h'
  · rw [h] at h'
    cases h'
    have e1 : t.nbits = s.nbits := by rw [hf]
    have e2 : t.bitbuf = s.bitbuf := by rw [hf]
    obtain ⟨g1, g2, g3⟩ := State.gather_value (s := t) b (by rw [e1]; omega) (by rw [e1, e2]; exact hb)
    rw [e1] at g1 g2 g3
    rw [e2] at g2
    have hflat : (t.gather b).flat = t.flat := rfl
    refine ⟨⟨?_, ?_, by rw [g1]; exact g3, .inl (by omega), ?_, hch, Nat.le_of_lt hp, c⟩, g1, hp, hq⟩
    · simp only [State.pending, hflat, a, flatValue, g1, g2]
      rw [Nat.pow_add]
      ring
    · simp only [State.pendingBits, hflat, a, g1, List.length_cons]
      ring
    · conv_lhs => rw [hf]
      simp [State.gather, e1, e2]

/-- The whole loop: enough bits are held, or the stream ended in the round that the state `t` names. -/
theorem State.gatherBits_spec (n : Nat) {s : State} (hw : s.w.toNat ≤ 12) (hb : s.bitbuf.toNat < 2 ^ s.nbits.toNat)
    (hr : s.w.toNat ≤ s.nbits.toNat + 8 * n) (hpos : s.ipos ≤ s.inp.length) :
    (∃ t, s.gatherBits n = .ready t ∧ Held s t ∧ s.w.toNat ≤ t.nbits.toNat ∧ t.ipos ≤ s.inp.length ∧
      (t = s ∨ s.ipos < t.ipos)) ∨
    (∃ t u, Held s t ∧ t.flat = [] ∧ t.nbits.toNat < s.w.toNat ∧ t.ipos ≤ s.inp.length ∧
      ((t.nextByte = .endChain u ∧ s.gatherBits n = .ended u.finish) ∨
       (t.nextByte = .exhausted u ∧ s.gatherBits n = .ended (u.halt .truncated)))) := by
  induction n generalizing s with
  | zero => exact .inl ⟨s, rfl, .refl hb, by omega, hpos, .inl rfl⟩
  | succ n ih =>
    simp only [State.gatherBits]
    by_cases h : s.nbits.toNat < s.w.toNat
    · rw [if_pos h]
      rcases s.nextByte_flat with ⟨u, h', a, _⟩ | ⟨u, h', a, _⟩ | ⟨b, t, h', _⟩
      · exact .inr ⟨s, u, .refl hb, a, h, hpos, .inl ⟨h', by rw [h']⟩⟩
      · exact .inr ⟨s, u, .refl hb, a, h, hpos, .inr ⟨h', by rw [h']⟩⟩
      · obtain ⟨hh, hn, hp, hq⟩ := State.held_of_byte h hw hb h'
        have hw' : (t.gather b).w = s.w := by rw [hh.frame]
        have hi' : (t.gather b).inp = s.inp := by rw [hh.frame]
        rw [h']
        rcases ih (s := t.gather b) (by rw [hw']; exact hw) hh.hi (by rw [hw', hn]; omega) (by rw [hi']; exact hq) with
          ⟨v, e, hv, hx, hy, _⟩ | ⟨v, u, hv, hx, hy, hz, hor⟩
        · exact .inl ⟨v, e, hh.trans hv, by rw [← hw']; exact hx, by rw [← hi']; exact hy,
            .inr (Nat.lt_of_lt_of_le hp hv.pos)⟩
        · exact .inr ⟨v, u, hh.trans hv, hx, by rw [← hw']; exact hy, by rw [← hi']; exact hz, hor⟩
    · rw [if_neg h]
      exact .inl ⟨s, rfl, .refl hb, by omega, hpos, .inl rfl⟩

end Sys2Proof.Machine
end

