-- ==== Sys2Proof/Laws/Strings.lean ====
section
/-! SUPPORT. The strings of codes: the stack walk computes the relation `StringIs`, the first-byte walk its first byte, and
under the dictionary invariant both walks end. -/

namespace Sys2Proof.Machine

/-- A code has at most one string. -/
theorem StringIs.unique {d : DictMem} {clr : Nat} {k : Code} {a b : List Byte}
    (ha : StringIs d clr k a) (hb : StringIs d clr k b) : a = b := by
  induction ha generalizing b with
  | literal k h =>
    cases hb with
    | literal _ _ => rfl
    | entry _ _ h' _ => omega
  | entry k str h _ ih =>
    cases hb with
    | literal _ h' => omega
    | entry _ _ _ hs => rw [ih hs]

/-- A string is never empty. -/
theorem StringIs.ne_nil {d : DictMem} {clr : Nat} {k : Code} {a : List Byte} (h : StringIs d clr k a) : a ≠ [] := by
  cases h <;> simp

/-- What already lies on the stack stays under the string. -/
theorem walkString_stack (n : Nat) (d : DictMem) (clr : Nat) (k : Code) (stack : List Byte) :
    walkString n d clr k stack = (walkString n d clr k []).map (· ++ stack) := by
  induction n generalizing k stack with
  | zero => rfl
  | succ n ih =>
    simp only [walkString]
    split
    · rfl
    · rw [ih _ (_ :: stack), ih _ [_]]
      cases walkString n d clr (DictMem.entry d k.toNat).pfx [] <;> simp

/-- The walk computes the string of the rule R93. -/
theorem walkString_sound {n : Nat} {d : DictMem} {clr : Nat} {k : Code} {str : List Byte}
    (h : walkString n d clr k [] = some str) : StringIs d clr k str := by
  induction n generalizing k str with
  | zero => simp [walkString] at h
  | succ n ih =>
    simp only [walkString] at h
    split at h
    · rename_i hk
      cases h
      exact .literal k hk
    · rename_i hk
      rw [walkString_stack] at h
      cases hw : walkString n d clr (DictMem.entry d k.toNat).pfx [] with
      | none => simp [hw] at h
      | some rest =>
        simp only [hw, Option.map_some, Option.some.injEq] at h
        subst h
        exact .entry k rest (by omega) (ih hw)

/-- The walk finds the string of the rule whenever there is room for its bytes. -/
theorem walkString_complete {d : DictMem} {clr : Nat} {k : Code} {str : List Byte} (h : StringIs d clr k str) {n : Nat}
    (hn : str.length ≤ n) : walkString n d clr k [] = some str := by
  induction h generalizing n with
  | literal k hk =>
    cases n with
    | zero => simp at hn
    | succ n => simp [walkString, hk]
  | entry k str hge _ ih =>
    cases n with
    | zero => simp at hn
    | succ n =>
      simp only [List.length_append, List.length_cons, List.length_nil] at hn
      rw [walkString, if_neg (by omega), walkString_stack, ih (by omega)]
      rfl

/-- The first-byte walk finds the first byte of the string. -/
theorem walkFirst_of_walkString {n : Nat} {d : DictMem} {clr : Nat} {k : Code} {f : Byte} {rest : List Byte}
    (h : walkString n d clr k [] = some (f :: rest)) : walkFirst n d clr k = some f := by
  induction n generalizing k f rest with
  | zero => simp [walkString] at h
  | succ n ih =>
    simp only [walkString] at h
    simp only [walkFirst]
    split at h
    · rename_i hk
      cases h
      rw [if_pos hk]
    · rename_i hk
      rw [if_neg hk]
      rw [walkString_stack] at h
      cases hw : walkString n d clr (DictMem.entry d k.toNat).pfx [] with
      | none => simp [hw] at h
      | some str =>
        cases str with
        | nil => exact absurd rfl (walkString_sound hw).ne_nil
        | cons g tail =>
          simp only [hw, Option.map_some, Option.some.injEq, List.cons_append, List.cons.injEq] at h
          rw [ih hw, h.1]

/-- With room for `k + 1` pushes the walk from `k` ends, in a dictionary whose prefixes descend (R29 item 6). -/
theorem walkString_ends {s : State} (hd : DictOk s) {n : Nat} {k : Code} (hk : s.stringCode k) (hn : k.toNat < n) :
    ∃ f rest, walkString n s.dict s.clr k [] = some (f :: rest) := by
  induction n generalizing k with
  | zero => omega
  | succ n ih =>
    simp only [walkString]
    by_cases hlit : k.toNat < s.clr
    · exact ⟨k.setWidth 8, [], by simp [hlit]⟩
    · have hk' : s.first ≤ k.toNat ∧ k.toNat < s.next.toNat := hk.resolve_left hlit
      obtain ⟨e, he, hlt, hclr, heoi, _⟩ := hd k.toNat hk'.1 hk'.2
      have hp : s.stringCode e.pfx := by
        simp only [State.stringCode, State.clr, State.eoi, State.first, clrOf, eoiOf, firstOf] at *
        omega
      obtain ⟨f, rest, hw⟩ := ih hp (by omega)
      rw [if_neg hlit, DictMem.entry_of_find he, walkString_stack, hw]
      exact ⟨f, rest ++ [e.byte], rfl⟩

/-- A code is below 4096, so the whole stack and the whole table are room enough. -/
theorem code_lt_table (k : Code) : k.toNat < 4096 := k.isLt

/-- The string and the first byte of a code, from the dictionary invariant. -/
theorem string_of_dictOk {s : State} (hd : DictOk s) {k : Code} (hk : s.stringCode k) :
    ∃ f rest, s.string k = some (f :: rest) ∧ s.firstByte k = some f ∧ StringIs s.dict s.clr k (f :: rest) := by
  obtain ⟨f, rest, hw⟩ := walkString_ends hd hk (n := 4096) k.isLt
  exact ⟨f, rest, hw, walkFirst_of_walkString hw, walkString_sound hw⟩

/-- Each byte of a string but the first is one step down the prefix chain, which descends. -/
theorem StringIs.length_le {s : State} (hd : DictOk s) {k : Code} {str : List Byte} (hk : s.stringCode k)
    (h : StringIs s.dict s.clr k str) : str.length ≤ k.toNat + 1 := by
  generalize hn : k.toNat = n
  induction n using Nat.strong_induction_on generalizing k str with
  | _ n ih =>
    cases h with
    | literal _ hlit => simp
    | entry _ str hge hs =>
      have hk' : s.first ≤ k.toNat ∧ k.toNat < s.next.toNat := hk.resolve_left (by omega)
      obtain ⟨x, hx, hlt, hclr, heoi, _⟩ := hd k.toNat hk'.1 hk'.2
      rw [DictMem.entry_of_find hx] at hs
      have := ih x.pfx.toNat (by omega) (by
        simp only [State.stringCode, State.clr, State.eoi, State.first, clrOf, eoiOf, firstOf] at *
        omega) hs rfl
      simp only [List.length_append, List.length_cons, List.length_nil]
      omega

/-- With an empty stack, pushing a string leaves exactly that string on it. -/
theorem pushString_of_string {s : State} {k : Code} {str : List Byte} (hs : s.stack = [])
    (h : s.string k = some str) : s.pushString k = some { s with stack := str } := by
  simp only [State.string] at h
  simp [State.pushString, hs, h]

/-- The string of a literal or an assigned entry is not changed by the write of an append, which is at `NEXT` (R95). -/
theorem StringIs.append_keeps {s : State} (hd : DictOk s) {k : Code} {str : List Byte} (e : DictEntry)
    (hk : s.stringCode k) (h : StringIs s.dict s.clr k str) :
    StringIs (DictMem.set s.dict s.next.toNat e) s.clr k str := by
  generalize hn : k.toNat = n
  induction n using Nat.strong_induction_on generalizing k str with
  | _ n ih =>
    cases h with
    | literal _ hlit => exact .literal k hlit
    | entry _ str hge hs =>
      have hk' : s.first ≤ k.toNat ∧ k.toNat < s.next.toNat := hk.resolve_left (by omega)
      obtain ⟨x, hx, hlt, hclr, heoi, _⟩ := hd k.toNat hk'.1 hk'.2
      have hent := DictMem.entry_set_other s.dict s.next.toNat k.toNat e (by omega)
      rw [← hent]
      refine .entry k str hge ?_
      rw [hent, DictMem.entry_of_find hx]
      rw [DictMem.entry_of_find hx] at hs
      refine ih x.pfx.toNat (by omega) ?_ hs rfl
      simp only [State.stringCode, State.clr, State.eoi, State.first, clrOf, eoiOf, firstOf] at *
      omega

/-- Popping a pushed string is the emission of the string (R94). -/
theorem popEmit_of_push {s : State} (hs : s.stack = []) (str : List Byte) :
    State.popEmit { s with stack := str } = s.emit str := by
  simp only [State.popEmit]
  congr 1
  cases s
  simp only [State.mk.injEq, true_and, and_true] at hs ⊢
  exact hs.symm

/-- `ExecKnown(c)` (R97) where the string of `c` and its first byte are known. -/
theorem knownCode_of_string {s : State} {c : Code} {f : Byte} {rest : List Byte} (hs : s.stack = [])
    (h : s.string c = some (f :: rest)) (hf : s.firstByte c = some f) :
    knownCode c s = .next (s.afterKnown c f rest) := by
  have hf' : (s.emit (f :: rest)).firstByte c = some f := by simpa [State.firstByte, State.clr] using hf
  simp only [knownCode, pushString_of_string hs h, popEmit_of_push hs, State.afterKnown, hf', State.emit_prevv,
    State.emit_next, State.emit_prev]
  split <;> rfl

/-- `ExecKwKwK(c)` (R99) where the string of `PREV` is `f :: rest` and `c` is the slot it is appended at. -/
theorem kwkwkCode_of_string {s : State} {c : Code} {f : Byte} {rest : List Byte} (hs : s.stack = [])
    (hf : s.firstByte s.prev = some f) (h : (s.append s.prev f).string c = some (f :: rest ++ [f])) :
    kwkwkCode c s = .next (((s.append s.prev f).emit (f :: rest ++ [f])).setPrev c) := by
  have hs' : (s.append s.prev f).stack = [] := by simpa using hs
  simp only [kwkwkCode, hf, pushString_of_string hs' h, popEmit_of_push hs']

end Sys2Proof.Machine
end

