-- ==== Sys2Proof/Laws/Step.lean ====
section
/-! SUPPORT. What a step can do, said once: whose turn it is, the drain step, the codes that emit a string, the run of a
command. -/

namespace Sys2Proof.Machine

/-- The fields of `blockView` are the state's, the queue apart. -/
theorem State.blockView_eq (s : State) : s.blockView = { s with host := s.blockView.host } := by
  simp only [State.blockView]
  split <;> rfl

/-- When the turn is the block's, the step is a block step (R4). -/
theorem step_of_blockTurn {s : State} (h : s.blockTurn = true) : step s = blockStep s.blockView := by
  simp only [step, stepBody, State.blockTurn, State.blockView] at *
  split at h
  · rename_i e; rw [e]
  · rename_i e; rw [e]
  · rename_i e; rw [e]; simp [h]
  · cases h

/-- When it is not, the host's next operation acts, or a wait ends. -/
theorem step_of_hostTurn {s : State} (h : s.blockTurn = false) :
    ∃ op rest, s.host = op :: rest ∧ op ≠ .letRun ∧ (op = .waitNotBusy → s.busy = false) ∧
      step s = hostOp op { s with host := rest } := by
  simp only [step, stepBody, State.blockTurn] at *
  split at h
  · cases h
  · cases h
  · rename_i rest e; exact ⟨_, rest, e, by simp, fun _ => h, by rw [e]; simp [h, hostOp]⟩
  · rename_i h1 h2 h3
    cases e : s.host with
    | nil => exact absurd e h1
    | cons op rest =>
      refine ⟨op, rest, rfl, fun ho => h2 rest (ho ▸ e), fun ho => absurd (ho ▸ e) (h3 rest), ?_⟩
      cases op <;> first | rfl | exact absurd e (h2 _) | exact absurd e (h3 _)

/-- Everything a drain step can do with an open chain (R86). -/
theorem drainStep_cases {s : State} (hs : s.st = .drain) (hc : s.closed = false) :
    (s.inp[s.ipos]? = none ∧ drainStep s = .next (s.halt .truncated)) ∨
    (s.blkrem = 0 ∧ s.inp[s.ipos]? = some 0 ∧ drainStep s = .next s.takeTerm.finish) ∨
    (∃ len, s.blkrem = 0 ∧ s.inp[s.ipos]? = some len ∧ len ≠ 0 ∧ drainStep s = .next (s.takeLen len)) ∨
    (∃ b, s.blkrem ≠ 0 ∧ s.inp[s.ipos]? = some b ∧ drainStep s = .next s.takeData) := by
  have hb : s.busy = true := by simp [State.busy, hs]
  cases h : s.inp[s.ipos]? with
  | none => exact .inl ⟨rfl, by simp [drainStep, hc, State.inByte_none h]⟩
  | some b =>
    right
    by_cases h0 : s.blkrem = 0
    · by_cases hl : b = 0
      · subst hl
        exact .inl ⟨h0, rfl, by
          simp [drainStep, hc, State.inByte_some h, runItem, decode, State.ctx, classifySb, h0, exec, execSbTerm, hb]⟩
      · have hl' : ¬ b = 0#8 := hl
        exact .inr (.inl ⟨b, h0, rfl, hl, by
          simp [drainStep, hc, State.inByte_some h, runItem, decode, State.ctx, classifySb, h0, hl', exec, execSbLen]⟩)
    · have h0' : ¬ s.blkrem = 0#8 := h0
      exact .inr (.inr ⟨b, h0, rfl, by
        simp [drainStep, hc, State.inByte_some h, runItem, decode, State.ctx, classifySb, h0', exec, execSbData, hs]⟩)

/-- Everything `ExecKnown` answers with a next state (R97): the bytes `str` of the walk are offered to the output with the stack
emptied, and an entry is appended or not. -/
theorem knownCode_cases {c : Code} {s t : State} (h : knownCode c s = .next t) :
    ∃ str u, u = State.emit str { s with stack := [] } ∧
      ((s.prevv = true ∧ s.next.toNat < 4096 ∧ ∃ f, t = (u.append s.prev f).setPrev c) ∨
       (¬ (s.prevv = true ∧ s.next.toNat < 4096) ∧ t = u.setPrev c)) := by
  simp only [knownCode, State.pushString] at h
  split at h
  · cases h
  · rename_i pushed hp
    split at hp
    · rename_i str hw
      cases hp
      refine ⟨str, _, rfl, ?_⟩
      simp only [State.popEmit, State.emit_prevv, State.emit_next, State.emit_prev] at h
      split at h
      · rename_i hc
        split at h
        · cases h
        · cases h; exact .inl ⟨hc.1, hc.2, _, rfl⟩
      · rename_i hc
        cases h; exact .inr ⟨hc, rfl⟩
    · cases hp

/-- Everything `ExecKwKwK` answers with a next state (R99). -/
theorem kwkwkCode_cases {c : Code} {s t : State} (h : kwkwkCode c s = .next t) :
    ∃ f str, t = (State.emit str { s.append s.prev f with stack := [] }).setPrev c := by
  simp only [kwkwkCode, State.pushString] at h
  split at h
  · cases h
  · rename_i f hf
    split at h
    · cases h
    · rename_i pushed hp
      split at hp
      · rename_i str hw
        cases hp
        cases h
        exact ⟨f, str, rfl⟩
      · cases hp

/-! ### The host's operations -/

/-- Everything a command can do: nothing, or, while not busy, begin a decode, halt with `BADPARAM`, or begin a drain. -/
theorem execCmd_cases {v : BitVec 2} {s t : State} (h : exec (classifyCmd v) s = .next t) :
    t = s ∨
    (s.busy = false ∧
      ((v.toNat = 1 ∧ legalM s.m = true ∧ s.olen.toNat ≤ s.outLen ∧ t = s.startDecode) ∨
       (v.toNat = 1 ∧ legalM s.m = false ∧ t = s.startIllegal) ∨
       (v.toNat = 2 ∧ t = s.startDrain))) := by
  simp only [classifyCmd] at h
  split at h
  · cases h; exact .inl rfl
  · rename_i hv
    simp only [exec, execStart] at h
    cases hb : s.busy <;> cases hm : legalM s.m <;>
      simp only [hb, hm, if_true, if_false, Bool.false_eq_true] at h
    · cases h; exact .inr ⟨rfl, .inr (.inl ⟨hv, rfl, rfl⟩)⟩
    · split at h
      · rename_i hl; cases h; exact .inr ⟨rfl, .inl ⟨hv, rfl, hl, rfl⟩⟩
      · cases h
    · cases h; exact .inl rfl
    · cases h; exact .inl rfl
  · rename_i hv
    simp only [exec, execSkip] at h
    cases hb : s.busy <;> simp only [hb, if_true, if_false, Bool.false_eq_true] at h
    · cases h; exact .inr ⟨rfl, .inr (.inr ⟨hv, rfl⟩)⟩
    · cases h; exact .inl rfl
  · cases h; exact .inl rfl

/-- Everything a host operation answers with a next state: a reset, a command, new operands of the next command, a filled output
byte, or a read. -/
theorem hostOp_cases {op : HostOp} {s t : State} (h : hostOp op s = .next t) :
    (op = .reset ∧ t = s.resetBlock) ∨
    (∃ v : Word, op = .write 0x00 v ∧ exec (classifyCmd (v.setWidth 2)) s = .next t) ∨
    (s.busy = false ∧ ∃ m olen inp base len,
      t = { s with m := m, olen := olen, inp := inp, outBase := base, outLen := len } ∧
      ((base = s.outBase ∧ len = s.outLen) ∨ op = .bindOut base len)) ∨
    (∃ a v, op = .writeOut a v ∧ s.busy = false ∧ a < s.outLen ∧
      t = { s with out := Memory.write s.out (s.outBase + a) v }) ∨
    (∃ r n, t = { s with rdata := r, freeCtr := n }) := by
  cases op with
  | write off v =>
    simp only [hostOp] at h
    cases e : csrAt off with
    | none => rw [e] at h; cases h
    | some r =>
      rw [e] at h
      cases r with
      | ctrl =>
        have h0 : off = 0x00 := by
          simp only [csrAt] at e
          split at e
          · assumption
          · repeat (first | cases e | split at e)
        exact .inr (.inl ⟨v, by rw [h0], h⟩)
      | mincode =>
        simp only [writeCsr] at h
        split at h
        · cases h; exact .inr (.inr (.inr (.inr ⟨s.rdata, s.freeCtr, rfl⟩)))
        · rename_i hb
          cases h
          exact .inr (.inr (.inl ⟨by simpa using hb, _, s.olen, s.inp, s.outBase, s.outLen, rfl, .inl ⟨rfl, rfl⟩⟩))
      | olen =>
        simp only [writeCsr] at h
        split at h
        · cases h; exact .inr (.inr (.inr (.inr ⟨s.rdata, s.freeCtr, rfl⟩)))
        · rename_i hb
          cases h
          exact .inr (.inr (.inl ⟨by simpa using hb, s.m, _, s.inp, s.outBase, s.outLen, rfl, .inl ⟨rfl, rfl⟩⟩))
      | _ => cases h; exact .inr (.inr (.inr (.inr ⟨s.rdata, s.freeCtr, rfl⟩)))
  | read off =>
    simp only [hostOp] at h
    cases e : csrAt off with
    | none => rw [e] at h; cases h
    | some r =>
      rw [e] at h
      cases r <;> simp only [readCsr] at h <;> (try split at h) <;> cases h <;>
        first | exact .inr (.inr (.inr (.inr ⟨_, s.freeCtr, rfl⟩))) | exact .inr (.inr (.inr (.inr ⟨_, _, rfl⟩)))
  | sampleDone => cases h; exact .inr (.inr (.inr (.inr ⟨_, s.freeCtr, rfl⟩)))
  | readOut a =>
    simp only [hostOp] at h
    split at h
    · cases h
    · split at h <;> cases h
      exact .inr (.inr (.inr (.inr ⟨_, s.freeCtr, rfl⟩)))
  | bindIn bytes =>
    simp only [hostOp] at h
    split at h
    · cases h
    · rename_i hb
      cases h
      exact .inr (.inr (.inl ⟨by simpa using hb, s.m, s.olen, _, s.outBase, s.outLen, rfl, .inl ⟨rfl, rfl⟩⟩))
  | bindOut base len =>
    simp only [hostOp] at h
    split at h
    · cases h
    · rename_i hb
      cases h
      exact .inr (.inr (.inl ⟨by simpa using hb, s.m, s.olen, s.inp, _, _, rfl, .inr rfl⟩))
  | writeOut a v =>
    simp only [hostOp] at h
    split at h
    · cases h
    · rename_i hb
      split at h
      · rename_i hl
        cases h
        exact .inr (.inr (.inr (.inl ⟨a, v, rfl, by simpa using hb, hl, rfl⟩)))
      · cases h
  | reset => cases h; exact .inl ⟨rfl, rfl⟩
  | waitNotBusy => cases h; exact .inr (.inr (.inr (.inr ⟨s.rdata, s.freeCtr, rfl⟩)))
  | letRun => cases h; exact .inr (.inr (.inr (.inr ⟨s.rdata, s.freeCtr, rfl⟩)))

/-! ### The run of a command -/

theorem runCommand_idle (n : Nat) {s : State} (h : s.busy = false) : runCommand n s = .next s := by
  cases n <;> simp [runCommand, h]

theorem runCommand_succ (n : Nat) {s t : State} (h : s.busy = true) (hs : blockStep s = .next t) :
    runCommand (n + 1) s = runCommand n t := by
  simp [runCommand, h, hs]

end Sys2Proof.Machine
end

