-- ==== Sys2Proof/Machine/Assemble.lean ====
section
/-! DEFINITION. The stream notation and the packing procedure of spec/30_encoding.md R72, R73. The block does not encode;
this is the procedure that writes test vectors, mirrored from the decoder's width bookkeeping. -/

namespace Sys2Proof.Machine

/-- A code line of a stream program (R72). -/
inductive AsmLine where
  | code (v : Nat)
  | clr
  | endLine
  | lit (b : Nat)
  | ref (n : Nat)
  deriving DecidableEq, Repr

/-- The code value a line expands to under `m`, none where the line's condition fails (R72). -/
def AsmLine.value (m : Nat) : AsmLine → Option Nat
  | .code v => some v
  | .clr => some (2 ^ m)
  | .endLine => some (2 ^ m + 1)
  | .lit b => if b < 2 ^ m then some b else none
  | .ref n => if 2 ^ m + 2 ≤ n then some n else none

/-- The assembler's running state (R73). -/
structure AsmState where
  w     : Nat
  next  : Nat
  prevv : Bool
  acc   : Nat
  n     : Nat
  deriving DecidableEq, Repr

/-- One round of the loop of `Assemble` (R73); none when the value does not fit the width. -/
def AsmState.put (ge : Bool) (m v : Nat) (a : AsmState) : Option AsmState :=
  if v < 2 ^ a.w then
    let acc := a.acc ||| (v <<< a.n)
    let n := a.n + a.w
    if v = 2 ^ m then some { w := m + 1, next := 2 ^ m + 2, prevv := false, acc := acc, n := n }
    else if v = 2 ^ m + 1 then some { a with acc := acc, n := n }
    else if a.prevv = true ∧ a.next < 4096 then
      let next := a.next + 1
      let w := if a.w < 12 ∧ reaches ge next a.w = true then a.w + 1 else a.w
      some { w := w, next := next, prevv := true, acc := acc, n := n }
    else some { a with prevv := true, acc := acc, n := n }
  else none

/-- The loop of `Assemble` over the code values. -/
def AsmState.putAll (ge : Bool) (m : Nat) : List Nat → AsmState → Option AsmState
  | [], a => some a
  | v :: rest, a =>
    match a.put ge m v with
    | some b => AsmState.putAll ge m rest b
    | none => none

/-- `flat`: the `ceil(n / 8)` low bytes of the accumulator, least significant first (R73). -/
def AsmState.flat (a : AsmState) : List Byte :=
  (List.range ((a.n + 7) / 8)).map fun i => BitVec.ofNat 8 (a.acc >>> (8 * i))

/-- Cut a flat stream into sub-blocks of the given lengths and close the chain (R61, R73). -/
def cutChain : List Nat → List Byte → List Byte
  | [], _ => [0]
  | l :: rest, flat => BitVec.ofNat 8 l :: flat.take l ++ cutChain rest (flat.drop l)

/-- The default of `.blocks`: 255-byte blocks and one shorter last one (R72). -/
def defaultBlocks (len : Nat) : List Nat :=
  List.replicate (len / 255) 255 ++ (if len % 255 = 0 then [] else [len % 255])

/-- The values of a stream program's lines (R72). -/
def asmValues (m : Nat) : List AsmLine → Option (List Nat)
  | [] => some []
  | l :: rest =>
    match l.value m, asmValues m rest with
    | some v, some vs => some (v :: vs)
    | _, _ => none

/-- `Assemble(m, codes, blocks)` (R73), of the lines of a stream program; `blocks` none is the default division. -/
def assemble (ge : Bool) (m : Nat) (lines : List AsmLine) (blocks : Option (List Nat)) : Option (List Byte) :=
  match asmValues m lines with
  | none => none
  | some vs =>
    match AsmState.putAll ge m vs { w := m + 1, next := 2 ^ m + 2, prevv := false, acc := 0, n := 0 } with
    | none => none
    | some a => some (cutChain (blocks.getD (defaultBlocks a.flat.length)) a.flat)

end Sys2Proof.Machine
end

