-- ==== Sys2Proof/Tests/Slice0.lean ====
section
/-! SUPPORT. The model's own tests. Expected values come from spec/: the bit patterns of spec/30_encoding.md, the
vectors and programs of spec/95_test_vectors.md and the examples of the rules; each test names its source. The last part shows,
for each statement with hypotheses, a concrete state and operands that meet them. -/

open Sys2Proof Sys2Proof.Machine

namespace Sys2Proof.Tests

/-- The outcome is a next state that meets `p`. -/
def gives (o : Host.Outcome State Fault Refusal) (p : State → Bool) : Bool :=
  match o with
  | .next t => p t
  | _ => false

/-- A decoding context. -/
def ctx (m w next : Nat) (prevv : Bool) : Ctx :=
  { closed := false, blkrem := 0, m := BitVec.ofNat 4 m, w := BitVec.ofNat 4 w, next := BitVec.ofNat 13 next, prevv := prevv }

/-- A decoding state: `M`, `W`, `NEXT`, `PREV`, `OCNT`, `OLEN`, the dictionary and the output so far. -/
def dst (m w next prev ocnt olen : Nat) (dict : DictMem) (out : Memory) : State :=
  { State.reset with
    st := .decode, m := BitVec.ofNat 4 m, w := BitVec.ofNat 4 w, next := BitVec.ofNat 13 next
    prev := BitVec.ofNat 12 prev, prevv := true, ocnt := BitVec.ofNat 32 ocnt, olen := BitVec.ofNat 32 olen
    dict := dict, out := out }

/-- The decoding state that `START` leaves for `M` (R113). -/
def fresh (m olen : Nat) (inp : List Byte) : State :=
  { dst m (m + 1) (2 ^ m + 2) 0 0 olen [] [] with prevv := false, inp := inp }

/-- A draining state under `SKIP`. -/
def drn (ipos : Nat) (blkrem : Byte) (inp : List Byte) : State :=
  { State.reset with st := .drain, mode := true, ipos := ipos, blkrem := blkrem, inp := inp }

/-! ### WellFormed refuses ill-formed terms, one for each check -/

theorem test_wf_term_inside_block : Instr.sbTerm.wf { ctx 2 3 6 false with blkrem := 1 } = false := by decide
theorem test_wf_term_when_closed : Instr.sbTerm.wf { ctx 2 3 6 false with closed := true } = false := by decide
theorem test_wf_length_zero : (Instr.sbLen 0).wf (ctx 2 3 6 false) = false := by decide
theorem test_wf_length_inside_block : (Instr.sbLen 5).wf { ctx 2 3 6 false with blkrem := 1 } = false := by decide
theorem test_wf_length_when_closed : (Instr.sbLen 5).wf { ctx 2 3 6 false with closed := true } = false := by decide
theorem test_wf_data_at_length : (Instr.sbData 5).wf (ctx 2 3 6 false) = false := by decide
theorem test_wf_data_when_closed :
    (Instr.sbData 5).wf { ctx 2 3 6 false with closed := true, blkrem := 1 } = false := by decide
theorem test_wf_class_rows_legal_m :
    Instr.clear.wf (ctx 8 9 258 false) = false ∧ Instr.endCode.wf (ctx 1 2 4 false) = false ∧
    (Instr.lit 0).wf (ctx 1 2 4 false) = false := by decide
theorem test_wf_class_rows_width :
    Instr.clear.wf (ctx 9 9 514 false) = false ∧ Instr.endCode.wf (ctx 9 9 514 false) = false ∧
    (Instr.lit 511).wf (ctx 9 8 514 false) = false := by decide
theorem test_wf_class_rows_no_code :
    Instr.clear.wf (ctx 12 12 4096 false) = false ∧ Instr.endCode.wf (ctx 12 12 4096 false) = false := by decide
theorem test_wf_lit_not_literal : (Instr.lit 513).wf (ctx 9 10 514 false) = false := by decide
theorem test_wf_dict_unassigned : (Instr.dict 7).wf (ctx 2 3 7 true) = false := by decide
theorem test_wf_dict_below_first : (Instr.dict 5).wf (ctx 2 3 7 true) = false := by decide
theorem test_wf_dict_width : (Instr.dict 8).wf (ctx 2 3 9 true) = false := by decide
theorem test_wf_kwkwk_no_previous : (Instr.kwkwk 6).wf (ctx 2 3 6 false) = false := by decide
theorem test_wf_kwkwk_not_next : (Instr.kwkwk 7).wf (ctx 2 3 6 true) = false := by decide
theorem test_wf_kwkwk_width : (Instr.kwkwk 8).wf (ctx 2 3 8 true) = false := by decide
theorem test_wf_kwkwk_below_first : (Instr.kwkwk 3).wf (ctx 2 3 3 true) = false := by decide
theorem test_wf_invalid_assigned : (Instr.invalid 6).wf (ctx 2 3 7 true) = false := by decide
theorem test_wf_invalid_kwkwk : (Instr.invalid 6).wf (ctx 2 3 6 true) = false := by decide
theorem test_wf_invalid_width : (Instr.invalid 9).wf (ctx 2 3 6 true) = false := by decide
theorem test_wf_invalid_basic : (Instr.invalid 3).wf (ctx 2 3 2 true) = false := by decide
theorem test_wf_rows_of_another_m :
    Instr.clearM1.wf (ctx 2 3 6 false) = false ∧ Instr.clearM2.wf (ctx 3 4 10 false) = false ∧
    Instr.clearM3.wf (ctx 2 3 6 false) = false ∧ Instr.clearM4.wf (ctx 5 6 34 false) = false ∧
    Instr.clearM5.wf (ctx 4 5 18 false) = false ∧ Instr.clearM6.wf (ctx 7 8 130 false) = false ∧
    Instr.clearM7.wf (ctx 6 7 66 false) = false ∧ Instr.clearM8.wf (ctx 0 9 3 false) = false := by decide
theorem test_wf_end_rows_of_another_m :
    Instr.endM1.wf (ctx 2 3 6 false) = false ∧ Instr.endM2.wf (ctx 3 4 10 false) = false ∧
    Instr.endM3.wf (ctx 2 3 6 false) = false ∧ Instr.endM4.wf (ctx 5 6 34 false) = false ∧
    Instr.endM5.wf (ctx 4 5 18 false) = false ∧ Instr.endM6.wf (ctx 7 8 130 false) = false ∧
    Instr.endM7.wf (ctx 6 7 66 false) = false ∧ Instr.endM8.wf (ctx 9 10 514 false) = false := by decide
theorem test_wf_lit_rows_of_another_m :
    (Instr.litM1 1).wf (ctx 2 3 6 false) = false ∧ (Instr.litM2 3).wf (ctx 3 4 10 false) = false ∧
    (Instr.litM3 7).wf (ctx 2 3 6 false) = false ∧ (Instr.litM4 1).wf (ctx 5 6 34 false) = false ∧
    (Instr.litM5 1).wf (ctx 4 5 18 false) = false ∧ (Instr.litM6 1).wf (ctx 7 8 130 false) = false ∧
    (Instr.litM7 1).wf (ctx 6 7 66 false) = false ∧ (Instr.litM8 1).wf (ctx 15 12 514 false) = false := by decide
theorem test_wf_rows_width :
    Instr.clearM8.wf (ctx 8 8 258 false) = false ∧ Instr.endM1.wf (ctx 1 1 4 false) = false ∧
    (Instr.litM8 255).wf (ctx 8 7 258 false) = false := by decide

/-! ### Decoding: words written out from the tables (R62, R67, R71; spec/opcode_table.json) -/

theorem test_decode_sb_term : decode (ctx 2 3 6 false) (.sb 0b00000000) = .ok .sbTerm := by decide
theorem test_decode_sb_len : decode (ctx 2 3 6 false) (.sb 0b11111111) = .ok (.sbLen 255) := by decide
theorem test_decode_sb_data :
    decode { ctx 2 3 6 false with blkrem := 1 } (.sb 0b00000000) = .ok (.sbData 0) := by decide
theorem test_decode_sb_closed :
    decode { ctx 2 3 6 false with closed := true } (.sb 0b00000001) = .error .chainClosed := by decide
theorem test_decode_code_too_wide : decode (ctx 2 3 6 false) (.code 0b000000001000) = .error .codeTooWide := by decide
theorem test_decode_clear_rows :
    decode (ctx 1 2 4 false) (.code 0b000000000010) = .ok .clearM1 ∧
    decode (ctx 2 3 6 false) (.code 0b000000000100) = .ok .clearM2 ∧
    decode (ctx 3 4 10 false) (.code 0b000000001000) = .ok .clearM3 ∧
    decode (ctx 4 5 18 false) (.code 0b000000010000) = .ok .clearM4 ∧
    decode (ctx 5 6 34 false) (.code 0b000000100000) = .ok .clearM5 ∧
    decode (ctx 6 7 66 false) (.code 0b000001000000) = .ok .clearM6 ∧
    decode (ctx 7 8 130 false) (.code 0b000010000000) = .ok .clearM7 ∧
    decode (ctx 8 9 258 false) (.code 0b000100000000) = .ok .clearM8 := by decide
theorem test_decode_end_rows :
    decode (ctx 1 2 4 false) (.code 0b000000000011) = .ok .endM1 ∧
    decode (ctx 2 3 6 false) (.code 0b000000000101) = .ok .endM2 ∧
    decode (ctx 3 4 10 false) (.code 0b000000001001) = .ok .endM3 ∧
    decode (ctx 4 5 18 false) (.code 0b000000010001) = .ok .endM4 ∧
    decode (ctx 5 6 34 false) (.code 0b000000100001) = .ok .endM5 ∧
    decode (ctx 6 7 66 false) (.code 0b000001000001) = .ok .endM6 ∧
    decode (ctx 7 8 130 false) (.code 0b000010000001) = .ok .endM7 ∧
    decode (ctx 8 9 258 false) (.code 0b000100000001) = .ok .endM8 := by decide
theorem test_decode_lit_rows :
    decode (ctx 1 2 4 false) (.code 0b000000000001) = .ok (.litM1 0b1) ∧
    decode (ctx 2 3 6 false) (.code 0b000000000010) = .ok (.litM2 0b10) ∧
    decode (ctx 3 4 10 false) (.code 0b000000000110) = .ok (.litM3 0b110) ∧
    decode (ctx 4 5 18 false) (.code 0b000000001101) = .ok (.litM4 0b1101) ∧
    decode (ctx 5 6 34 false) (.code 0b000000010110) = .ok (.litM5 0b10110) ∧
    decode (ctx 6 7 66 false) (.code 0b000000101101) = .ok (.litM6 0b101101) ∧
    decode (ctx 7 8 130 false) (.code 0b000001100101) = .ok (.litM7 0b1100101) ∧
    decode (ctx 8 9 258 false) (.code 0b000011111110) = .ok (.litM8 0b11111110) := by decide
/-- The class rows stand for a code under an `M` that has no row of its own (assumption log 2). -/
theorem test_decode_class_rows :
    decode (ctx 9 12 514 false) (.code 0b001000000000) = .ok .clear ∧
    decode (ctx 9 12 514 false) (.code 0b001000000001) = .ok .endCode ∧
    decode (ctx 9 12 514 false) (.code 0b000111111111) = .ok (.lit 511) := by decide
/-- R67 classes 4 to 6 with R68: `NEXT = 7` with and without a previous code. -/
theorem test_decode_dictionary_classes :
    decode (ctx 2 3 7 true) (.code 0b000000000110) = .ok (.dict 6) ∧
    decode (ctx 2 3 7 true) (.code 0b000000000111) = .ok (.kwkwk 7) ∧
    decode (ctx 2 3 6 true) (.code 0b000000000111) = .ok (.invalid 7) ∧
    decode (ctx 2 3 6 false) (.code 0b000000000110) = .ok (.invalid 6) := by decide
/-- R71: bits [31:2] of the word are ignored. -/
theorem test_decode_commands :
    decode (ctx 0 0 0 false) (.cmd 0b00000000000000000000000000000001) = .ok .start ∧
    decode (ctx 0 0 0 false) (.cmd 0b11111111111111111111111111111110) = .ok .skip ∧
    decode (ctx 0 0 0 false) (.cmd 0b00000000000000000000000000000100) = .ok .nop ∧
    decode (ctx 0 0 0 false) (.cmd 0b00000000000000000000000000000111) = .ok .nop3 := by decide
/-- The table words of the host's probe (assumption log 12). -/
theorem test_table_words :
    decodeTableWord 8 0x00 = some .sbTerm ∧ decodeTableWord 8 0x80 = some (.sbLen 0x80) ∧
    decodeTableWord 16 0x101 = some .endM8 ∧ decodeTableWord 16 0x010 = some .clearM4 ∧
    decodeTableWord 8 0x01 = some .start ∧ decodeTableWord 8 0x02 = some .skip := by decide
theorem test_table_word_runs :
    gives (step (State.reset.withFetchWord 16 0x005)) (fun t => decide (t.st = .drain) && t.endseen) = true := by decide
theorem test_table_word_start_runs :
    gives (step (State.reset.withFetchWord 8 0x01)) (fun t => decide (t.cause = .badParam)) = true := by decide

/-! ### One step per instruction -/

/-- R81's example. -/
theorem test_len : gives (exec (.sbLen 3) (drn 0 0 [3, 0xAA, 0xBB, 0xCC, 0]))
    (fun t => decide (t.blkrem = 3) && decide (t.ipos = 1)) = true := by decide
/-- R82's example, and V-K2 `IN = 00`. -/
theorem test_term_ends_skip : gives (exec .sbTerm (drn 0 0 [0, 0x3B]))
    (fun t => t.closed && decide (t.ipos = 1) && decide (t.cause = .ok) && decide (t.st = .done)) = true := by decide
/-- V-E9: an empty chain under `START` with `OLEN = 1` ends `SHORT`. -/
theorem test_term_ends_decode_short : gives (exec .sbTerm (fresh 2 1 [0]))
    (fun t => decide (t.cause = .short) && t.trunc && decide (t.ipos = 1)) = true := by decide
/-- R83's example, discarded while draining. -/
theorem test_data_drained : gives (exec (.sbData 0xAA) (drn 1 3 [3, 0xAA, 0xBB, 0xCC, 0]))
    (fun t => decide (t.blkrem = 2) && decide (t.ipos = 2) && decide (t.nbits = 0)) = true := by decide
/-- R91's example: `W = 3`, two bits `0b01` held, next byte `0x01`. -/
theorem test_data_gathered :
    gives (exec (.sbData 0x01) { fresh 2 1 [] with nbits := 2, bitbuf := 0b01, blkrem := 1 })
      (fun t => decide (t.bitbuf = 0b0000000101) && decide (t.nbits = 10)) = true := by decide
/-- R100's example: `M = 2`, `W = 4`, `NEXT = 9`. -/
theorem test_clear_m2 : gives (exec .clearM2 (dst 2 4 9 3 4 6 [] []))
    (fun t => decide (t.w = 3) && decide (t.next = 6) && !t.prevv && decide (t.prev = 0)) = true := by decide
theorem test_clear_class : gives (exec .clear (dst 2 4 9 3 4 6 [] []))
    (fun t => decide (t.w = 3) && decide (t.next = 6) && !t.prevv) = true := by decide
/-- R110: `W <- M + 1` is 2 to 9, `NEXT <- 2^M + 2` is 4 to 258. -/
theorem test_clear_rows :
    gives (exec .clearM1 (dst 1 3 9 0 0 0 [] [])) (fun t => decide (t.w = 2) && decide (t.next = 4)) = true ∧
    gives (exec .clearM3 (dst 3 5 17 0 0 0 [] [])) (fun t => decide (t.w = 4) && decide (t.next = 10)) = true ∧
    gives (exec .clearM4 (dst 4 6 33 0 0 0 [] [])) (fun t => decide (t.w = 5) && decide (t.next = 18)) = true ∧
    gives (exec .clearM5 (dst 5 7 65 0 0 0 [] [])) (fun t => decide (t.w = 6) && decide (t.next = 34)) = true ∧
    gives (exec .clearM6 (dst 6 8 129 0 0 0 [] [])) (fun t => decide (t.w = 7) && decide (t.next = 66)) = true ∧
    gives (exec .clearM7 (dst 7 9 257 0 0 0 [] [])) (fun t => decide (t.w = 8) && decide (t.next = 130)) = true ∧
    gives (exec .clearM8 (dst 8 12 4096 0 0 0 [] [])) (fun t => decide (t.w = 9) && decide (t.next = 258)) = true := by
  decide
/-- R101 on P1's state after its second code: seven bits are dropped. -/
theorem test_end_rows :
    [Instr.endCode, .endM1, .endM2, .endM3, .endM4, .endM5, .endM6, .endM7, .endM8].all (fun i =>
      gives (exec i { dst 2 3 6 0 1 1 [] [(0, 0)] with nbits := 7, bitbuf := 0b1 }) (fun t =>
        t.endseen && decide (t.st = .drain) && decide (t.nbits = 0) && decide (t.bitbuf = 0) && decide (t.ocnt = 1))) = true := by
  decide
/-- V-L 1: the first literal appends nothing. -/
theorem test_lit_first : gives (exec (.litM2 0) (fresh 2 4 []))
    (fun t => decide (Memory.read t.out 0 = some 0) && decide (t.ocnt = 1) && decide (t.next = 6) && t.prevv) = true := by
  decide
/-- V-L 2: a second literal appends `(0, 1)` at 6. -/
theorem test_lit_appends : gives (exec (.litM2 1) (dst 2 3 6 0 1 4 [] [(0, 0)]))
    (fun t => decide (Memory.read t.out 1 = some 1) && decide (DictMem.find t.dict 6 = some ⟨0, 1⟩) &&
      decide (t.next = 7) && decide (t.w = 3) && decide (t.prev = 1)) = true := by decide
/-- V-L 4 with P4 step 3: literal 255 under `M = 8` appends `(170, 255)`. -/
theorem test_lit_m8 : gives (exec (.litM8 255) (dst 8 9 258 170 1 5 [] [(0, 170)]))
    (fun t => decide (Memory.read t.out 1 = some 255) && decide (DictMem.find t.dict 258 = some ⟨170, 255⟩) &&
      decide (t.next = 259)) = true := by decide
/-- R97 with R42: a literal met when the output is full is discarded with `OVF`, its append done. -/
theorem test_lit_m3_overflow : gives (exec (.litM3 7) (dst 3 4 10 5 2 2 [] []))
    (fun t => t.ovf && decide (t.ocnt = 2) && decide (t.out = []) && decide (DictMem.find t.dict 10 = some ⟨5, 7⟩)) = true := by
  decide
/-- R97 with R96's example: `NEXT` 15 to 16 raises `W` from 4 to 5 (and from 5, 6, 7, 8 likewise at 32, 64, 128, 256). -/
theorem test_lit_grows :
    gives (exec (.lit 5) (dst 3 4 15 5 0 2 [] [])) (fun t => decide (t.next = 16) && decide (t.w = 5)) = true ∧
    gives (exec (.litM4 9) (dst 4 5 31 5 0 2 [] [])) (fun t => decide (t.next = 32) && decide (t.w = 6)) = true ∧
    gives (exec (.litM5 9) (dst 5 6 63 5 0 2 [] [])) (fun t => decide (t.next = 64) && decide (t.w = 7)) = true ∧
    gives (exec (.litM6 9) (dst 6 7 127 5 0 2 [] [])) (fun t => decide (t.next = 128) && decide (t.w = 8)) = true ∧
    gives (exec (.litM7 9) (dst 7 8 255 5 0 2 [] [])) (fun t => decide (t.next = 256) && decide (t.w = 9)) = true := by
  decide
/-- V-M1a and V-M1b: the append with `NEXT` 4 to 5 leaves `W = 2` or raises it to 3, by `GROW_GE`. -/
theorem test_lit_m1_grow_ge :
    gives (exec (.litM1 0) (dst 1 2 4 1 1 2 [] [])) (fun t => decide (t.next = 5) && decide (t.w = 2)) = true ∧
    gives (exec (.litM1 0) { dst 1 2 4 1 1 2 [] [] with cfg := { growGe := true } })
      (fun t => decide (t.next = 5) && decide (t.w = 3)) = true := by decide
/-- R98's example, P3 step 4. -/
theorem test_dict : gives (exec (.dict 6) (dst 2 3 7 1 2 8 [(6, ⟨0, 1⟩)] [(0, 0), (1, 1)]))
    (fun t => decide (t.out = [(0, 0), (1, 1), (2, 0), (3, 1)]) && decide (DictMem.find t.dict 7 = some ⟨1, 0⟩) &&
      decide (t.next = 8) && decide (t.w = 4) && decide (t.prev = 6)) = true := by decide
/-- V-X1 step 3: a two-byte string with one byte free. -/
theorem test_dict_partly_fits : gives (exec (.dict 6) (dst 2 3 7 2 2 3 [(6, ⟨2, 2⟩)] [(0, 2), (1, 2)]))
    (fun t => decide (t.ocnt = 3) && t.ovf && decide (Memory.read t.out 2 = some 2) && decide (t.next = 8)) = true := by
  decide
/-- R99's example, P2 step 3. -/
theorem test_kwkwk : gives (exec (.kwkwk 6) (dst 2 3 6 1 1 4 [] [(0, 1)]))
    (fun t => decide (t.out = [(0, 1), (1, 1), (2, 1)]) && decide (DictMem.find t.dict 6 = some ⟨1, 1⟩) &&
      decide (t.next = 7) && decide (t.prev = 6)) = true := by decide
/-- P3 step 5: KwKwK 8 after code 6 writes 0 1 0. -/
theorem test_kwkwk_of_entry :
    gives (exec (.kwkwk 8) (dst 2 4 8 6 4 8 [(6, ⟨0, 1⟩), (7, ⟨1, 0⟩)] [(0, 0), (1, 1), (2, 0), (3, 1)]))
      (fun t => decide (Memory.read t.out 4 = some 0) && decide (Memory.read t.out 5 = some 1) &&
        decide (Memory.read t.out 6 = some 0) && decide (DictMem.find t.dict 8 = some ⟨6, 0⟩) && decide (t.ocnt = 7)) = true := by
  decide
/-- R102's example, V-I1. -/
theorem test_invalid : gives (exec (.invalid 7) (dst 2 3 6 0 1 4 [] [(0, 0)]))
    (fun t => decide (t.cause = .corrupt) && decide (t.ecode = 7) && decide (t.ewidth = 3) && decide (t.enext = 6) &&
      decide (t.ocnt = 1) && t.trunc && !t.closed) = true := by decide
/-- V-C1. -/
theorem test_start : gives (exec .start { State.reset with m := 2, olen := 1 })
    (fun t => decide (t.statusWord = 0x00000005) && decide (t.dstateWord = 0x00000063)) = true := by decide
/-- V-C2. -/
theorem test_start_bad_param : gives (exec .start { State.reset with m := 9, olen := 1 })
    (fun t => decide (t.statusWord = 0x0000510B)) = true := by decide
/-- V-K3: `SKIP` after P1 keeps the decoder's registers. -/
theorem test_skip : gives (exec .skip { dst 2 3 6 0 1 1 [] [(0, 0)] with st := .done, cause := .ok, endseen := true })
    (fun t => decide (t.st = .drain) && t.mode && !t.endseen && decide (t.ocnt = 1) && decide (t.w = 3) && t.prevv) = true := by
  decide
/-- V-K4: `START` while busy changes nothing. -/
theorem test_start_busy : gives (exec .start (fresh 2 1 [2, 0x44])) (fun t => decide (t = fresh 2 1 [2, 0x44])) = true := by
  decide
/-- R115. -/
theorem test_nops :
    gives (exec .nop (fresh 2 1 [])) (fun t => decide (t = fresh 2 1 [])) = true ∧
    gives (exec .nop3 (fresh 2 1 [])) (fun t => decide (t = fresh 2 1 [])) = true := by decide

/-! ### Fetching, the registers and the chain notation -/

/-- V-F, the last row: `W = 12`, three bits held, `FF 0F` gives `0xFFD` with seven bits left. -/
theorem test_fetch_two_bytes :
    (match ({ fresh 2 1 [0xFF, 0x0F] with w := 12, nbits := 3, bitbuf := 0b101, blkrem := 2 } : State).fetchCode with
     | .code c t => decide (c = 0xFFD) && decide (t.nbits = 7) && decide (t.bitbuf = 0b0000111) && decide (t.ipos = 2)
     | .ended _ => false) = true := by decide
/-- P1 step 1: the CLEAR code crosses no boundary; V-X5: the END code crosses a sub-block boundary. -/
theorem test_fetch_across_blocks :
    (match ({ fresh 2 1 [1, 0x44, 1, 0x01, 0] with ipos := 2, nbits := 2, bitbuf := 0b01 } : State).fetchCode with
     | .code c t => decide (c = 5) && decide (t.nbits = 7) && decide (t.ipos = 4)
     | .ended _ => false) = true := by decide
/-- V-R: reset in the middle of a decode. -/
theorem test_reset_word :
    gives (step { fresh 2 1 [] with host := [.reset], out := [(0, 7)] })
      (fun t => decide (t.statusWord = 0x40) && decide (t.out = [(0, 7)])) = true := by decide
/-- P1's end state: `STATUS = 0x0000107B`, `DSTATE = 0x20000063`. -/
theorem test_end_words :
    ({ dst 2 3 6 0 1 1 [] [(0, 0)] with st := .done, cause := .ok, endseen := true, closed := true } : State).statusWord
      = 0x0000107B ∧
    ({ dst 2 3 6 0 1 1 [] [(0, 0)] with st := .done } : State).dstateWord = 0x20000063 := by decide
/-- R40, R143 step 3: a byte of the second frame goes into the slice provided for it, and the first frame's byte stays. -/
theorem test_second_slice :
    gives (exec (.litM2 3) { fresh 2 1 [] with outBase := 100, outLen := 1, out := [(0, 7)] })
      (fun t => decide (t.out = [(0, 7), (100, 3)])) = true := by decide
/-- U9 with R127: a decode with a short slice is refused, one with an illegal `M` halts and writes nothing. -/
theorem test_start_short_slice :
    exec .start { State.reset with m := 2, olen := 2, outLen := 1 } = .refused .outputSliceTooShort ∧
    gives (exec .start { State.reset with m := 9, olen := 2, outLen := 1 }) (fun t => decide (t.cause = .badParam)) = true :=
  ⟨rfl, by decide⟩
/-- R143 step 6: the cursor moves past P1's chain, and stays where it was after a corrupt one. -/
theorem test_cursor :
    ({ State.reset with cause := .ok, ipos := 4 } : State).cursorAfter 10 = 14 ∧
    ({ State.reset with cause := .corrupt, ipos := 2 } : State).cursorAfter 10 = 10 := by decide
/-- P3's chain, and P1's, assembled by R73. -/
theorem test_assemble_p3 :
    assemble false 2 [.clr, .lit 0, .lit 1, .ref 6, .ref 8, .lit 1, .endLine] (some [1, 2])
      = some [0x01, 0x44, 0x02, 0x8C, 0x51, 0x00] := by decide
theorem test_assemble_p1 :
    assemble false 2 [.clr, .lit 0, .endLine] none = some [0x02, 0x44, 0x01, 0x00] := by decide

/-! ### Witnesses: the hypotheses of each statement can be met, clause by clause -/

/-- P3 of spec/95_test_vectors.md after its step 4: `M = 2`, `DICT = {6: (0,1), 7: (1,0)}`, four bits of byte `8C` held, one
byte of the second sub-block unread. -/
def p3 : State :=
  { dst 2 4 8 6 4 8 [(6, ⟨0, 1⟩), (7, ⟨1, 0⟩)] [(0, 0), (1, 1), (2, 0), (3, 1)] with
    inp := [0x01, 0x44, 0x02, 0x8C, 0x51, 0x00], ipos := 4, blkrem := 1, nbits := 4, bitbuf := 8 }

theorem witness_p3_decodeInv : DecodeInv p3 where
  legal := by decide
  widthLo := by decide
  widthHi := by decide
  slotLo := by decide
  slotHi := by decide
  width := ⟨fun _ => by simp [p3, dst, Nat.log2_def], fun h => by simp [p3, dst] at h, fun h => by simp [p3, dst] at h⟩
  noPrev := fun h => by simp [p3, dst] at h
  prevCode := fun _ => .inr (by decide)
  dict := by
    intro n h1 h2
    have h1' : 6 ≤ n := h1
    have h2' : n < 8 := h2
    obtain rfl | rfl : n = 6 ∨ n = 7 := by omega
    · exact ⟨⟨0, 1⟩, by decide⟩
    · exact ⟨⟨1, 0⟩, by decide⟩
  bits := by decide
  bitsHi := by decide
  count := by decide
  bytes := by
    intro a h
    have h' : a < 4 := h
    obtain rfl | rfl | rfl | rfl : a = 0 ∨ a = 1 ∨ a = 2 ∨ a = 3 := by omega
    · exact ⟨0, by decide⟩
    · exact ⟨1, by decide⟩
    · exact ⟨0, by decide⟩
    · exact ⟨1, by decide⟩
  closed := by decide
  endseen := by decide
  cause := by decide
  mode := by decide
  pos := by decide
  slice := by decide

/-- The invariant holds of P3 after its step 4. -/
theorem witness_p3_inv : Inv p3 where
  outWf := by decide
  dictWf := by decide
  stack := by decide
  closed := fun h => by simp [p3, dst, State.reset] at h
  prev := fun h => by simp [p3, dst] at h
  idle := fun h => by simp [p3, dst] at h
  decode := fun _ => witness_p3_decodeInv
  drain := fun h => by simp [p3, dst] at h
  done := fun h => by simp [p3, dst] at h

/-- A decoding state keeps its invariant when the reader stands elsewhere with a legal bit accumulator. -/
theorem decodeInv_reader {s : State} (h : DecodeInv s) (inp : List Byte) (ipos : Nat) (blkrem : BitVec 8) (nbits : BitVec 5)
    (bitbuf : BitVec 19) (hn : nbits.toNat ≤ 7) (hb : bitbuf.toNat < 2 ^ nbits.toNat) (hp : ipos ≤ inp.length) :
    DecodeInv { s with inp := inp, ipos := ipos, blkrem := blkrem, nbits := nbits, bitbuf := bitbuf } :=
  { legal := h.legal, widthLo := h.widthLo, widthHi := h.widthHi, slotLo := h.slotLo, slotHi := h.slotHi
    width := ⟨h.width.general, h.width.m1Literal, h.width.m1First⟩, noPrev := h.noPrev, prevCode := h.prevCode, dict := h.dict
    bits := hn, bitsHi := hb, count := h.count, bytes := h.bytes, closed := h.closed, endseen := h.endseen
    cause := h.cause, mode := h.mode, pos := hp, slice := h.slice }

/-- P3 after its step 3: the next append makes `NEXT` reach `2^W`. -/
def p3b : State :=
  { dst 2 3 7 1 2 8 [(6, ⟨0, 1⟩)] [(0, 0), (1, 1)] with
    inp := [0x01, 0x44, 0x02, 0x8C, 0x51, 0x00], ipos := 4, blkrem := 1, nbits := 7, bitbuf := 0x46 }

theorem witness_p3b_decodeInv : DecodeInv p3b where
  legal := by decide
  widthLo := by decide
  widthHi := by decide
  slotLo := by decide
  slotHi := by decide
  width := ⟨fun _ => by simp [p3b, dst, Nat.log2_def], fun h => by simp [p3b, dst] at h, fun h => by simp [p3b, dst] at h⟩
  noPrev := fun h => by simp [p3b, dst] at h
  prevCode := fun _ => .inl (by decide)
  dict := by
    intro n h1 h2
    have h1' : 6 ≤ n := h1
    have h2' : n < 7 := h2
    obtain rfl : n = 6 := by omega
    exact ⟨⟨0, 1⟩, by decide⟩
  bits := by decide
  bitsHi := by decide
  count := by decide
  bytes := by
    intro a h
    have h' : a < 2 := h
    obtain rfl | rfl : a = 0 ∨ a = 1 := by omega
    · exact ⟨0, by decide⟩
    · exact ⟨1, by decide⟩
  closed := by decide
  endseen := by decide
  cause := by decide
  mode := by decide
  pos := by decide
  slice := by decide

/-- A table with the entry `(0, 0)` at `n` indices from `lo` on. -/
def filled : Nat → Nat → DictMem
  | _, 0 => []
  | lo, n + 1 => (lo, ⟨0, 0⟩) :: filled (lo + 1) n

theorem find_filled (n : Nat) : ∀ lo k : Nat, lo ≤ k → k < lo + n → DictMem.find (filled lo n) k = some ⟨0, 0⟩ := by
  induction n with
  | zero => intro lo k h1 h2; omega
  | succ n ih =>
    intro lo k h1 h2
    by_cases h : lo = k
    · simp [filled, DictMem.find, h]
    · simp only [filled, DictMem.find, if_neg h]
      exact ih (lo + 1) k (by omega) (by omega)

/-- A full dictionary under `M = 2` (R103), with the first byte of the output written. -/
def fullDict : State := dst 2 12 4096 0 0 4 (filled 6 4090) []

theorem witness_fullDict_decodeInv : DecodeInv fullDict where
  legal := by decide
  widthLo := by decide
  widthHi := by decide
  slotLo := by decide
  slotHi := by decide
  width := ⟨fun _ => by simp [fullDict, dst, Nat.log2_def], fun h => by simp [fullDict, dst] at h, fun h => by simp [fullDict, dst] at h⟩
  noPrev := fun h => by simp [fullDict, dst] at h
  prevCode := fun _ => .inl (by decide)
  dict := by
    intro n h1 h2
    have h1' : 6 ≤ n := h1
    have h2' : n < 4096 := h2
    refine ⟨⟨0, 0⟩, find_filled 4090 6 n h1' (by omega), ?_, by decide, by decide, by decide⟩
    show (0 : Nat) < n
    omega
  bits := by decide
  bitsHi := by decide
  count := by decide
  bytes := fun a h => absurd h (Nat.not_lt_zero a)
  closed := by decide
  endseen := by decide
  cause := by decide
  mode := by decide
  pos := by decide
  slice := by decide

theorem next_of_gives {o : Host.Outcome State Fault Refusal} {p : State → Bool} (h : gives o p = true) :
    ∃ t, o = .next t ∧ p t = true := by
  cases o with
  | next t => exact ⟨t, rfl, h⟩
  | fault f => simp [gives] at h
  | refused r => simp [gives] at h

theorem witness_ResetFromEveryState : ({ p3 with host := [.reset, .letRun] } : State).host = .reset :: [.letRun] := rfl
theorem witness_StartCommandEffect :
    p3.busy = true ∧
    (let s : State := { State.reset with m := 1 }
     s.busy = false ∧ 1 ≤ s.m.toNat ∧ s.m.toNat ≤ 8 ∧ s.olen.toNat ≤ s.outLen) ∧
    (let s : State := { State.reset with m := 8, olen := 4, outLen := 4 }
     s.busy = false ∧ 1 ≤ s.m.toNat ∧ s.m.toNat ≤ 8 ∧ s.olen.toNat ≤ s.outLen) ∧
    (let s : State := { State.reset with m := 8, olen := 5, outLen := 4 }
     s.busy = false ∧ 1 ≤ s.m.toNat ∧ s.m.toNat ≤ 8 ∧ s.outLen < s.olen.toNat) ∧
    ((0 : BitVec 4).toNat < 1 ∧ 8 < (9 : BitVec 4).toNat ∧ 8 < (15 : BitVec 4).toNat ∧ State.reset.busy = false) := by decide
theorem witness_SkipCommandEffect : (drn 0 1 []).busy = true ∧ State.reset.busy = false := by decide
theorem witness_CtrlWriteSelectsCommand :
    ({ p3 with host := [.write 0x00 0xFFFFFFFC] } : State).host = .write 0x00 0xFFFFFFFC :: [] ∧
    (0xFFFFFFFC : Word).toNat % 4 = 0 ∧ (0x00000001 : Word).toNat % 4 = 1 ∧ (0xFFFFFFFE : Word).toNat % 4 = 2 ∧
    (0xFFFFFFFF : Word).toNat % 4 = 3 := by decide
theorem witness_RegisterWriteEffect :
    (({ State.reset with host := [.write 0x04 0xFF] } : State).host = .write 0x04 0xFF :: [] ∧ State.reset.busy = false) ∧
    ({ State.reset with host := [.write 0x08 0xFFFE0001] } : State).host = .write 0x08 0xFFFE0001 :: [] ∧
    (({ p3 with host := [.write 0x00 1] } : State).host = .write 0x00 1 :: [] ∧ p3.busy = true) ∧
    ({ p3 with host := [.write 0x1C 1] } : State).host = .write 0x1C 1 :: [] := by decide
theorem witness_RegisterReadEffect :
    ({ p3 with host := [.read 0x00] } : State).host = .read 0x00 :: [] ∧
    ({ p3 with host := [.read 0x04] } : State).host = .read 0x04 :: [] ∧
    ({ p3 with host := [.read 0x08] } : State).host = .read 0x08 :: [] ∧
    (({ State.reset with host := [.read 0x1C] } : State).host = .read 0x1C :: [] ∧
      ({ State.reset with host := [.read 0x1C] } : State).busy = false) ∧
    (({ State.reset with st := .done, host := [.sampleDone] } : State).host = .sampleDone :: [] ∧ p3.st ≠ .done) := by decide
theorem witness_StatusWordLayout :
    State.reset.st = .idle ∧ p3.st = .decode ∧ (drn 0 0 []).st = .drain ∧ ({ p3 with st := .done } : State).st = .done ∧
    p3.cause = .none ∧ (p3.halt .ok).cause = .ok ∧ (p3.halt .short).cause = .short ∧
    (p3.halt .truncated).cause = .truncated ∧ (p3.halt .corrupt).cause = .corrupt ∧
    (p3.halt .badParam).cause = .badParam := by decide
theorem witness_BusyReadsOutsideAdmittedUse :
    p3.busy = true ∧ ({ p3 with host := [.read 0x10] } : State).host = .read 0x10 :: [] ∧
    ({ p3 with host := [.readOut 0] } : State).host = .readOut 0 :: [] ∧
    ({ p3 with host := [.read 0x0C] } : State).host = .read 0x0C :: [] ∧
    ({ p3 with host := [.sampleDone] } : State).host = .sampleDone :: [] := by decide
theorem witness_HostMemoryAccess :
    csrAt 0x01 = none ∧ csrAt 0x20 = none ∧
    ({ State.reset with host := [.read 0x20] } : State).host = .read 0x20 :: [] ∧
    (({ p3 with host := [.bindIn []] } : State).host = .bindIn [] :: [] ∧ p3.busy = true ∧ State.reset.busy = false) := by decide
/-- The last byte of a slice of one byte, and the first address behind it. -/
theorem witness_HostOutputSlice :
    (({ State.reset with host := [.bindOut 100 1] } : State).host = .bindOut 100 1 :: [] ∧ State.reset.busy = false) ∧
    (let s : State := { State.reset with outBase := 100, outLen := 1, out := [(100, 7)], host := [.writeOut 0 9] }
     s.host = .writeOut 0 9 :: [] ∧ s.busy = false ∧ 0 < s.outLen ∧ Memory.read s.out (s.outBase + 0) = some 7 ∧ s.outLen ≤ 1) ∧
    ({ p3 with host := [.readOut 3] } : State).host = .readOut 3 :: [] ∧
    (({ p3 with host := [.bindOut 0 0] } : State).host = .bindOut 0 0 :: [] ∧ p3.busy = true) := by decide
/-- A frame of 2 by 4 pixels in a slice of exactly 8 bytes. -/
theorem witness_StartSequenceBeginsDecode :
    let s : State := { State.reset with host := startSequence 2 2 4 100 8 [1, 0x44, 0] ++ [.waitNotBusy] }
    s.host = startSequence 2 2 4 100 8 [1, 0x44, 0] ++ [.waitNotBusy] ∧ s.busy = false ∧ 1 ≤ (2 : Byte).toNat ∧
    (2 : Byte).toNat ≤ 8 ∧ (2 : BitVec 16).toNat * (4 : BitVec 16).toNat ≤ 8 := by decide
theorem witness_TerminatorEffect :
    p3.st = .decode ∧ (drn 0 0 [0]).st = .drain ∧ State.reset.st = .idle ∧ ({ p3 with st := .done } : State).st = .done := by
  decide
theorem witness_DataByteEffect :
    (0 < (drn 0 1 [5]).blkrem.toNat ∧ (drn 0 1 [5]).st ≠ .decode) ∧
    (let s : State := { fresh 2 1 [] with w := 12, nbits := 11, bitbuf := 0x7FF, blkrem := 255 }
     0 < s.blkrem.toNat ∧ s.st = .decode ∧ s.nbits.toNat < s.w.toNat ∧ s.w.toNat ≤ 12 ∧ s.bitbuf.toNat < 2 ^ s.nbits.toNat) := by
  decide
/-- V-SB1's calls 1 and 4 and V-SB6. -/
theorem witness_NextByteDeliversFlatStream :
    (drn 0 0 [2, 0xAA, 0xBB, 1, 0xCC, 0]).nextByte = .byte 0xAA (drn 2 1 [2, 0xAA, 0xBB, 1, 0xCC, 0]) ∧
    (drn 5 0 [2, 0xAA, 0xBB, 1, 0xCC, 0]).nextByte
      = .endChain { drn 6 0 [2, 0xAA, 0xBB, 1, 0xCC, 0] with closed := true } ∧
    (drn 0 0 [2]).nextByte = .exhausted (drn 1 2 [2]) ∧
    (drn 0 0 [2, 0xAA, 0xBB, 1, 0xCC, 0]).flat = 0xAA :: [0xBB, 0xCC] := by decide
theorem witness_ClosedChainStaysClosed : ({ drn 1 0 [0, 0x3B] with closed := true } : State).closed = true := rfl
/-- V-SB7 and V-SB6. -/
theorem witness_ExhaustionKeepsWhatWasRead :
    ((drn 0 0 []).closed = false ∧ (drn 0 0 []).inp[0]? = none) ∧
    ((drn 0 0 [2]).closed = false ∧ (drn 0 0 [2]).blkrem = 0 ∧ (2 : Byte) ≠ 0 ∧ (drn 0 0 [2]).inp[0]? = some 2 ∧
      (drn 0 0 [2]).inp[1]? = none) ∧
    (drn 0 0 []).nextByte = .exhausted (drn 0 0 []) ∧ (drn 0 0 [2]).nextByte = .exhausted (drn 1 2 [2]) := by decide
theorem witness_DrainStepCases :
    ({ drn 1 0 [0] with closed := true } : State).closed = true ∧
    ((drn 1 0 [5]).host = [] ∧ (drn 1 0 [5]).st = .drain ∧ (drn 1 0 [5]).closed = false ∧ (drn 1 0 [5]).inp[1]? = none) ∧
    ((drn 0 0 [0]).blkrem = 0 ∧ (drn 0 0 [0]).inp[0]? = some 0) ∧
    ((drn 0 0 [255]).blkrem = 0 ∧ (drn 0 0 [255]).inp[0]? = some 255 ∧ (255 : Byte) ≠ 0) ∧
    ((drn 0 1 [0]).blkrem ≠ 0 ∧ (drn 0 1 [0]).inp[0]? = some 0) := by decide
/-- V-K1's chain, ended by its terminator after eight bytes; and V-K2's `03 AA BB`, which ends inside a block. -/
theorem witness_DrainConsumesRestOfChain :
    ((drn 0 0 [3, 1, 2, 3, 2, 4, 5, 0, 0x3B]).st = .drain ∧ (drn 0 0 [3, 1, 2, 3, 2, 4, 5, 0, 0x3B]).closed = false ∧
      chainEnd 0 (drn 0 0 [3, 1, 2, 3, 2, 4, 5, 0, 0x3B]).unread = some 8) ∧
    ((drn 3 1 [3, 0xAA, 0xBB]).ipos ≤ (drn 3 1 [3, 0xAA, 0xBB]).inp.length ∧
      chainEnd 1 (drn 3 1 [3, 0xAA, 0xBB]).unread = none) := by decide
theorem witness_FetchRunsSubBlockItems :
    ((fresh 2 1 [2, 0x44]).st = .decode ∧ (fresh 2 1 [2, 0x44]).closed = false ∧
      (fresh 2 1 [2, 0x44]).nbits.toNat < (fresh 2 1 [2, 0x44]).w.toNat ∧ (fresh 2 1 [2, 0x44]).inp[0]? = some 2 ∧
      decode (fresh 2 1 [2, 0x44]).ctx (.sb 2) = .ok (.sbLen 2) ∧
      gives (exec (.sbLen 2) (fresh 2 1 [2, 0x44])) (fun t => decide (t.blkrem = 2)) = true) ∧
    (decode (fresh 2 1 [0]).ctx (.sb 0) = .ok .sbTerm ∧
      gives (exec .sbTerm (fresh 2 1 [0])) (fun t => t.closed) = true) ∧
    (decode ({ fresh 2 1 [9] with blkrem := 1 } : State).ctx (.sb 9) = .ok (.sbData 9) ∧
      gives (exec (.sbData 9) { fresh 2 1 [9] with blkrem := 1 }) (fun t => decide (t.nbits = 8)) = true) := by decide
/-- Twelve bits are to be had where four are needed; and exactly four, the input ending there. -/
theorem witness_FetchTakesNextBits :
    (DecodeInv p3 ∧ p3.w.toNat ≤ p3.pendingBits) ∧
    (DecodeInv { p3 with inp := [0x01, 0x44, 0x02, 0x8C], ipos := 4, blkrem := 1, nbits := 4, bitbuf := 8 } ∧
      ({ p3 with inp := [0x01, 0x44, 0x02, 0x8C], ipos := 4, blkrem := 1, nbits := 4, bitbuf := 8 } : State).pendingBits = 4) :=
  ⟨⟨witness_p3_decodeInv, by decide⟩,
   decodeInv_reader witness_p3_decodeInv _ _ _ _ _ (by decide) (by decide) (by decide), by decide⟩
/-- Three bits are left where four are needed, before the terminator and at the end of the input. -/
theorem witness_FetchEndsAtChainEnd :
    (DecodeInv { p3 with inp := [0], ipos := 0, blkrem := 0, nbits := 3, bitbuf := 7 } ∧
      ({ p3 with inp := [0], ipos := 0, blkrem := 0, nbits := 3, bitbuf := 7 } : State).pendingBits < p3.w.toNat ∧
      chainEnd (BitVec.toNat (0 : BitVec 8)) (State.unread { p3 with inp := [0], ipos := 0 }) = some 1) ∧
    (DecodeInv { p3 with inp := [2], ipos := 0, blkrem := 0, nbits := 3, bitbuf := 7 } ∧
      ({ p3 with inp := [2], ipos := 0, blkrem := 0, nbits := 3, bitbuf := 7 } : State).pendingBits < p3.w.toNat ∧
      chainEnd (BitVec.toNat (0 : BitVec 8)) (State.unread { p3 with inp := [2], ipos := 0 }) = none) :=
  ⟨⟨decodeInv_reader witness_p3_decodeInv _ _ _ _ _ (by decide) (by decide) (by decide), by decide, by decide⟩,
   decodeInv_reader witness_p3_decodeInv _ _ _ _ _ (by decide) (by decide) (by decide), by decide, by decide⟩
theorem witness_ClearCodeEffect :
    legalM (dst 1 2 4 0 0 0 [] []).m = true ∧ (dst 1 2 4 0 0 0 [] []).m = 1 ∧ (dst 2 3 6 0 0 0 [] []).m = 2 ∧
    (dst 3 4 10 0 0 0 [] []).m = 3 ∧ (dst 4 5 18 0 0 0 [] []).m = 4 ∧ (dst 5 6 34 0 0 0 [] []).m = 5 ∧
    (dst 6 7 66 0 0 0 [] []).m = 6 ∧ (dst 7 8 130 0 0 0 [] []).m = 7 ∧ (dst 8 9 258 0 0 0 [] []).m = 8 := by decide
theorem witness_EndCodeEffect :
    Instr.endM8 ∈ [Instr.endCode, .endM1, .endM2, .endM3, .endM4, .endM5, .endM6, .endM7, .endM8] := by decide
theorem witness_LiteralCodeEffect :
    (dst 8 9 258 0 0 0 [] []).stack = [] ∧ (dst 8 9 258 0 0 0 [] []).m = 8 ∧ (dst 1 2 4 0 0 0 [] []).m = 1 ∧
    (255 : Code).toNat < 2 ^ (dst 8 9 258 0 0 0 [] []).m.toNat := by decide
/-- P3's steps 4 (code 6, both ends of the assigned range) and 5 (code 8). -/
theorem witness_DictionaryCodeEffect :
    DecodeInv p3b ∧ p3b.stack = [] ∧ p3b.first ≤ (6 : Code).toNat ∧ (6 : Code).toNat < p3b.next.toNat :=
  ⟨witness_p3b_decodeInv, by decide⟩
theorem witness_KwKwKCodeEffect :
    DecodeInv p3 ∧ p3.stack = [] ∧ (8 : Code).toNat = p3.next.toNat ∧ p3.prevv = true :=
  ⟨witness_p3_decodeInv, by decide⟩
theorem witness_StringCodeFrame :
    stringCodeOf (.kwkwk 8) = some 8 ∧ gives (exec (.kwkwk 8) p3) (fun t => decide (t.ocnt = 7)) = true := by decide
theorem witness_OutByteWritesAtCount :
    p3.ocnt.toNat < p3.olen.toNat ∧ ({ p3 with olen := 4 } : State).olen.toNat ≤ p3.ocnt.toNat := by decide
theorem witness_EmitWritesInOrder :
    p3.ocnt.toNat ≤ p3.olen.toNat ∧ p3.ocnt.toNat + 2 < (p3.emit [0, 1, 0]).ocnt.toNat := by decide
theorem witness_AppendWritesEntry : ({ p3 with next := 4095 } : State).next.toNat < 4096 := by decide
/-- P3's step 4 grows the width from 3 to 4. -/
theorem witness_WidthGrowthTest :
    (DecodeInv p3b ∧ 2 ≤ p3b.m.toNat ∧ p3b.next.toNat < 4096 ∧ reaches true (p3b.next.toNat + 1) p3b.w.toNat = true ∧
      p3b.w.toNat < 12) ∧
    (let s : State := { p3b with next := 8 }
     s.w.toNat < 12 ∧ reaches s.cfg.growGe s.next.toNat s.w.toNat = true) ∧
    ¬ (p3b.w.toNat < 12 ∧ reaches p3b.cfg.growGe p3b.next.toNat p3b.w.toNat = true) :=
  ⟨⟨witness_p3b_decodeInv, by decide⟩, by decide, by decide⟩
theorem witness_FullDictionaryAppendsNothing :
    ((ctx 2 12 4096 true).next.toNat = 4096 ∧ decode (ctx 2 12 4096 true) (.code 4095) = .ok (.dict 4095)) ∧
    (DecodeInv fullDict ∧ fullDict.stack = [] ∧ fullDict.next.toNat = 4096 ∧
      decode fullDict.ctx (.code 4095) = .ok (.dict 4095) ∧ fullDict.stringCode 4095 ∧
      decode fullDict.ctx (.code 3) = .ok (.litM2 3) ∧ fullDict.stringCode 3 ∧
      decode fullDict.ctx (.code 4) = .ok .clearM2 ∧ decode fullDict.ctx (.code 5) = .ok .endM2) :=
  ⟨by decide, witness_fullDict_decodeInv, rfl, rfl, by decide, .inr (by decide), by decide, .inl (by decide), by decide, by decide⟩
theorem witness_FinishChoosesCause :
    (drn 0 0 []).mode = true ∧ (fresh 2 0 []).ocnt = (fresh 2 0 []).olen ∧
    ((fresh 2 1 []).mode = false ∧ (fresh 2 1 []).ocnt ≠ (fresh 2 1 []).olen) := by decide
theorem witness_StepRunsDecodedInstruction :
    (p3.blockTurn = true ∧ p3.st = .decode ∧
      p3.blockView.fetchCode = .code 8 { p3 with nbits := 0, bitbuf := 0 } ∧
      decode ({ p3 with nbits := 0, bitbuf := 0 } : State).ctx (.code 8) = .ok (.kwkwk 8)) ∧
    (let s : State := { drn 0 0 [255] with host := [.letRun] }
     s.blockTurn = true ∧ s.st = .drain ∧ s.closed = false ∧ s.inp[s.ipos]? = some 255 ∧
      decode s.ctx (.sb 255) = .ok (.sbLen 255)) ∧
    (({ p3 with host := [.write 0x00 1] } : State).host = .write 0x00 1 :: [] ∧ decode p3.ctx (.cmd 1) = .ok .start) := by
  decide
theorem witness_IdleBlockStays :
    State.reset.host = [] ∧ State.reset.st = .idle ∧ ({ State.reset with st := .done } : State).st = .done := by decide
theorem witness_DecodeOfEncode :
    Instr.sbTerm.wf (ctx 2 3 6 false) = true ∧ (Instr.sbLen 255).wf (ctx 2 3 6 false) = true ∧
    (Instr.sbData 0).wf { ctx 2 3 6 false with blkrem := 255 } = true ∧ Instr.clear.wf (ctx 0 1 3 false) = true ∧
    Instr.endCode.wf (ctx 11 12 2050 false) = true ∧ (Instr.lit 0xFFF).wf (ctx 15 12 0 false) = true ∧
    (Instr.dict 4095).wf (ctx 8 12 4096 true) = true ∧ (Instr.kwkwk 4095).wf (ctx 8 12 4095 true) = true ∧
    (Instr.invalid 4095).wf (ctx 8 12 4094 true) = true ∧ Instr.clearM1.wf (ctx 1 2 4 false) = true ∧
    Instr.endM8.wf (ctx 8 9 258 false) = true ∧ (Instr.litM8 255).wf (ctx 8 9 258 false) = true ∧
    Instr.start.wf (ctx 0 0 0 false) = true := by decide
theorem witness_EncodeOfDecode :
    decode (ctx 2 3 6 true) (.code 6) = .ok (.kwkwk 6) ∧ decode (ctx 2 3 6 true) (.cmd 0xFFFFFFFF) = .ok .nop3 := by decide
theorem witness_CodeMapClasses :
    (legalM (ctx 1 2 4 true).m = true ∧ (3 : Code).toNat < 2 ^ (ctx 1 2 4 true).w.toNat ∧
      (2 : Code).toNat = 2 ^ (ctx 1 2 4 true).m.toNat ∧ (3 : Code).toNat = 2 ^ (ctx 1 2 4 true).m.toNat + 1 ∧
      (1 : Code).toNat < 2 ^ (ctx 1 2 4 true).m.toNat) ∧
    (legalM (ctx 8 12 4096 true).m = true ∧ (4095 : Code).toNat < 2 ^ (ctx 8 12 4096 true).w.toNat ∧
      2 ^ (ctx 8 12 4096 true).m.toNat + 2 ≤ (4095 : Code).toNat ∧ (4095 : Code).toNat < (ctx 8 12 4096 true).next.toNat) ∧
    (2 ^ (ctx 2 3 6 true).m.toNat + 2 ≤ (6 : Code).toNat ∧ (6 : Code).toNat < 2 ^ (ctx 2 3 6 true).w.toNat ∧
      (6 : Code).toNat = (ctx 2 3 6 true).next.toNat ∧ (ctx 2 3 6 true).prevv = true) ∧
    ((ctx 2 3 6 true).next.toNat < (7 : Code).toNat ∧ (7 : Code).toNat < 2 ^ (ctx 2 3 6 true).w.toNat) ∧
    ((6 : Code).toNat = (ctx 2 3 6 false).next.toNat ∧ (ctx 2 3 6 false).prevv = false) := by decide
theorem witness_FirstCodeMustBeBasic :
    (ctx 2 3 6 false).next.toNat = firstOf (ctx 2 3 6 false).m ∧ (ctx 2 3 6 false).prevv = false ∧
    firstOf (ctx 2 3 6 false).m ≤ (6 : Code).toNat ∧ firstOf (ctx 2 3 6 false).m ≤ (7 : Code).toNat ∧
    (7 : Code).toNat < 2 ^ (ctx 2 3 6 false).w.toNat := by decide
theorem witness_TableWordRunsNext :
    decodeTableWord 8 0 = some .sbTerm ∧ decodeTableWord 16 0x100 = some .clearM8 ∧ decodeTableWord 32 2 = some .skip := by decide
theorem witness_StepKeepsInvariant :
    Inv p3 ∧ ∃ t, step p3 = .next t ∧ decide (t.ocnt = 7) = true :=
  ⟨witness_p3_inv, next_of_gives (by decide)⟩
/-- After a command, with a slice of one byte and `OLEN = 2`. -/
def shortSlice (host : List HostOp) : State :=
  { State.reset with st := .done, cause := .ok, m := 2, olen := 2, outLen := 1, host := host }
theorem witness_shortSlice_inv (host : List HostOp) : Inv (shortSlice host) :=
  { outWf := rfl, dictWf := rfl, stack := rfl, closed := fun _ => rfl, prev := fun _ => rfl, idle := nofun
    decode := nofun, drain := nofun, done := fun _ => ⟨rfl, rfl, by simp [shortSlice], by simp [shortSlice, State.reset]⟩ }
/-- A stop of each kind is reached from a state that meets the invariant. -/
theorem witness_OnlyHostMisuseStops :
    Inv p3 ∧ step { p3 with host := [.read 0x20] } = .fault (.unmappedRegister 0x20) ∧
    step { p3 with host := [.readOut 0] } = .refused .readWhileBusy ∧
    step { p3 with host := [.bindIn []] } = .refused .inputChangedWhileBusy ∧
    step { p3 with host := [.bindOut 0 0] } = .refused .outputChangedWhileBusy ∧
    (Inv (shortSlice [.readOut 1]) ∧ step (shortSlice [.readOut 1]) = .fault (.outsideSlice 1) ∧
      step (shortSlice [.write 0x00 1]) = .refused .outputSliceTooShort) :=
  ⟨witness_p3_inv, rfl, rfl, rfl, rfl, witness_shortSlice_inv _, rfl, rfl⟩
theorem witness_CommandReachesDone : Inv p3 ∧ p3.busy = true := ⟨witness_p3_inv, by decide⟩
theorem witness_ControlStateTransitions :
    ∃ t, step p3 = .next t ∧ decide (t.st = .decode) = true := next_of_gives (by decide)
theorem witness_StreamPositionMovesForward :
    (p3.blockTurn = true ∧ p3.ipos ≤ p3.inp.length ∧ ∃ t, step p3 = .next t ∧ decide (t.ipos = 4) = true) ∧
    (({ p3 with host := [.reset] } : State).blockTurn = false ∧
      ∃ t, step { p3 with host := [.reset] } = .next t ∧ decide (t.ipos = 0) = true) :=
  ⟨⟨by decide, by decide, next_of_gives (by decide)⟩, by decide, next_of_gives (by decide)⟩
theorem witness_OutputWrittenOnlyInSlice :
    (Inv p3 ∧ p3.blockTurn = true ∧ (∃ t, step p3 = .next t ∧ decide (t.ocnt = 7) = true) ∧ p3.outBase + p3.olen.toNat ≤ 8) ∧
    (let s : State := { State.reset with outBase := 9, host := [.writeOut 1 5] }
     s.blockTurn = false ∧ ∃ t, step s = .next t ∧ decide (Memory.read t.out 10 ≠ Memory.read s.out 10) = true) :=
  ⟨⟨witness_p3_inv, by decide, next_of_gives (by decide), by decide⟩, by decide, next_of_gives (by decide)⟩
theorem witness_ConfigurationNeverChanges :
    ∃ t, step { p3 with cfg := { growGe := true }, host := [.reset] } = .next t ∧ t.cfg.growGe = true :=
  next_of_gives (by decide)
theorem witness_OutputBytesBelowPowerOfM :
    DecodeInv p3 ∧ p3.stringCode 6 ∧ StringIs p3.dict p3.clr 6 ([0] ++ [1]) ∧ 3 < p3.ocnt.toNat :=
  ⟨witness_p3_decodeInv, .inr (by decide), .entry 6 [0] (by decide) (.literal 0 (by decide)), by decide⟩
theorem witness_StringLengthBound :
    DecodeInv p3 ∧ p3.stringCode 3 ∧ (3 : Code).toNat < p3.clr ∧ p3.stringCode 7 ∧ p3.first ≤ (7 : Code).toNat :=
  ⟨witness_p3_decodeInv, .inl (by decide), by decide, .inr (by decide), by decide⟩
/-- P3's rest with its last data byte in the current sub-block, and in a sub-block of its own. -/
theorem witness_SameFlatStreamSameResult :
    let t : State := { p3 with inp := [0x01, 0x51, 0x00], ipos := 0, blkrem := 0, nbits := 4, bitbuf := 8 }
    Inv p3 ∧ Inv t ∧ p3.st = .decode ∧ t.st = .decode ∧ p3.eraseReader = t.eraseReader ∧ p3.flat = t.flat ∧
    p3.terminated = true ∧ t.terminated = true ∧
    (∃ s', runCommand 10 p3 = .next s' ∧ (!s'.busy) = true) ∧ (∃ t', runCommand 10 t = .next t' ∧ (!t'.busy) = true) := by
  refine ⟨witness_p3_inv, ?_, by decide, by decide, by decide, by decide, by decide, by decide,
    next_of_gives (by decide), next_of_gives (by decide)⟩
  exact { outWf := witness_p3_inv.outWf, dictWf := witness_p3_inv.dictWf, stack := rfl, closed := fun _ => rfl
          prev := fun h => by simp [p3, dst] at h, idle := fun h => by simp [p3, dst] at h
          decode := fun _ => decodeInv_reader witness_p3_decodeInv _ _ _ _ _ (by decide) (by decide) (by decide)
          drain := fun h => by simp [p3, dst] at h, done := fun h => by simp [p3, dst] at h }

end Sys2Proof.Tests
end

section
/-! SUPPORT. What a fetch and a code can do, said once: the frame of the fetch, and the effect of each class of code. -/

namespace Sys2Proof.Machine

open Sys2Proof.Laws.RoundTrip (classify_clear classify_end classify_lit classify_high)

/-! ### The frame of the fetch -/

/-- The state that `NextByte()` leaves, whatever it reports. -/
def NextByte.state : NextByte → State
  | .byte _ s => s
  | .endChain s => s
  | .exhausted s => s

/-- The state that the gathering loop leaves. -/
def Gathered.state : Gathered → State
  | .ready s => s
  | .ended s => s

/-- The state that `FetchCode()` leaves. -/
def Fetched.state : Fetched → State
  | .code _ s => s
  | .ended s => s

/-- `t` is `s` but for what a fetch writes: the reader, the accumulator, and what a halt latches. -/
def FetchFrame (s t : State) : Prop :=
  t = { s with
    bitbuf := t.bitbuf, nbits := t.nbits, ipos := t.ipos, blkrem := t.blkrem, closed := t.closed
    cause := t.cause, trunc := t.trunc, st := t.st }

theorem FetchFrame.trans {s t u : State} (h1 : FetchFrame s t) (h2 : FetchFrame t u) : FetchFrame s u := by
  unfold FetchFrame at h2
  rw [h1] at h2
  exact h2

theorem FetchFrame.cfg {s t : State} (h : FetchFrame s t) : t.cfg = s.cfg := by rw [h]

theorem State.finish_frame (s : State) : FetchFrame s s.finish := by
  unfold State.finish; split <;> rfl

theorem State.nextByte_frame (s : State) : FetchFrame s s.nextByte.state := by
  rcases s.nextByte_cases with ⟨_, h⟩ | ⟨_, _, h⟩ | ⟨_, _, _, h⟩ | ⟨_, _, _, _, _, _, h⟩ |
    ⟨_, _, _, _, _, _, _, h⟩ | ⟨_, _, _, _, h⟩ <;> rw [h] <;> rfl

theorem State.gatherBits_frame (n : Nat) (s : State) : FetchFrame s (s.gatherBits n).state := by
  induction n generalizing s with
  | zero => rfl
  | succ n ih =>
    have hf := s.nextByte_frame
    unfold State.gatherBits
    split
    · cases h : s.nextByte <;> rw [h] at hf
      case byte b t => exact (hf.trans (u := t.gather b) rfl).trans (ih _)
      case endChain t => exact hf.trans t.finish_frame
      case exhausted t => exact hf.trans rfl
    · rfl

/-- A fetch, whether it delivers a code or ends the command, writes nothing outside its frame (R91). -/
theorem State.fetchCode_frame (s : State) : FetchFrame s s.fetchCode.state := by
  have hf := s.gatherBits_frame 2
  unfold State.fetchCode
  cases h : s.gatherBits 2 <;> rw [h] at hf
  case ready t => exact hf.trans rfl
  case ended t => exact hf

/-! ### The codes by class -/

theorem exec_clearRow (m : BitVec 4) (s : State) : exec (clearRow m) s = .next s.clearContext := by
  unfold clearRow; split <;> rfl

theorem exec_endRow (m : BitVec 4) (s : State) : exec (endRow m) s = .next s.endDecode := by
  unfold endRow; split <;> rfl

/-- Every literal row emits the code it was cut from: the operand of a row of one `M` keeps the code's value. -/
theorem exec_litRow {m : BitVec 4} {c : Code} (h : c.toNat < clrOf m) (s : State) :
    exec (litRow m c) s = knownCode c s := by
  have keep : ∀ k, m.toNat = k → (c.setWidth k).setWidth 12 = c := by
    rintro k rfl
    apply BitVec.eq_of_toNat_eq
    rw [BitVec.toNat_setWidth, BitVec.toNat_setWidth, Nat.mod_eq_of_lt (b := 2 ^ m.toNat) h, Nat.mod_eq_of_lt c.isLt]
  unfold litRow
  split
  case h_9 => rfl
  all_goals
    rename_i hm
    exact congrArg (knownCode · s) (keep _ hm)

/-- The effect of a code, by the classes of R67, whatever row the decoder names. -/
theorem exec_classifyCode (x : Ctx) (c : Code) (s : State) :
    exec (classifyCode x c) s =
      if c.toNat = clrOf x.m then .next s.clearContext
      else if c.toNat = eoiOf x.m then .next s.endDecode
      else if c.toNat < clrOf x.m ∨ c.toNat < x.next.toNat then knownCode c s
      else if c.toNat = x.next.toNat ∧ x.prevv = true then kwkwkCode c s
      else .next (s.corrupt c) := by
  by_cases h1 : c.toNat = clrOf x.m
  · rw [classify_clear h1, if_pos h1, exec_clearRow]
  by_cases h2 : c.toNat = eoiOf x.m
  · rw [classify_end h2, if_neg h1, if_pos h2, exec_endRow]
  by_cases h3 : c.toNat < clrOf x.m
  · rw [classify_lit h3, if_neg h1, if_neg h2, if_pos (.inl h3), exec_litRow h3]
  have h4 : firstOf x.m ≤ c.toNat := by
    simp only [clrOf, eoiOf, firstOf] at *
    omega
  rw [classify_high h4, if_neg h1, if_neg h2]
  simp only [h3, false_or]
  split_ifs <;> rfl

/-- A decode step (R90) is the end of the command in the fetch, or the effect of the fetched code. -/
theorem decodeStep_cases {s t : State} (h : decodeStep s = .next t) :
    s.fetchCode = .ended t ∨ ∃ c u, s.fetchCode = .code c u ∧ exec (classifyCode u.ctx c) u = .next t := by
  unfold decodeStep at h
  split at h
  · rename_i u hu
    cases h; exact .inl hu
  · rename_i c u hu
    refine .inr ⟨c, u, hu, ?_⟩
    simp only [runItem, decode] at h
    split at h
    · rename_i i hi
      split at hi <;> cases hi
      exact h
    · cases h

/-- A code of the current width runs as its class (R64, R67). -/
theorem runItem_code {s : State} {c : Code} (h : c.toNat < 2 ^ s.w.toNat) :
    runItem (.code c) s = exec (classifyCode s.ctx c) s := by
  simp [runItem, decode, State.ctx, h]

end Sys2Proof.Machine
end

section
/-! SUPPORT. The configuration is the same after every step (R7, R10). -/

namespace Sys2Proof.Machine

theorem knownCode_cfg {c : Code} {s t : State} (h : knownCode c s = .next t) : t.cfg = s.cfg := by
  obtain ⟨str, u, rfl, ⟨_, _, f, rfl⟩ | ⟨_, rfl⟩⟩ := knownCode_cases h <;> simp

theorem kwkwkCode_cfg {c : Code} {s t : State} (h : kwkwkCode c s = .next t) : t.cfg = s.cfg := by
  obtain ⟨f, str, rfl⟩ := kwkwkCode_cases h
  simp

theorem exec_classifyCode_cfg {x : Ctx} {c : Code} {s t : State} (h : exec (classifyCode x c) s = .next t) :
    t.cfg = s.cfg := by
  rw [exec_classifyCode] at h
  split_ifs at h
  · cases h; rfl
  · cases h; rfl
  · exact knownCode_cfg h
  · exact kwkwkCode_cfg h
  · cases h; rfl

theorem decodeStep_cfg {s t : State} (h : decodeStep s = .next t) : t.cfg = s.cfg := by
  have hf := s.fetchCode_frame.cfg
  obtain hu | ⟨c, u, hu, he⟩ := decodeStep_cases h <;> rw [hu] at hf
  · exact hf
  · exact (exec_classifyCode_cfg he).trans hf

theorem drainStep_cfg {s t : State} (hs : s.st = .drain) (h : drainStep s = .next t) : t.cfg = s.cfg := by
  cases hc : s.closed with
  | true =>
    simp only [drainStep, hc, if_true] at h
    cases h; exact s.finish_cfg
  | false =>
    obtain ⟨_, e⟩ | ⟨_, _, e⟩ | ⟨_, _, _, _, e⟩ | ⟨_, _, _, e⟩ := drainStep_cases hs hc <;>
      rw [e] at h <;> cases h <;> simp

theorem blockStep_cfg {s t : State} (h : blockStep s = .next t) : t.cfg = s.cfg := by
  unfold blockStep at h
  split at h
  · exact decodeStep_cfg h
  · exact drainStep_cfg ‹_› h
  · cases h; rfl
  · cases h; rfl

theorem hostOp_cfg {op : HostOp} {s t : State} (h : hostOp op s = .next t) : t.cfg = s.cfg := by
  obtain ⟨_, rfl⟩ | ⟨v, _, he⟩ | ⟨_, m, olen, inp, base, len, rfl, _⟩ | ⟨a, v, _, _, _, rfl⟩ | ⟨r, n, rfl⟩ :=
    hostOp_cases h
  · rfl
  · obtain rfl | ⟨_, ⟨_, _, _, rfl⟩ | ⟨_, _, rfl⟩ | ⟨_, rfl⟩⟩ := execCmd_cases he <;> rfl
  · rfl
  · rfl
  · rfl

/-- Settles O52: a block step and a host operation each keep `cfg`, a reset too (`resetBlock`). -/
theorem configurationNeverChanges : Obligations.ConfigurationNeverChanges := by
  intro s t h
  cases hb : s.blockTurn with
  | true =>
    rw [step_of_blockTurn hb] at h
    rw [blockStep_cfg h, s.blockView_eq]
  | false =>
    obtain ⟨op, rest, _, _, _, e⟩ := step_of_hostTurn hb
    rw [e] at h
    exact (hostOp_cfg h :)

end Sys2Proof.Machine
end

section
/-! SUPPORT. The block at rest (R4). -/

namespace Sys2Proof.Machine

/-- Settles O39: with an empty queue the turn is the block's, and no block step is enabled (R4). -/
theorem idleBlockStays : Obligations.IdleBlockStays := by
  intro s hh hs
  have hv : s.blockView = s := by simp [State.blockView, hh]
  rw [step_of_blockTurn (by simp [State.blockTurn, hh]), hv]
  obtain hs | hs := hs <;> simp [blockStep, hs]

end Sys2Proof.Machine
end

section
/-! SUPPORT. The width rule (R29 item 4) and the growth test (R96): a width that the rule gives is grown exactly where the
next slot no longer fits it, under both values of `GROW_GE`. -/

namespace Sys2Proof.Machine

theorem reaches_false_iff (n w : Nat) : reaches false n w = true ↔ n = 2 ^ w := by
  simp [reaches]

theorem reaches_true_iff (n w : Nat) : reaches true n w = true ↔ 2 ^ w ≤ n := by
  simp only [reaches, Bool.and_true, Bool.or_eq_true, decide_eq_true_eq]
  omega

/-- While `NEXT` fits the width, the slot after it reaches `2^W` only by equality: the two readings of R96 agree. -/
theorem reaches_succ_iff {n w : Nat} (ge : Bool) (h : n < 2 ^ w) : reaches ge (n + 1) w = true ↔ n + 1 = 2 ^ w := by
  cases ge with
  | false => exact reaches_false_iff _ _
  | true => rw [reaches_true_iff]; omega

theorem lt_two_pow_of_width {n w : Nat} (h : w = min 12 (Nat.log2 n + 1)) (hw : w < 12) : n < 2 ^ w := by
  have : w = Nat.log2 n + 1 := by omega
  exact this ▸ Nat.lt_log2_self

theorem two_pow_le_of_width {n w : Nat} (h : w = min 12 (Nat.log2 n + 1)) (hn : n ≠ 0) : 2 ^ (w - 1) ≤ n :=
  (Nat.pow_le_pow_right (by decide) (by omega)).trans (Nat.log2_self_le hn)

/-- The growth test keeps the width of the rule when `NEXT` becomes `n + 1`. -/
theorem width_succ {n w : Nat} (ge : Bool) (hn : n ≠ 0) (h : w = min 12 (Nat.log2 n + 1)) :
    (if w < 12 ∧ reaches ge (n + 1) w = true then w + 1 else w) = min 12 (Nat.log2 (n + 1) + 1) := by
  have hlo := two_pow_le_of_width h hn
  by_cases hw : w < 12
  · have hhi := lt_two_pow_of_width h hw
    simp only [reaches_succ_iff ge hhi, hw, true_and]
    by_cases he : n + 1 = 2 ^ w
    · rw [if_pos he, he, Nat.log2_two_pow]
      omega
    · have hlog : Nat.log2 (n + 1) = w - 1 := by
        rw [Nat.log2_eq_iff (by omega), show w - 1 + 1 = w by omega]
        omega
      rw [if_neg he, hlog]
      omega
  · have h11 : 11 ≤ Nat.log2 (n + 1) := by
      rw [Nat.le_log2 (by omega)]
      have : w = 12 := by omega
      subst this
      omega
    rw [if_neg (by omega)]
    omega

theorem State.grow_of_reaches {s : State} (hw : s.w.toNat < 12)
    (h : reaches s.cfg.growGe s.next.toNat s.w.toNat = true) :
    s.grow = { s with w := s.grow.w } ∧ s.grow.w.toNat = s.w.toNat + 1 := by
  have hg : s.grow = { s with w := s.w + 1 } := if_pos ⟨hw, h⟩
  have h1 : (1 : BitVec 4).toNat = 1 := rfl
  refine ⟨by rw [hg], ?_⟩
  rw [hg, BitVec.toNat_add]
  omega

/-- Settles O34: `reaches` is the two readings, `grow` its two branches, and for `M >= 2` the width rule keeps `NEXT`
below `2^W`, where the readings agree. -/
theorem widthGrowthTest : Obligations.WidthGrowthTest := by
  refine ⟨reaches_false_iff, reaches_true_iff, fun s => State.grow_of_reaches, fun s h => if_neg h, ?_⟩
  intro s hd hm _ hr hw
  have hfit := lt_two_pow_of_width (hd.width.general (.inl hm)) hw
  rw [reaches_succ_iff _ hfit] at hr ⊢
  exact hr

end Sys2Proof.Machine
end

section
/-! SUPPORT. The invariant while a code is executed: each operation of a decode keeps it. -/

namespace Sys2Proof.Machine

/-- The part of `Inv` that is the same in every control state. -/
structure CommonInv (s : State) : Prop where
  outWf  : Memory.wf s.out = true
  dictWf : DictMem.wf s.dict = true
  stack  : s.stack = []
  closed : s.closed = true → s.blkrem = 0
  prev   : s.prevv = false → s.prev = 0

theorem Inv.common {s : State} (h : Inv s) : CommonInv s := ⟨h.outWf, h.dictWf, h.stack, h.closed, h.prev⟩

/-- A state of a decode in progress that meets the invariant. -/
structure Decoding (s : State) : Prop where
  st     : s.st = .decode
  common : CommonInv s
  dec    : DecodeInv s

theorem Inv.decoding {s : State} (h : Inv s) (hs : s.st = .decode) : Decoding s := ⟨hs, h.common, h.decode hs⟩

theorem Decoding.inv {s : State} (h : Decoding s) : Inv s where
  outWf := h.common.outWf
  dictWf := h.common.dictWf
  stack := h.common.stack
  closed := h.common.closed
  prev := h.common.prev
  idle hs := by simp [h.st] at hs
  decode _ := h.dec
  drain hs := by simp [h.st] at hs
  done hs := by simp [h.st] at hs

theorem CommonInv.inv_of_drain {s : State} (h : CommonInv s) (hs : s.st = .drain) (hd : DrainInv s) : Inv s where
  outWf := h.outWf
  dictWf := h.dictWf
  stack := h.stack
  closed := h.closed
  prev := h.prev
  idle hs' := by simp [hs] at hs'
  decode hs' := by simp [hs] at hs'
  drain _ := hd
  done hs' := by simp [hs] at hs'

/-- Every halt with a cause leads to a state that meets the invariant (R130). -/
theorem CommonInv.halt {s : State} (h : CommonInv s) {c : Cause} (hc : c ≠ .none) : Inv (s.halt c) where
  outWf := h.outWf
  dictWf := h.dictWf
  stack := h.stack
  closed := h.closed
  prev := h.prev
  idle := nofun
  decode := nofun
  drain := nofun
  done _ := ⟨rfl, rfl, hc, by simp [Cause.trunc]⟩

theorem CommonInv.finish {s : State} (h : CommonInv s) : Inv s.finish := by
  unfold State.finish
  split
  · exact h.halt (by decide)
  · exact h.halt (by decide)

/-- A fetch touches neither memory nor the previous code, so it keeps the common part if it keeps the reader's. -/
theorem CommonInv.of_frame {s t : State} (h : CommonInv s) (hf : FetchFrame s t) (hc : t.closed = true → t.blkrem = 0) :
    CommonInv t := by
  rw [hf] at hc ⊢
  exact ⟨h.outWf, h.dictWf, h.stack, hc, h.prev⟩

/-! ### Bytes below `2^M` -/

/-- Every byte of a string is a literal's or an entry's, so it is below `2^M` (R109). -/
theorem StringIs.bytes_lt {s : State} (hd : DictOk s) {k : Code} {str : List Byte} (hk : s.stringCode k)
    (h : StringIs s.dict s.clr k str) : ∀ b ∈ str, b.toNat < s.clr := by
  generalize hdict : s.dict = d at h
  generalize hclr : s.clr = clr at h
  induction h with
  | literal k hlit =>
    intro b hb
    rw [List.mem_singleton.1 hb, BitVec.toNat_setWidth]
    exact (Nat.mod_le _ _).trans_lt hlit
  | entry k str hge _ ih =>
    obtain ⟨hlo, hhi⟩ := hk.resolve_left (by omega)
    obtain ⟨e, he, hlt, hneClr, hneEoi, hbyte⟩ := hd k.toNat hlo hhi
    have hent : DictMem.entry d k.toNat = e := DictMem.entry_of_find (hdict ▸ he)
    have hp : s.stringCode e.pfx := by
      simp only [State.stringCode, State.clr, State.eoi, State.first, clrOf, eoiOf, firstOf] at *
      omega
    intro b hb
    obtain hb | hb := List.mem_append.1 hb
    · exact ih (hent ▸ hp) b hb
    · rw [List.mem_singleton.1 hb, hent]
      omega

/-! ### What keeps `DecodeInv` -/

theorem DecodeInv.setPrev {s : State} (h : DecodeInv s) {c : Code} (hc : s.stringCode c) : DecodeInv (s.setPrev c) :=
  { h with
    width := ⟨h.width.general, h.width.m1Literal, h.width.m1First⟩
    noPrev := nofun
    prevCode := fun _ => hc }

theorem DecodeInv.outByte {s : State} (h : DecodeInv s) {v : Byte} (hv : v.toNat < s.clr) : DecodeInv (s.outByte v) := by
  by_cases hc : s.ocnt.toNat < s.olen.toNat
  · have ho := s.outByte_ocnt v
    rw [if_pos hc] at ho
    rw [State.outByte_fits s v hc] at ho ⊢
    exact { h with
      width := ⟨h.width.general, h.width.m1Literal, h.width.m1First⟩
      count := by rw [ho]; exact hc
      bytes := by
        intro a ha
        rw [ho] at ha
        by_cases hl : a = s.ocnt.toNat
        · exact ⟨v, by rw [hl]; exact Memory.read_write_same _ _ _, hv⟩
        · obtain ⟨b, hb, hlt⟩ := h.bytes a (by omega)
          have hne : s.outBase + a ≠ s.outBase + s.ocnt.toNat := by omega
          exact ⟨b, (Memory.read_write_other _ _ _ _ hne).trans hb, hlt⟩ }
  · rw [State.outByte_full s v hc]
    exact { h with width := ⟨h.width.general, h.width.m1Literal, h.width.m1First⟩ }

theorem DecodeInv.emit {s : State} (h : DecodeInv s) {str : List Byte} (hb : ∀ b ∈ str, b.toNat < s.clr) :
    DecodeInv (s.emit str) := by
  induction str generalizing s with
  | nil => exact h
  | cons v rest ih =>
    have hclr : (s.outByte v).clr = s.clr := by simp [State.clr]
    exact ih (h.outByte (hb v (.head _))) fun b hm => hclr ▸ hb b (.tail _ hm)

/-! ### The context at its start -/

theorem log2_two_pow_add_two {m : Nat} (hm : 2 ≤ m) : Nat.log2 (2 ^ m + 2) = m := by
  have := Nat.pow_le_pow_right (n := 2) (by decide) hm
  rw [Nat.log2_eq_iff (by omega), Nat.pow_succ]
  omega

theorem State.clearContext_next_toNat {s : State} (hm : s.m.toNat ≤ 8) :
    s.clearContext.next.toNat = 2 ^ s.m.toNat + 2 := by
  have := Nat.pow_le_pow_right (n := 2) (by decide) hm
  rw [State.clearContext_next, BitVec.toNat_ofNat]
  exact Nat.mod_eq_of_lt (by simp only [State.first, firstOf]; omega)

theorem State.clearContext_w_toNat {s : State} (hm : s.m.toNat ≤ 8) : s.clearContext.w.toNat = s.m.toNat + 1 := by
  have h1 : (1 : BitVec 4).toNat = 1 := rfl
  rw [State.clearContext_w, BitVec.toNat_add]
  omega

theorem WidthRule.clearContext {s : State} (hm : s.m.toNat ≤ 8) : WidthRule s.clearContext := by
  have hnext := State.clearContext_next_toNat hm
  have hw := State.clearContext_w_toNat hm
  refine ⟨fun hc => ?_, fun h1 _ => ?_, fun h1 _ _ => ?_⟩
  · have hm2 : 2 ≤ s.m.toNat := by
      obtain hc | ⟨_, hc⟩ := hc
      · exact hc
      · rw [hnext] at hc
        by_contra hlt
        have := Nat.pow_le_pow_right (n := 2) (by decide) (show s.m.toNat ≤ 1 by omega)
        omega
    rw [hw, hnext, log2_two_pow_add_two hm2]
    omega
  · rw [hw, ← State.clearContext_m, h1]
  · rw [hw, ← State.clearContext_m, h1]

theorem DecodeInv.clearContext {s : State} (h : DecodeInv s) : DecodeInv s.clearContext := by
  have hm := (legalM_iff.1 h.legal).2
  have hpow := Nat.pow_le_pow_right (n := 2) (by decide) hm
  have hnext : s.clearContext.next.toNat = s.first := State.clearContext_next_toNat hm
  have hw := State.clearContext_w_toNat hm
  have hfirst : s.first = 2 ^ s.m.toNat + 2 := rfl
  exact { h with
    widthLo := hw.ge
    widthHi := by omega
    slotLo := hnext.ge
    slotHi := by omega
    width := .clearContext hm
    noPrev := fun _ => ⟨hnext, hw⟩
    prevCode := nofun
    dict := fun n hlo hhi => by
      have : s.first ≤ n := hlo
      omega }

/-! ### The append -/

/-- An append writes the table, `NEXT` and `W`, and nothing else (R95). -/
theorem State.append_frame (s : State) (p : Code) (b : Byte) :
    s.append p b = { s with dict := (s.append p b).dict, next := (s.append p b).next, w := (s.append p b).w } := by
  unfold State.append State.grow
  split <;> rfl

theorem State.append_next_toNat {s : State} (hn : s.next.toNat < 4096) (p : Code) (b : Byte) :
    (s.append p b).next.toNat = s.next.toNat + 1 := by
  have h1 : (1 : BitVec 13).toNat = 1 := rfl
  rw [State.append_next, BitVec.toNat_add]
  omega

theorem State.append_w_toNat {s : State} (hn : s.next.toNat < 4096) (p : Code) (b : Byte) :
    (s.append p b).w.toNat =
      if s.w.toNat < 12 ∧ reaches s.cfg.growGe (s.next.toNat + 1) s.w.toNat = true then s.w.toNat + 1
      else s.w.toNat := by
  have h1 : (1 : BitVec 4).toNat = 1 := rfl
  rw [State.append_w, ← State.append_next s p b, State.append_next_toNat hn]
  split
  · rw [BitVec.toNat_add]; omega
  · rfl

/-- R29 item 4 over an append: the growth test R96 is what keeps it. -/
theorem WidthRule.append {s : State} (h : WidthRule s) (hn : s.next.toNat < 4096) (hm : 1 ≤ s.m.toNat)
    (hfirst : s.first ≤ s.next.toNat) (p : Code) (b : Byte) : WidthRule (s.append p b) := by
  have hnext := State.append_next_toNat hn p b
  have hw := State.append_w_toNat hn p b
  have hfirst' : 2 ^ s.m.toNat + 2 ≤ s.next.toNat := hfirst
  have hpow := Nat.pow_le_pow_right (n := 2) (by decide) hm
  refine ⟨fun hc => ?_, fun hm1 hge => ?_, fun _ _ h4 => ?_⟩
  · rw [State.append_m, State.append_cfg, hnext] at hc
    rw [hw, hnext]
    by_cases hold : 2 ≤ s.m.toNat ∨ (s.cfg.growGe = true ∧ 5 ≤ s.next.toNat)
    · exact width_succ _ (by omega) (h.general hold)
    · have hge : s.cfg.growGe = true := by
        simp only [not_or] at hold
        exact (hc.resolve_left hold.1).1
      have h4 : s.next.toNat = 4 := by
        simp only [hge, true_and] at hold
        omega
      rw [h.m1First (by omega) hge h4, hge, h4]
      decide
  · rw [State.append_m] at hm1
    rw [State.append_cfg] at hge
    rw [hw, hge, h.m1Literal hm1 hge, if_neg (by rw [reaches_false_iff]; omega)]
  · omega

theorem DictOk.append {s : State} (h : DictOk s) (hn : s.next.toNat < 4096) (hfirst : s.first ≤ s.next.toNat) {p : Code}
    {b : Byte} (hp : s.stringCode p) (hb : b.toNat < s.clr) : DictOk (s.append p b) := by
  intro n hlo hhi
  simp only [State.first, State.clr, State.eoi, State.append_m, State.append_dict] at hlo ⊢
  rw [State.append_next_toNat hn] at hhi
  by_cases hl : n = s.next.toNat
  · subst hl
    refine ⟨⟨p, b⟩, DictMem.find_set_same _ _ _, ?_⟩
    simp only [State.stringCode, State.first, State.clr, clrOf, eoiOf, firstOf] at *
    omega
  · obtain ⟨e, he, hrest⟩ := h n hlo (by omega)
    exact ⟨e, (DictMem.find_set_other _ _ _ _ hl).trans he, hrest⟩

theorem State.stringCode_append {s : State} (hn : s.next.toNat < 4096) {k : Code} (hk : s.stringCode k) (p : Code)
    (b : Byte) : (s.append p b).stringCode k := by
  simp only [State.stringCode, State.clr, State.first, State.append_m, State.append_next_toNat hn] at *
  omega

theorem DecodeInv.append {s : State} (h : DecodeInv s) (hv : s.prevv = true) (hn : s.next.toNat < 4096) {b : Byte}
    (hb : b.toNat < s.clr) : DecodeInv (s.append s.prev b) := by
  have hnext := State.append_next_toNat hn s.prev b
  have hw := State.append_w_toNat hn s.prev b
  have hlo := h.widthLo
  have hhi := h.widthHi
  have hwidth := h.width.append hn (legalM_iff.1 h.legal).1 h.slotLo s.prev b
  have hprev := State.stringCode_append hn (h.prevCode hv) s.prev b
  have hdict := h.dict.append hn h.slotLo (h.prevCode hv) hb
  rw [s.append_frame] at hwidth hprev hdict ⊢
  exact { h with
    widthLo := by
      show s.m.toNat + 1 ≤ (s.append s.prev b).w.toNat
      split at hw <;> omega
    widthHi := by
      show (s.append s.prev b).w.toNat ≤ 12
      split at hw <;> omega
    slotLo := h.slotLo.trans (hnext.symm ▸ Nat.le_succ _)
    slotHi := hnext.trans_le hn
    width := hwidth
    noPrev := fun hv' => absurd (hv.symm.trans hv') (by decide)
    prevCode := fun _ => hprev
    dict := hdict }

/-! ### What keeps a decode in progress -/

theorem Decoding.setPrev {s : State} (h : Decoding s) {c : Code} (hc : s.stringCode c) : Decoding (s.setPrev c) where
  st := h.st
  common := { h.common with prev := nofun }
  dec := h.dec.setPrev hc

theorem Decoding.emit {s : State} (h : Decoding s) {str : List Byte} (hb : ∀ b ∈ str, b.toNat < s.clr) :
    Decoding (s.emit str) := by
  have hdec := h.dec.emit hb
  have hout := State.emit_outWf str s h.common.outWf
  obtain ⟨_, _, hframe⟩ := s.emit_frame str
  rw [hframe] at hdec hout ⊢
  exact ⟨h.st, { h.common with outWf := hout }, hdec⟩

theorem Decoding.append {s : State} (h : Decoding s) (hv : s.prevv = true) (hn : s.next.toNat < 4096) {b : Byte}
    (hb : b.toNat < s.clr) : Decoding (s.append s.prev b) := by
  have hdec := h.dec.append hv hn hb
  have hdict : DictMem.wf (s.append s.prev b).dict = true := by
    rw [State.append_dict]
    exact DictMem.wf_set _ _ _ hn h.common.dictWf
  rw [s.append_frame] at hdec hdict ⊢
  exact ⟨h.st, { h.common with dictWf := hdict }, hdec⟩

theorem Decoding.clearContext {s : State} (h : Decoding s) : Decoding s.clearContext where
  st := h.st
  common := { h.common with prev := fun _ => rfl }
  dec := h.dec.clearContext

/-- END stops the decode: what is left of the command is a drain (R101). -/
theorem Decoding.endDecode {s : State} (h : Decoding s) : Inv s.endDecode :=
  CommonInv.inv_of_drain { h.common with } rfl {
    nbits := rfl
    bitbuf := rfl
    closed := h.dec.closed
    cause := h.dec.cause
    decoded := fun _ => rfl
    pos := h.dec.pos }

theorem Decoding.corrupt {s : State} (h : Decoding s) (c : Code) : Inv (s.corrupt c) :=
  CommonInv.halt (s := { s with ecode := c, ewidth := s.w, enext := s.next }) { h.common with } (by decide)

end Sys2Proof.Machine
end

section
/-! SUPPORT. Progress: from a busy state that meets the invariant every block step completes, keeps the invariant, and uses
up input bits or ends the command (R108, R151). -/

namespace Sys2Proof.Machine

/-- The bits a command has still to work on: those of the unread input and those in the accumulator. -/
def State.inputBits (s : State) : Nat := 8 * (s.inp.length - s.ipos) + s.nbits.toNat

@[simp] theorem State.setPrev_inputBits (c : Code) (s : State) : (s.setPrev c).inputBits = s.inputBits := rfl

@[simp] theorem State.emit_inputBits (str : List Byte) (s : State) : (s.emit str).inputBits = s.inputBits := by
  simp [State.inputBits]

@[simp] theorem State.append_inputBits (s : State) (p : Code) (b : Byte) : (s.append p b).inputBits = s.inputBits := by
  simp [State.inputBits]

/-! ### The fetch -/

/-- A byte that enters the accumulator was read from the input: gathering it creates no bits. -/
theorem State.gather_inputBits_le {s t : State} {b : Byte} (h : s.nextByte = .byte b t) :
    (t.gather b).inputBits ≤ s.inputBits := by
  obtain ⟨_, e, _⟩ | ⟨_, e, _⟩ | ⟨_, _, e, _, _, _, hpos, hlen, _, hf⟩ := s.nextByte_flat <;> rw [h] at e <;> cases e
  have hinp : t.inp = s.inp := by rw [hf]
  have hnbits : t.nbits = s.nbits := by rw [hf]
  have h8 : (s.nbits + 8).toNat ≤ s.nbits.toNat + 8 := by
    rw [BitVec.toNat_add]
    exact Nat.mod_le _ _
  simp only [State.inputBits, State.gather_inp, State.gather_ipos, State.gather_nbits, hinp, hnbits]
  omega

theorem State.gatherBits_inputBits_le (n : Nat) {s t : State} (h : s.gatherBits n = .ready t) :
    t.inputBits ≤ s.inputBits := by
  induction n generalizing s with
  | zero => cases h; rfl
  | succ n ih =>
    unfold State.gatherBits at h
    split at h
    · split at h
      · cases h
      · cases h
      · exact (ih h).trans (State.gather_inputBits_le ‹_›)
    · cases h; rfl

/-- The state behind a code cut from the accumulator (R91). -/
def State.dropCode (s : State) : State :=
  { s with bitbuf := s.bitbuf >>> s.w.toNat, nbits := s.nbits - s.w.setWidth 5 }

theorem State.fetchCode_of_ready {s t : State} (h : s.gatherBits 2 = .ready t) :
    s.fetchCode = .code (BitVec.ofNat 12 (t.bitbuf.toNat % 2 ^ t.w.toNat)) t.dropCode := by
  rw [State.fetchCode, h]; rfl

theorem State.fetchCode_of_ended {s t : State} (h : s.gatherBits 2 = .ended t) : s.fetchCode = .ended t := by
  rw [State.fetchCode, h]

theorem State.dropCode_nbits_toNat {s : State} (hw : s.w.toNat ≤ s.nbits.toNat) :
    s.dropCode.nbits.toNat = s.nbits.toNat - s.w.toNat := by
  have := s.w.isLt
  simp only [State.dropCode, BitVec.toNat_sub, BitVec.toNat_setWidth]
  omega

/-- The bits left in the accumulator are the ones above the code. -/
theorem State.dropCode_bitbuf_lt {s : State} (hw : s.w.toNat ≤ s.nbits.toNat)
    (hb : s.bitbuf.toNat < 2 ^ s.nbits.toNat) : s.dropCode.bitbuf.toNat < 2 ^ s.dropCode.nbits.toNat := by
  rw [State.dropCode_nbits_toNat hw]
  simp only [State.dropCode, BitVec.toNat_ushiftRight, Nat.shiftRight_eq_div_pow]
  rw [Nat.div_lt_iff_lt_mul (Nat.two_pow_pos _), ← Nat.pow_add, Nat.sub_add_cancel hw]
  exact hb

/-- A code is cut at the current width (R64). -/
theorem code_lt_two_pow (n w : Nat) : (BitVec.ofNat 12 (n % 2 ^ w)).toNat < 2 ^ w := by
  rw [BitVec.toNat_ofNat]
  exact (Nat.mod_le _ _).trans_lt (Nat.mod_lt _ (Nat.two_pow_pos _))

/-- The reader keeps `BLKREM = 0` where it closes the chain (R18, R82). -/
theorem CommonInv.nextByte {s : State} (h : CommonInv s) : CommonInv s.nextByte.state := by
  refine h.of_frame s.nextByte_frame ?_
  obtain ⟨_, e⟩ | ⟨hc, _, e⟩ | ⟨_, hb, _, e⟩ | ⟨_, hc, _, _, _, _, e⟩ | ⟨_, _, hc, _, _, _, _, e⟩ | ⟨_, hc, _, _, e⟩ :=
    s.nextByte_cases <;> rw [e]
  · exact h.closed
  · exact h.closed
  · exact fun _ => hb
  all_goals exact fun hc' => absurd (hc.symm.trans hc') (by decide)

theorem Held.fetchFrame {s t : State} (h : Held s t) : FetchFrame s t := by
  unfold FetchFrame
  rw [h.frame]

/-- Where the chain ends inside a fetch the command is over, and the state meets the invariant (R91, R106, R124). -/
theorem Decoding.fetch_ends {s t u : State} (h : Decoding s) (hh : Held s t)
    (hu : (t.nextByte = .endChain u ∧ s.gatherBits 2 = .ended u.finish) ∨
      (t.nextByte = .exhausted u ∧ s.gatherBits 2 = .ended (u.halt .truncated))) :
    ∃ v, s.fetchCode = .ended v ∧ Inv v ∧ v.st = .done := by
  have hc : t.closed = false := by rw [hh.frame]; exact h.dec.closed
  have ht : CommonInv t := h.common.of_frame hh.fetchFrame (by simp [hc])
  have hnext := ht.nextByte
  obtain ⟨e, hg⟩ | ⟨e, hg⟩ := hu <;> rw [e] at hnext
  · have hc' : CommonInv u := hnext
    exact ⟨_, State.fetchCode_of_ended hg, hc'.finish, u.finish_st⟩
  · have hc' : CommonInv u := hnext
    exact ⟨_, State.fetchCode_of_ended hg, hc'.halt (by decide), rfl⟩

/-- Where the loop has gathered enough bits, cutting the code off leaves a decode with fewer bits to come (R91). -/
theorem Decoding.fetch_cuts {s t : State} (h : Decoding s) (hg : s.gatherBits 2 = .ready t) (hh : Held s t)
    (hw : s.w.toNat ≤ t.nbits.toNat) (hp : t.ipos ≤ s.inp.length) :
    Decoding t.dropCode ∧ t.dropCode.inputBits < s.inputBits := by
  have htw : t.w = s.w := by rw [hh.frame]
  have hnbits := State.dropCode_nbits_toNat (s := t) (htw ▸ hw)
  constructor
  · have hbits : t.dropCode.nbits.toNat ≤ 7 := by
      have := h.dec.bits
      rw [hnbits, htw]
      obtain hcount | hcount := hh.count
      · omega
      · rw [hcount]; omega
    have hbitbuf := State.dropCode_bitbuf_lt (htw ▸ hw) hh.hi
    have hframe : t.dropCode = { s with
        bitbuf := t.dropCode.bitbuf, nbits := t.dropCode.nbits, ipos := t.ipos, blkrem := t.blkrem } := by
      unfold State.dropCode
      rw [hh.frame]
    rw [hframe]
    exact {
      st := h.st
      common := { h.common with closed := by simp [h.dec.closed] }
      dec := { h.dec with
        width := ⟨h.dec.width.general, h.dec.width.m1Literal, h.dec.width.m1First⟩
        bits := hbits
        bitsHi := hbitbuf
        pos := hp } }
  · have hle := State.gatherBits_inputBits_le 2 hg
    have hm := (legalM_iff.1 h.dec.legal).1
    have hlo := h.dec.widthLo
    have hinp : t.dropCode.inp = t.inp := rfl
    have hipos : t.dropCode.ipos = t.ipos := rfl
    unfold State.inputBits at hle ⊢
    rw [hnbits, hinp, hipos, htw]
    omega

/-- The fetch of a decode in progress ends the command, or delivers a code of the current width and uses up its bits. -/
theorem Decoding.fetchCode_cases {s : State} (h : Decoding s) :
    (∃ v, s.fetchCode = .ended v ∧ Inv v ∧ v.st = .done) ∨
    (∃ c u, s.fetchCode = .code c u ∧ Decoding u ∧ c.toNat < 2 ^ u.w.toNat ∧ u.inputBits < s.inputBits) := by
  have hw := h.dec.widthHi
  obtain ⟨t, hg, hh, hn, hp, _⟩ | ⟨t, u, hh, _, _, _, hu⟩ :=
    State.gatherBits_spec 2 hw h.dec.bitsHi (by omega) h.dec.pos
  · obtain ⟨hd, hlt⟩ := h.fetch_cuts hg hh hn hp
    exact .inr ⟨_, _, State.fetchCode_of_ready hg, hd, code_lt_two_pow _ _, hlt⟩
  · exact .inl (h.fetch_ends hh hu)

/-! ### The codes -/

/-- After executing a code the invariant holds, the block is not back in `IDLE`, and no bits have come back. -/
structure Kept (s t : State) : Prop where
  inv   : Inv t
  alive : t.st ≠ .idle
  bits  : t.inputBits ≤ s.inputBits

theorem Decoding.kept {s t : State} (h : Decoding t) (hb : t.inputBits = s.inputBits) : Kept s t :=
  ⟨h.inv, by simp [h.st], hb.le⟩

/-- A literal or an assigned entry is emitted, and appended where there is a previous code and room (R97, R98). -/
theorem Decoding.knownCode_next {s : State} (h : Decoding s) {c : Code} (hk : s.stringCode c) :
    ∃ t, knownCode c s = .next t ∧ Decoding t ∧ t.inputBits = s.inputBits := by
  obtain ⟨f, rest, hs, hf, hstr⟩ := string_of_dictOk h.dec.dict hk
  have hbytes := hstr.bytes_lt h.dec.dict hk
  have hemit := h.emit hbytes
  have hk' : (s.emit (f :: rest)).stringCode c := by simpa [State.stringCode, State.clr, State.first] using hk
  refine ⟨_, knownCode_of_string h.common.stack hs hf, ?_⟩
  unfold State.afterKnown
  split
  · rename_i hc
    obtain ⟨hv, hn⟩ := hc
    have hv' : (s.emit (f :: rest)).prevv = true := by rw [State.emit_prevv]; exact hv
    have hn' : (s.emit (f :: rest)).next.toNat < 4096 := by rw [State.emit_next]; exact hn
    have hf' : f.toNat < (s.emit (f :: rest)).clr := by
      simpa [State.clr] using hbytes f (.head _)
    have happ := hemit.append hv' hn' hf'
    rw [State.emit_prev] at happ
    exact ⟨happ.setPrev (State.stringCode_append hn' hk' _ _), by simp⟩
  · exact ⟨hemit.setPrev hk', by simp⟩

/-- `KWKWK`: the entry appended at `NEXT` is the string of `PREV` and its first byte again (R99). -/
theorem State.string_append_prev {s : State} {c : Code} {f : Byte} {rest : List Byte} (hd : DictOk s)
    (hp : s.stringCode s.prev) (hlo : s.first ≤ s.next.toNat) (hc : c.toNat = s.next.toNat)
    (hstr : StringIs s.dict s.clr s.prev (f :: rest)) :
    (s.append s.prev f).string c = some (f :: rest ++ [f]) := by
  have hcl := c.isLt
  have hlen := hstr.length_le hd hp
  have hprev : s.prev.toNat < s.next.toNat := by
    simp only [State.stringCode, State.clr, State.first, clrOf, firstOf] at *
    omega
  have hclr : s.clr ≤ c.toNat := by
    simp only [State.clr, State.first, clrOf, firstOf] at *
    omega
  have hent : DictMem.entry (s.append s.prev f).dict c.toNat = ⟨s.prev, f⟩ := by
    rw [State.append_dict, hc]
    exact DictMem.entry_set_same _ _ _
  have hkeep := hstr.append_keeps hd ⟨s.prev, f⟩ hp
  have hnew : StringIs (s.append s.prev f).dict s.clr c (f :: rest ++ [f]) := by
    have := StringIs.entry (d := (s.append s.prev f).dict) c (f :: rest) hclr
    rw [hent] at this
    exact this (by rw [State.append_dict]; exact hkeep)
  have hclr' : (s.append s.prev f).clr = s.clr := by simp [State.clr]
  unfold State.string
  rw [hclr']
  exact walkString_complete hnew (by simp only [List.length_append, List.length_cons, List.length_nil] at *; omega)

theorem Decoding.kwkwkCode_next {s : State} (h : Decoding s) {c : Code} (hc : c.toNat = s.next.toNat)
    (hv : s.prevv = true) : ∃ t, kwkwkCode c s = .next t ∧ Decoding t ∧ t.inputBits = s.inputBits := by
  have hp := h.dec.prevCode hv
  have hlo := h.dec.slotLo
  have hn : s.next.toNat < 4096 := hc ▸ c.isLt
  obtain ⟨f, rest, _, hf, hstr⟩ := string_of_dictOk h.dec.dict hp
  have hbytes := hstr.bytes_lt h.dec.dict hp
  have hfb := hbytes f (.head _)
  refine ⟨_, kwkwkCode_of_string h.common.stack hf (State.string_append_prev h.dec.dict hp hlo hc hstr), ?_, by simp⟩
  have hclr : (s.append s.prev f).clr = s.clr := by simp [State.clr]
  refine ((h.append hv hn hfb).emit fun b hb => ?_).setPrev ?_
  · rw [hclr]
    obtain hb | hb := List.mem_append.1 hb
    · exact hbytes b hb
    · rw [List.mem_singleton.1 hb]; exact hfb
  · simp only [State.stringCode, State.clr, State.first, State.emit_m, State.emit_next, State.append_m,
      State.append_next_toNat hn] at *
    omega

/-- Every code completes in a decode in progress, whatever its class (R67), and gives no bits back. -/
theorem Decoding.exec_classifyCode_next {s : State} (h : Decoding s) (c : Code) :
    ∃ t, exec (classifyCode s.ctx c) s = .next t ∧ Kept s t := by
  rw [exec_classifyCode]
  split_ifs with hclr heoi hknown hkwkwk
  · exact ⟨_, rfl, h.clearContext.kept rfl⟩
  · exact ⟨_, rfl, ⟨h.endDecode, nofun, Nat.le_add_right _ _⟩⟩
  · have hk : s.stringCode c := by
      simp only [State.stringCode, State.clr, State.first, State.ctx, clrOf, eoiOf, firstOf] at *
      omega
    obtain ⟨t, e, ht, hb⟩ := h.knownCode_next hk
    exact ⟨t, e, ht.kept hb⟩
  · obtain ⟨hc, hv⟩ := hkwkwk
    obtain ⟨t, e, ht, hb⟩ := h.kwkwkCode_next hc hv
    exact ⟨t, e, ht.kept hb⟩
  · exact ⟨_, rfl, ⟨h.corrupt c, nofun, Nat.le_add_right _ _⟩⟩

/-! ### The block steps -/

/-- After a block step the invariant holds, the block is not back in `IDLE`, and a command still running has fewer bits. -/
structure Progress (s t : State) : Prop where
  inv   : Inv t
  alive : t.st ≠ .idle
  fewer : t.busy = true → t.inputBits < s.inputBits

theorem Progress.of_done {s t : State} (h : Inv t) (hs : t.st = .done) : Progress s t :=
  ⟨h, by simp [hs], by simp [State.busy, hs]⟩

theorem decodeStep_progress {s : State} (h : Decoding s) : ∃ t, decodeStep s = .next t ∧ Progress s t := by
  obtain ⟨v, e, hv, hdone⟩ | ⟨c, u, e, hu, hc, hlt⟩ := h.fetchCode_cases
  · exact ⟨v, by rw [decodeStep, e], .of_done hv hdone⟩
  · obtain ⟨t, he, hk⟩ := hu.exec_classifyCode_next c
    exact ⟨t, by rw [decodeStep, e]; exact (runItem_code hc).trans he, hk.inv, hk.alive, fun _ => hk.bits.trans_lt hlt⟩

/-- A drain step that consumes a length byte or a data byte, whatever `BLKREM` it leaves. -/
theorem drain_consumes {s : State} (h : Inv s) (hs : s.st = .drain) {b : Byte} (hi : s.inp[s.ipos]? = some b)
    (rem : BitVec 8) : Progress s { s.advance with blkrem := rem } := by
  have hd := h.drain hs
  have hlt : s.ipos < s.inp.length := (List.getElem?_eq_some_iff.1 hi).1
  have hc : CommonInv { s.advance with blkrem := rem } := { h.common with closed := by simp [hd.closed] }
  refine ⟨hc.inv_of_drain hs { hd with pos := hlt }, by simp [hs], fun _ => ?_⟩
  simp only [State.inputBits, State.advance_inp, State.advance_ipos, State.advance_nbits]
  omega

theorem drainStep_progress {s : State} (h : Inv s) (hs : s.st = .drain) :
    ∃ t, drainStep s = .next t ∧ Progress s t := by
  have hc := h.common
  obtain ⟨_, e⟩ | ⟨hb, _, e⟩ | ⟨len, _, hi, _, e⟩ | ⟨b, _, hi, e⟩ := drainStep_cases hs (h.drain hs).closed
  · exact ⟨_, e, .of_done (hc.halt (by decide)) rfl⟩
  · have hterm : CommonInv s.takeTerm := { hc with closed := fun _ => hb }
    exact ⟨_, e, .of_done hterm.finish (State.finish_st _)⟩
  · exact ⟨_, e, drain_consumes h hs hi len⟩
  · exact ⟨_, e, drain_consumes h hs hi (s.blkrem - 1)⟩

/-- A block step of a running command completes, keeps the invariant, and uses up input bits unless it ends the command. -/
theorem blockStep_progress {s : State} (h : Inv s) (hb : s.busy = true) :
    ∃ t, blockStep s = .next t ∧ Progress s t := by
  have hs : s.st = .decode ∨ s.st = .drain := by simpa [State.busy] using hb
  unfold blockStep
  obtain hs | hs := hs <;> rw [hs]
  · exact decodeStep_progress (h.decoding hs)
  · exact drainStep_progress h hs

theorem State.done_of_not_busy {s : State} (hb : s.busy = false) (hi : s.st ≠ .idle) : s.st = .done := by
  cases hs : s.st with
  | idle => exact absurd hs hi
  | decode => simp [State.busy, hs] at hb
  | drain => simp [State.busy, hs] at hb
  | done => rfl

/-- As many block steps as there are bits, and one more, end the command. -/
theorem runCommand_reaches_done {n : Nat} {s : State} (h : Inv s) (hb : s.busy = true) (hn : s.inputBits < n) :
    ∃ t, runCommand n s = .next t ∧ t.st = .done := by
  induction n generalizing s with
  | zero => omega
  | succ n ih =>
    obtain ⟨t, e, ht⟩ := blockStep_progress h hb
    rw [runCommand_succ n hb e]
    cases hbt : t.busy with
    | true => exact ih ht.inv hbt ((ht.fewer hbt).trans_le (Nat.le_of_lt_succ hn))
    | false => exact ⟨t, runCommand_idle n hbt, State.done_of_not_busy hbt ht.alive⟩

/-- Settles O49, by induction on the number of block steps: each uses up at least one of the bits left. -/
theorem commandReachesDone : Obligations.CommandReachesDone :=
  fun s h hb => runCommand_reaches_done h hb (Nat.lt_succ_self s.inputBits)

end Sys2Proof.Machine
end

section
/-! SUPPORT. The invariant over the host's operations, and over every step. -/

namespace Sys2Proof.Machine

/-! ### States in which no command runs -/

/-- While no command runs the invariant asks nothing of the operands of the next command, the input or the slice. -/
theorem CommonInv.inv_of_not_busy {s : State} (h : CommonInv s) (hb : s.busy = false) (hi : s.st = .idle → IdleInv s)
    (hd : s.st = .done → DoneInv s) : Inv s where
  outWf := h.outWf
  dictWf := h.dictWf
  stack := h.stack
  closed := h.closed
  prev := h.prev
  idle := hi
  decode hs := by simp [State.busy, hs] at hb
  drain hs := by simp [State.busy, hs] at hb
  done := hd

/-- Reset, in every state with canonical memories, leads to a state that meets the invariant (R31, R141). -/
theorem CommonInv.resetBlock {s : State} (h : CommonInv s) : Inv s.resetBlock :=
  CommonInv.inv_of_not_busy ⟨h.outWf, h.dictWf, rfl, fun _ => rfl, fun _ => rfl⟩ rfl (fun _ => ⟨rfl, rfl, rfl⟩) nofun

/-- Settles O46: `State.reset` is the reset of a state with empty memories. -/
theorem resetMeetsInvariant : Obligations.ResetMeetsInvariant :=
  CommonInv.resetBlock (s := State.reset) ⟨rfl, rfl, rfl, fun _ => rfl, fun _ => rfl⟩

/-- The fields that are the model's own are no part of the invariant. -/
theorem Inv.host_fields {s : State} (h : Inv s) (queue : List HostOp) (r : Word) (n : Nat) :
    Inv { s with host := queue, rdata := r, freeCtr := n } :=
  { h with
    idle := fun hs => { h.idle hs with }
    decode := fun hs =>
      let hd := h.decode hs
      { hd with width := ⟨hd.width.general, hd.width.m1Literal, hd.width.m1First⟩ }
    drain := fun hs => { h.drain hs with }
    done := fun hs => { h.done hs with } }

theorem Inv.blockView {s : State} (h : Inv s) : Inv s.blockView := by
  rw [s.blockView_eq]
  exact h.host_fields _ _ _

/-- Between commands the host may set the operands of the next one and fill its output memory (R116, R143). -/
theorem Inv.operands {s : State} (h : Inv s) (hb : s.busy = false) {mem : Memory} (hmem : Memory.wf mem = true)
    (m : BitVec 4) (olen : BitVec 32) (inp : List Byte) (base len : Nat) :
    Inv { s with m := m, olen := olen, inp := inp, out := mem, outBase := base, outLen := len } :=
  CommonInv.inv_of_not_busy { h.common with outWf := hmem } hb (fun hs => { h.idle hs with })
    (fun hs => { h.done hs with })

/-! ### The commands -/

/-- `START` of a legal `M` with a slice of `OLEN` bytes begins a decode that meets R29 (R113). -/
theorem DecodeInv.startDecode {s : State} (hm : legalM s.m = true) (hl : s.olen.toNat ≤ s.outLen) :
    DecodeInv s.startDecode := by
  have hm8 := (legalM_iff.1 hm).2
  have hpow := Nat.pow_le_pow_right (n := 2) (by decide) hm8
  have hnext : s.startDecode.next.toNat = s.first := State.clearContext_next_toNat hm8
  have hw : s.startDecode.w.toNat = s.m.toNat + 1 := State.clearContext_w_toNat hm8
  have hfirst : s.first = 2 ^ s.m.toNat + 2 := rfl
  have hwidth := WidthRule.clearContext hm8
  exact {
    legal := hm
    widthLo := hw.ge
    widthHi := by omega
    slotLo := hnext.ge
    slotHi := by omega
    width := ⟨hwidth.general, hwidth.m1Literal, hwidth.m1First⟩
    noPrev := fun _ => ⟨hnext, hw⟩
    prevCode := nofun
    dict := fun n hlo hhi => by
      have : s.first ≤ n := hlo
      omega
    bits := Nat.zero_le 7
    bitsHi := Nat.one_pos
    count := Nat.zero_le _
    bytes := nofun
    slice := hl
    closed := rfl
    endseen := rfl
    cause := rfl
    mode := rfl
    pos := Nat.zero_le _ }

theorem CommonInv.startDecode {s : State} (h : CommonInv s) (hm : legalM s.m = true) (hl : s.olen.toNat ≤ s.outLen) :
    Decoding s.startDecode where
  st := rfl
  common := { h with closed := nofun, prev := fun _ => rfl }
  dec := .startDecode hm hl

theorem CommonInv.startIllegal {s : State} (h : CommonInv s) : Inv s.startIllegal :=
  CommonInv.halt (s := { s.beginCommand false with ocnt := 0, prev := 0, prevv := false, w := 0, next := 0 })
    { h with closed := nofun, prev := fun _ => rfl } (by decide)

theorem CommonInv.startDrain {s : State} (h : CommonInv s) : Inv s.startDrain :=
  CommonInv.inv_of_drain { h with closed := nofun } rfl {
    nbits := rfl
    bitbuf := rfl
    closed := rfl
    cause := rfl
    decoded := nofun
    pos := Nat.zero_le _ }

theorem execCmd_keeps_inv {v : BitVec 2} {s t : State} (h : Inv s) (he : exec (classifyCmd v) s = .next t) : Inv t := by
  obtain rfl | ⟨_, ⟨_, hm, hl, rfl⟩ | ⟨_, _, rfl⟩ | ⟨_, rfl⟩⟩ := execCmd_cases he
  · exact h
  · exact (h.common.startDecode hm hl).inv
  · exact h.common.startIllegal
  · exact h.common.startDrain

/-! ### Every step -/

theorem hostOp_keeps_inv {op : HostOp} {s t : State} (h : Inv s) (he : hostOp op s = .next t) : Inv t := by
  obtain ⟨_, rfl⟩ | ⟨v, _, hc⟩ | ⟨hb, m, olen, inp, base, len, rfl, _⟩ | ⟨a, v, _, hb, _, rfl⟩ | ⟨r, n, rfl⟩ :=
    hostOp_cases he
  · exact h.common.resetBlock
  · exact execCmd_keeps_inv h hc
  · exact h.operands hb h.outWf m olen inp base len
  · exact h.operands hb (Memory.wf_write _ _ v h.outWf) s.m s.olen s.inp s.outBase s.outLen
  · exact h.host_fields s.host r n

/-- Where no command runs a block step leaves the state as it is (R4). -/
theorem blockStep_of_not_busy {s : State} (hb : s.busy = false) : blockStep s = .next s := by
  unfold blockStep
  cases hs : s.st with
  | idle => rfl
  | decode => simp [State.busy, hs] at hb
  | drain => simp [State.busy, hs] at hb
  | done => rfl

/-- In a state that meets the invariant a block step always completes, and keeps the invariant. -/
theorem blockStep_keeps_inv {s : State} (h : Inv s) : ∃ t, blockStep s = .next t ∧ Inv t := by
  cases hb : s.busy with
  | true =>
    obtain ⟨t, e, ht⟩ := blockStep_progress h hb
    exact ⟨t, e, ht.inv⟩
  | false => exact ⟨s, blockStep_of_not_busy hb, h⟩

/-- Settles O47: by whose turn it is; a block step and every host operation keep the invariant. -/
theorem stepKeepsInvariant : Obligations.StepKeepsInvariant := by
  intro s t h hstep
  cases hb : s.blockTurn with
  | true =>
    obtain ⟨u, e, hu⟩ := blockStep_keeps_inv h.blockView
    rw [step_of_blockTurn hb, e] at hstep
    cases hstep
    exact hu
  | false =>
    obtain ⟨op, rest, _, _, _, e⟩ := step_of_hostTurn hb
    rw [e] at hstep
    exact hostOp_keeps_inv (h.host_fields rest s.rdata s.freeCtr) hstep

end Sys2Proof.Machine
end

section
/-! SUPPORT. What stops the machine: a host operation outside the admitted use, and nothing the block does. -/

namespace Sys2Proof.Machine

/-- The faults of a host operation: no register at the offset, or no byte of the slice at the address. -/
def HostFault (s : State) (op : HostOp) (f : Fault) : Prop :=
  (∃ off, f = .unmappedRegister off ∧ csrAt off = none ∧ (op = .read off ∨ ∃ v, op = .write off v)) ∨
  (∃ a, f = .outsideSlice a ∧ s.busy = false ∧ s.outLen ≤ a ∧ (op = .readOut a ∨ ∃ v, op = .writeOut a v))

/-- The refusals of a host operation (R50, R52, R146, U9). -/
def HostRefusal (s : State) (op : HostOp) (r : Refusal) : Prop :=
  (r = .readWhileBusy ∧ s.busy = true ∧
    ((∃ a, op = .readOut a) ∨ ∃ off, (off = 0x10 ∨ off = 0x14 ∨ off = 0x18 ∨ off = 0x1C) ∧ op = .read off)) ∨
  (r = .inputChangedWhileBusy ∧ s.busy = true ∧ ∃ bytes, op = .bindIn bytes) ∨
  (r = .outputChangedWhileBusy ∧ s.busy = true ∧ ((∃ base len, op = .bindOut base len) ∨ ∃ a v, op = .writeOut a v)) ∨
  (r = .outputSliceTooShort ∧ s.busy = false ∧ 1 ≤ s.m.toNat ∧ s.m.toNat ≤ 8 ∧ s.outLen < s.olen.toNat ∧
    ∃ v : Word, v.toNat % 4 = 1 ∧ op = .write 0x00 v)

theorem csrAt_eq_some {off : Nat} {r : Csr} (h : csrAt off = some r) : off = r.offset := by
  unfold csrAt at h
  split_ifs at h <;> cases h <;> assumption

/-- A command completes, or it is a `START` of a legal `M` with too short a slice. -/
theorem execCmd_completes_or (v : BitVec 2) (s : State) :
    (∃ t, exec (classifyCmd v) s = .next t) ∨
    (exec (classifyCmd v) s = .refused .outputSliceTooShort ∧ v.toNat = 1 ∧ s.busy = false ∧ legalM s.m = true ∧
      s.outLen < s.olen.toNat) := by
  unfold classifyCmd
  split
  · exact .inl ⟨_, rfl⟩
  · rename_i hv
    simp only [exec, execStart]
    split_ifs with hb hm hl
    · exact .inl ⟨_, rfl⟩
    · exact .inl ⟨_, rfl⟩
    · exact .inr ⟨rfl, hv, by simpa using hb, hm, by omega⟩
    · exact .inl ⟨_, rfl⟩
  · simp only [exec, execSkip]
    split <;> exact .inl ⟨_, rfl⟩
  · exact .inl ⟨_, rfl⟩

/-- A register write completes, or it is a command that is refused. -/
theorem writeCsr_completes_or (r : Csr) (v : Word) (s : State) :
    (∃ t, writeCsr r v s = .next t) ∨
    (∃ e, writeCsr r v s = .refused e ∧ HostRefusal s (.write r.offset v) e) := by
  cases r with
  | ctrl =>
    obtain ⟨t, e⟩ | ⟨e, hv, hb, hm, hl⟩ := execCmd_completes_or (v.setWidth 2) s
    · exact .inl ⟨t, e⟩
    · obtain ⟨hlo, hhi⟩ := legalM_iff.1 hm
      rw [BitVec.toNat_setWidth] at hv
      exact .inr ⟨_, e, .inr (.inr (.inr ⟨rfl, hb, hlo, hhi, hl, v, hv, rfl⟩))⟩
  | mincode | olen => simp only [writeCsr]; split <;> exact .inl ⟨_, rfl⟩
  | status | ocnt | icnt | einfo | dstate => exact .inl ⟨s, rfl⟩

/-- A register read completes, or it reads a word of a decode in progress. -/
theorem readCsr_completes_or (r : Csr) (s : State) :
    (∃ t, readCsr r s = .next t) ∨ (∃ e, readCsr r s = .refused e ∧ HostRefusal s (.read r.offset) e) := by
  cases r with
  | ctrl | mincode | olen => exact .inl ⟨_, rfl⟩
  | status => simp only [readCsr]; split <;> exact .inl ⟨_, rfl⟩
  | ocnt | icnt | einfo | dstate =>
    simp only [readCsr]
    split
    · rename_i hb
      exact .inr ⟨_, rfl, .inl ⟨rfl, hb, .inr ⟨_, by decide, rfl⟩⟩⟩
    · exact .inl ⟨_, rfl⟩

/-- Everything a host operation can end in: a next state, or one of the stops of its misuse. -/
theorem hostOp_completes_or (op : HostOp) (s : State) :
    (∃ t, hostOp op s = .next t) ∨ (∃ f, hostOp op s = .fault f ∧ HostFault s op f) ∨
    (∃ r, hostOp op s = .refused r ∧ HostRefusal s op r) := by
  cases op with
  | write off v =>
    simp only [hostOp]
    cases hr : csrAt off with
    | none => exact .inr (.inl ⟨_, rfl, .inl ⟨off, rfl, hr, .inr ⟨v, rfl⟩⟩⟩)
    | some r =>
      rw [csrAt_eq_some hr]
      exact (writeCsr_completes_or r v s).imp_right .inr
  | read off =>
    simp only [hostOp]
    cases hr : csrAt off with
    | none => exact .inr (.inl ⟨_, rfl, .inl ⟨off, rfl, hr, .inl rfl⟩⟩)
    | some r =>
      rw [csrAt_eq_some hr]
      exact (readCsr_completes_or r s).imp_right .inr
  | readOut a =>
    simp only [hostOp]
    split_ifs with hb hl
    · exact .inr (.inr ⟨_, rfl, .inl ⟨rfl, hb, .inl ⟨a, rfl⟩⟩⟩)
    · exact .inl ⟨_, rfl⟩
    · exact .inr (.inl ⟨_, rfl, .inr ⟨a, rfl, by simpa using hb, by omega, .inl rfl⟩⟩)
  | writeOut a v =>
    simp only [hostOp]
    split_ifs with hb hl
    · exact .inr (.inr ⟨_, rfl, .inr (.inr (.inl ⟨rfl, hb, .inr ⟨a, v, rfl⟩⟩))⟩)
    · exact .inl ⟨_, rfl⟩
    · exact .inr (.inl ⟨_, rfl, .inr ⟨a, rfl, by simpa using hb, by omega, .inr ⟨v, rfl⟩⟩⟩)
  | bindOut base len =>
    simp only [hostOp]
    split
    · exact .inr (.inr ⟨_, rfl, .inr (.inr (.inl ⟨rfl, ‹_›, .inl ⟨base, len, rfl⟩⟩))⟩)
    · exact .inl ⟨_, rfl⟩
  | bindIn bytes =>
    simp only [hostOp]
    split
    · exact .inr (.inr ⟨_, rfl, .inr (.inl ⟨rfl, ‹_›, bytes, rfl⟩)⟩)
    · exact .inl ⟨_, rfl⟩
  | sampleDone | reset | waitNotBusy | letRun => exact .inl ⟨_, rfl⟩

/-- A step from a state that meets the invariant completes, or stops on the host's next operation. -/
theorem step_completes_or {s : State} (h : Inv s) :
    (∃ t, step s = .next t) ∨
    ∃ op rest, s.host = op :: rest ∧
      ((∃ f, step s = .fault f ∧ HostFault s op f) ∨ (∃ r, step s = .refused r ∧ HostRefusal s op r)) := by
  cases hb : s.blockTurn with
  | true =>
    obtain ⟨t, e, _⟩ := blockStep_keeps_inv h.blockView
    exact .inl ⟨t, (step_of_blockTurn hb).trans e⟩
  | false =>
    obtain ⟨op, rest, hq, _, _, e⟩ := step_of_hostTurn hb
    rw [e]
    exact (hostOp_completes_or op { s with host := rest }).imp_right fun hstop => ⟨op, rest, hq, hstop⟩

/-- Settles O48: block steps complete under the invariant, so a stop is one of the host operation at the head of the
queue, whose stops `hostOp_completes_or` lists. -/
theorem onlyHostMisuseStops : Obligations.OnlyHostMisuseStops := by
  intro s h
  refine ⟨(blockStep_keeps_inv h).imp fun _ ht => ht.1, fun f hf => ?_, fun r hr => ?_⟩
  · obtain ⟨t, e⟩ | ⟨op, rest, hq, ⟨_, e, hop⟩ | ⟨_, e, _⟩⟩ := step_completes_or h <;> rw [e] at hf <;> cases hf
    exact ⟨op, rest, hq, hop⟩
  · obtain ⟨t, e⟩ | ⟨op, rest, hq, ⟨_, e, _⟩ | ⟨_, e, hop⟩⟩ := step_completes_or h <;> rw [e] at hr <;> cases hr
    exact ⟨op, rest, hq, hop⟩

end Sys2Proof.Machine
end

section
/-! SUPPORT. Where a step can take `ST` and the stream position, in every state, the invariant met or not. -/

namespace Sys2Proof.Machine

/-! ### Block steps -/

/-- What each part of a block step does to the stream: `IN` is kept, `IPOS` moves forward, not past the end of `IN`
(R41). And the block is not led back to `IDLE` (R11). -/
structure Forward (s t : State) : Prop where
  inp    : t.inp = s.inp
  ipos   : s.ipos ≤ t.ipos
  inside : s.ipos ≤ s.inp.length → t.ipos ≤ s.inp.length
  alive  : s.st ≠ .idle → t.st ≠ .idle

theorem Forward.refl (s : State) : Forward s s := ⟨rfl, le_refl _, id, id⟩

theorem Forward.trans {s t u : State} (h1 : Forward s t) (h2 : Forward t u) : Forward s u where
  inp := h2.inp.trans h1.inp
  ipos := h1.ipos.trans h2.ipos
  inside h := h1.inp ▸ h2.inside (h1.inp.symm ▸ h1.inside h)
  alive h := h2.alive (h1.alive h)

/-- An operation that leaves the stream where it is. -/
theorem Forward.of_same {s t : State} (hi : t.inp = s.inp) (hp : t.ipos = s.ipos) (ha : s.st ≠ .idle → t.st ≠ .idle) :
    Forward s t := ⟨hi, hp.ge, fun h => hp ▸ h, ha⟩

theorem Forward.halt (c : Cause) (s : State) : Forward s (s.halt c) := .of_same rfl rfl nofun

theorem Forward.finish (s : State) : Forward s s.finish := .of_same s.finish_inp s.finish_ipos (by simp)

/-- Consuming the byte at `IPOS`, whatever the reader makes of it (R81 to R83). -/
theorem Forward.consume {s t : State} {b : Byte} (hb : s.inp[s.ipos]? = some b) (hi : t.inp = s.inp)
    (hp : t.ipos = s.ipos + 1) (hs : t.st = s.st) : Forward s t where
  inp := hi
  ipos := by omega
  inside _ := hp ▸ (List.getElem?_eq_some_iff.1 hb).1
  alive h := hs ▸ h

theorem Forward.nextByte (s : State) : Forward s s.nextByte.state := by
  obtain ⟨_, e⟩ | ⟨_, _, e⟩ | ⟨_, _, hi, e⟩ | ⟨len, _, _, _, hi, _, e⟩ | ⟨len, b, _, _, _, hi, hj, e⟩ |
    ⟨b, _, _, hi, e⟩ := s.nextByte_cases <;> rw [e]
  · exact .refl s
  · exact .refl s
  · exact .consume hi rfl rfl rfl
  · exact .consume hi rfl rfl rfl
  · have hlen : Forward s (s.takeLen len) := .consume hi rfl rfl rfl
    exact hlen.trans (.consume hj rfl rfl rfl)
  · exact .consume hi rfl rfl rfl

theorem Forward.gatherBits (n : Nat) (s : State) : Forward s (s.gatherBits n).state := by
  induction n generalizing s with
  | zero => exact .refl s
  | succ n ih =>
    have hnext := Forward.nextByte s
    unfold State.gatherBits
    split
    · cases h : s.nextByte <;> rw [h] at hnext
      case byte b t =>
        have hgather : Forward t (t.gather b) := .of_same rfl rfl id
        exact hnext.trans (hgather.trans (ih _))
      case endChain t => exact hnext.trans (.finish t)
      case exhausted t => exact hnext.trans (.halt .truncated t)
    · exact .refl s

theorem Forward.fetchCode (s : State) : Forward s s.fetchCode.state := by
  have hgather := Forward.gatherBits 2 s
  unfold State.fetchCode
  cases h : s.gatherBits 2 <;> rw [h] at hgather
  case ready t =>
    have hcut : Forward t t.cutCode.state := .of_same rfl rfl id
    exact hgather.trans hcut
  case ended t => exact hgather

theorem exec_classifyCode_forward {x : Ctx} {c : Code} {s t : State} (h : exec (classifyCode x c) s = .next t) :
    Forward s t := by
  rw [exec_classifyCode] at h
  split_ifs at h
  · cases h; exact .of_same rfl rfl id
  · cases h; exact .of_same rfl rfl nofun
  · obtain ⟨str, u, rfl, ⟨_, _, f, rfl⟩ | ⟨_, rfl⟩⟩ := knownCode_cases h <;>
      exact .of_same (by simp) (by simp) (by simp)
  · obtain ⟨f, str, rfl⟩ := kwkwkCode_cases h
    exact .of_same (by simp) (by simp) (by simp)
  · cases h; exact .of_same rfl rfl nofun

theorem decodeStep_forward {s t : State} (h : decodeStep s = .next t) : Forward s t := by
  have hfetch := Forward.fetchCode s
  obtain hu | ⟨c, u, hu, he⟩ := decodeStep_cases h <;> rw [hu] at hfetch
  · exact hfetch
  · exact hfetch.trans (exec_classifyCode_forward he)

/-- A drain step (R86) moves the stream forward, and stays in `DRAIN` or ends in `DONE`. -/
theorem drainStep_forward {s t : State} (hs : s.st = .drain) (h : drainStep s = .next t) :
    Forward s t ∧ (t.st = .drain ∨ t.st = .done) := by
  cases hc : s.closed with
  | true =>
    simp only [drainStep, hc, if_true] at h
    cases h
    exact ⟨.finish s, .inr s.finish_st⟩
  | false =>
    obtain ⟨_, e⟩ | ⟨_, hi, e⟩ | ⟨len, _, hi, _, e⟩ | ⟨b, _, hi, e⟩ := drainStep_cases hs hc <;>
      rw [e] at h <;> cases h
    · exact ⟨.halt .truncated s, .inr rfl⟩
    · have hterm : Forward s s.takeTerm := .consume hi rfl rfl rfl
      exact ⟨hterm.trans (.finish _), .inr (State.finish_st _)⟩
    · exact ⟨.consume hi rfl rfl rfl, .inl hs⟩
    · exact ⟨.consume hi rfl rfl rfl, .inl hs⟩

/-- Every block step moves the stream forward and makes a transition of R11. -/
theorem blockStep_forward {s t : State} (h : blockStep s = .next t) : Forward s t ∧ s.st.mayBecome t.st = true := by
  unfold blockStep at h
  split at h
  · rename_i hs
    have hf := decodeStep_forward h
    have hne := hf.alive (by simp [hs])
    refine ⟨hf, ?_⟩
    rw [hs]
    cases ht : t.st with
    | idle => exact absurd ht hne
    | decode | drain | done => rfl
  · rename_i hs
    obtain ⟨hf, ht⟩ := drainStep_forward hs h
    refine ⟨hf, ?_⟩
    rw [hs]
    obtain ht | ht := ht <;> rw [ht] <;> rfl
  · rename_i hs
    cases h
    exact ⟨.refl s, by rw [hs]; rfl⟩
  · rename_i hs
    cases h
    exact ⟨.refl s, by rw [hs]; rfl⟩

/-! ### Host operations -/

theorem CtlState.mayBecome_refl (c : CtlState) : c.mayBecome c = true := by cases c <;> rfl

/-- From a state in which no command runs the block may go to every state but `IDLE` (R11). -/
theorem State.mayBecome_of_not_busy {s : State} (hb : s.busy = false) {c : CtlState} (hc : c ≠ .idle) :
    s.st.mayBecome c = true := by
  cases hs : s.st with
  | decode | drain => simp [State.busy, hs] at hb
  | idle | done =>
    cases c with
    | idle => exact absurd rfl hc
    | decode | drain | done => rfl

/-- What a host operation can do to `ST` and `IPOS`: nothing, or what reset and an accepted `START` or `SKIP` do. -/
theorem hostOp_moves {op : HostOp} {s t : State} (h : hostOp op s = .next t) :
    (t.st = s.st ∧ t.ipos = s.ipos) ∨
    (op = .reset ∧ t.st = .idle ∧ t.ipos = 0) ∨
    (s.busy = false ∧ t.st ≠ .idle ∧ t.ipos = 0 ∧
      ∃ v : Word, (v.toNat % 4 = 1 ∨ v.toNat % 4 = 2) ∧ op = .write 0x00 v) := by
  obtain ⟨hop, rfl⟩ | ⟨v, hop, he⟩ | ⟨_, m, olen, inp, base, len, rfl, _⟩ | ⟨a, v, _, _, _, rfl⟩ | ⟨r, n, rfl⟩ :=
    hostOp_cases h
  · exact .inr (.inl ⟨hop, rfl, rfl⟩)
  · have hcmd : (v.setWidth 2).toNat = v.toNat % 4 := BitVec.toNat_setWidth 2 v
    obtain rfl | ⟨hb, ⟨hv, _, _, rfl⟩ | ⟨hv, _, rfl⟩ | ⟨hv, rfl⟩⟩ := execCmd_cases he
    · exact .inl ⟨rfl, rfl⟩
    · exact .inr (.inr ⟨hb, nofun, rfl, v, .inl (hcmd ▸ hv), hop⟩)
    · exact .inr (.inr ⟨hb, nofun, rfl, v, .inl (hcmd ▸ hv), hop⟩)
    · exact .inr (.inr ⟨hb, nofun, rfl, v, .inr (hcmd ▸ hv), hop⟩)
  · exact .inl ⟨rfl, rfl⟩
  · exact .inl ⟨rfl, rfl⟩
  · exact .inl ⟨rfl, rfl⟩

/-! ### Every step -/

/-- In a block turn the step is the block step from the same state, the queue apart. -/
theorem step_forward {s t : State} (hb : s.blockTurn = true) (h : step s = .next t) :
    Forward s t ∧ s.st.mayBecome t.st = true := by
  rw [step_of_blockTurn hb] at h
  have hf := blockStep_forward h
  rw [s.blockView_eq] at hf
  obtain ⟨hforward, hst⟩ := hf
  exact ⟨{ hforward with }, hst⟩

/-- Settles O50: a block step makes a transition of R11; of the host's operations only reset leads to `IDLE`, and a
command is accepted only while no command runs. -/
theorem controlStateTransitions : Obligations.ControlStateTransitions := by
  intro s t h
  cases hb : s.blockTurn with
  | true => exact .inl (step_forward hb h).2
  | false =>
    obtain ⟨op, rest, hq, _, _, e⟩ := step_of_hostTurn hb
    rw [e] at h
    obtain ⟨hst, _⟩ | ⟨rfl, hst, _⟩ | ⟨hnb, hst, _⟩ := hostOp_moves h
    · exact .inl (hst ▸ CtlState.mayBecome_refl _)
    · exact .inr ⟨hst, rest, hq⟩
    · exact .inl (State.mayBecome_of_not_busy hnb hst)

/-- Settles O51: a block step moves the stream forward inside `IN`; a host operation leaves the position or, being
reset, `START` or `SKIP`, puts it to 0. -/
theorem streamPositionMovesForward : Obligations.StreamPositionMovesForward := by
  intro s t h
  refine ⟨fun hb => ?_, fun hb => ?_⟩
  · obtain ⟨hf, _⟩ := step_forward hb h
    exact ⟨hf.ipos, hf.inp, fun hp => hf.inp ▸ hf.inside hp⟩
  · obtain ⟨op, rest, hq, _, _, e⟩ := step_of_hostTurn hb
    rw [e] at h
    obtain ⟨_, hp⟩ | ⟨rfl, _, hp⟩ | ⟨hnb, _, hp, v, hv, rfl⟩ := hostOp_moves h
    · exact .inl hp
    · exact .inr ⟨hp, rest, .inl hq⟩
    · exact .inr ⟨hp, rest, .inr ⟨hnb, v, hv, hq⟩⟩

end Sys2Proof.Machine
end

section
/-! SUPPORT. The strings of the codes that can be decoded: their bytes (R109) and their length (R29 item 9). -/

namespace Sys2Proof.Machine

/-- Settles O53: the bytes of a string by induction along the chain of `PFX` fields, those written by the invariant. -/
theorem outputBytesBelowPowerOfM : Obligations.OutputBytesBelowPowerOfM :=
  fun _ h => ⟨fun _ _ hk hstr => hstr.bytes_lt h.dict hk, h.bytes⟩

theorem StringIs.length_of_literal {d : DictMem} {clr : Nat} {k : Code} {str : List Byte} (hk : k.toNat < clr)
    (h : StringIs d clr k str) : str.length = 1 := by
  cases h with
  | literal => rfl
  | entry _ _ hge _ => omega

/-- The string of an assigned entry `k` has two or more bytes, and at most `k - CLR`: each step along the `PFX` fields
is a byte, they descend, and they pass over CLEAR and END. -/
theorem StringIs.length_of_entry {s : State} (hd : DictOk s) {k : Code} {str : List Byte} (hlo : s.first ≤ k.toNat)
    (hhi : k.toNat < s.next.toNat) (h : StringIs s.dict s.clr k str) :
    2 ≤ str.length ∧ str.length ≤ k.toNat - s.clr := by
  have hfirst : s.first = s.clr + 2 := rfl
  have heoi : s.eoi = s.clr + 1 := rfl
  generalize hn : k.toNat = n
  induction n using Nat.strong_induction_on generalizing k str with
  | _ n ih =>
    cases h with
    | literal _ hlit => omega
    | entry _ str hge hs =>
      obtain ⟨e, he, hlt, hneClr, hneEoi, _⟩ := hd k.toNat hlo hhi
      rw [DictMem.entry_of_find he] at hs
      rw [List.length_append, List.length_singleton]
      by_cases hlit : e.pfx.toNat < s.clr
      · have hlen := hs.length_of_literal hlit
        omega
      · have hlen := ih e.pfx.toNat (by omega) (by omega) (by omega) hs rfl
        omega

/-- Settles O54: the walk finds the string, and its length is that of the walk. -/
theorem stringLengthBound : Obligations.StringLengthBound := by
  intro s k h hk
  obtain ⟨f, rest, hwalk, hf, hstr⟩ := string_of_dictOk h.dict hk
  refine ⟨f :: rest, hstr, hwalk, hf, hstr.length_of_literal, fun hlo => ?_⟩
  have hfirst : s.first = s.clr + 2 := rfl
  have hclr : s.clr = 2 ^ s.m.toNat := rfl
  have hcode := k.isLt
  obtain ⟨h2, hle⟩ := hstr.length_of_entry h.dict hlo (hk.resolve_left (by omega)).2
  exact ⟨h2, hle, by omega⟩

end Sys2Proof.Machine
end

section
/-! SUPPORT. Reset, and the words of `STATUS`, `EINFO` and `DSTATE` field by field. -/

namespace Sys2Proof.Machine

/-- Settles O1: the table's values are those of `State.reset`; `ICNT` and the line `done` follow from them. -/
theorem resetLeavesSpecValues : Obligations.ResetLeavesSpecValues := by
  simp [Obligations.ResetLeavesSpecValues, State.reset, State.icntWord, State.doneLine]

/-- After reset `STATUS` has `FULL` alone, since `OCNT = OLEN = 0` (R141). -/
theorem State.resetBlock_statusWord (s : State) : s.resetBlock.statusWord = 0x00000040 := by
  have hreset : s.resetBlock.statusWord = State.reset.statusWord := rfl
  rw [hreset]
  decide

/-! ### The `STATUS` word -/

theorem State.statusWord_st (s : State) : s.statusWord.extractLsb' 0 2 = s.st.code :=
  BitVec.extractLsb'_append_eq_right

theorem State.statusWord_cause (s : State) : s.statusWord.extractLsb' 12 4 = s.cause.code := by
  simp (disch := decide) only [State.statusWord, BitVec.extractLsb'_append_eq_of_le,
    BitVec.extractLsb'_append_eq_of_add_le]
  exact BitVec.extractLsb'_eq_self

theorem State.statusWord_reserved (s : State) :
    s.statusWord.extractLsb' 10 2 = 0 ∧ s.statusWord.extractLsb' 16 16 = 0 := by
  simp (disch := decide) only [State.statusWord, BitVec.extractLsb'_append_eq_of_le,
    BitVec.extractLsb'_append_eq_of_add_le]
  decide

theorem State.statusWord_flags (s : State) :
    s.statusWord.getLsbD 2 = s.busy ∧ s.statusWord.getLsbD 3 = s.doneLine ∧ s.statusWord.getLsbD 4 = s.endseen ∧
    s.statusWord.getLsbD 5 = s.closed ∧ s.statusWord.getLsbD 6 = s.full ∧ s.statusWord.getLsbD 7 = s.ovf ∧
    s.statusWord.getLsbD 8 = s.trunc ∧ s.statusWord.getLsbD 9 = s.mode := by
  simp only [State.statusWord, BitVec.getLsbD_append]
  simp

/-- Settles O9: the two numbers are cut out of the word whole, and the flags are its single bits. -/
theorem statusWordLayout : Obligations.StatusWordLayout := by
  intro s
  obtain ⟨hbusy, hdone, hendseen, hclosed, hfull, hovf, htrunc, hmode⟩ := s.statusWord_flags
  obtain ⟨hlow, hhigh⟩ := s.statusWord_reserved
  rw [s.statusWord_st, s.statusWord_cause]
  exact ⟨congrArg CtlState.code, congrArg CtlState.code, congrArg CtlState.code, congrArg CtlState.code,
    hbusy, hdone, hendseen, hclosed, hfull, hovf, htrunc, hmode, hlow,
    congrArg Cause.code, congrArg Cause.code, congrArg Cause.code, congrArg Cause.code, congrArg Cause.code,
    congrArg Cause.code, hhigh, hdone.symm⟩

/-! ### The `EINFO` and `DSTATE` words -/

theorem State.einfoWord_fields (s : State) :
    s.einfoWord.extractLsb' 0 12 = s.ecode ∧ s.einfoWord.extractLsb' 12 4 = s.ewidth ∧
    s.einfoWord.extractLsb' 16 13 = s.enext ∧ s.einfoWord.extractLsb' 29 3 = 0 := by
  simp (disch := decide) only [State.einfoWord, BitVec.extractLsb'_append_eq_of_le,
    BitVec.extractLsb'_append_eq_of_add_le]
  exact ⟨BitVec.extractLsb'_eq_self, BitVec.extractLsb'_eq_self, BitVec.extractLsb'_eq_self, rfl⟩

theorem State.dstateWord_fields (s : State) :
    s.dstateWord.extractLsb' 0 4 = s.w ∧ s.dstateWord.extractLsb' 4 13 = s.next ∧
    s.dstateWord.extractLsb' 17 12 = s.prev ∧ s.dstateWord.extractLsb' 30 2 = 0 := by
  simp (disch := decide) only [State.dstateWord, BitVec.extractLsb'_append_eq_of_le,
    BitVec.extractLsb'_append_eq_of_add_le]
  exact ⟨BitVec.extractLsb'_eq_self, BitVec.extractLsb'_eq_self, BitVec.extractLsb'_eq_self, rfl⟩

theorem State.dstateWord_prevv (s : State) : s.dstateWord.getLsbD 29 = s.prevv := by
  simp only [State.dstateWord, BitVec.getLsbD_append]
  simp

/-- Settles O10: each field is the part of the concatenation that stands at its position. -/
theorem errorAndDebugWordLayout : Obligations.ErrorAndDebugWordLayout := by
  intro s
  obtain ⟨hecode, hewidth, henext, hehigh⟩ := s.einfoWord_fields
  obtain ⟨hw, hnext, hprev, hdhigh⟩ := s.dstateWord_fields
  exact ⟨hecode, hewidth, henext, hehigh, hw, hnext, hprev, s.dstateWord_prevv, hdhigh⟩

end Sys2Proof.Machine
end

section
/-! SUPPORT. The host's operations in the step they act in: reset, the register reads, the input. -/

namespace Sys2Proof.Machine

/-- A host operation that does not give way to the block acts in the step. -/
theorem step_of_host {s : State} {op : HostOp} {rest : List HostOp} (h : s.host = op :: rest) (hrun : op ≠ .letRun)
    (hwait : op ≠ .waitNotBusy) : step s = hostOp op { s with host := rest } := by
  unfold step stepBody
  rw [h]
  cases op with
  | letRun => exact absurd rfl hrun
  | waitNotBusy => exact absurd rfl hwait
  | _ => rfl

/-- Settles O2: the step is `resetBlock`, from every state. -/
theorem resetFromEveryState : Obligations.ResetFromEveryState := by
  intro s rest h
  refine ⟨State.resetBlock { s with host := rest }, step_of_host h nofun nofun, ?_⟩
  simp [State.resetBlock_statusWord, State.doneLine]

/-! ### Register reads -/

theorem step_read {s : State} {off : Nat} {rest : List HostOp} {r : Csr} (h : s.host = .read off :: rest)
    (hr : csrAt off = some r) : step s = readCsr r { s with host := rest } := by
  rw [step_of_host h nofun nofun]
  simp only [hostOp, hr]

/-- While no command runs every register reads as its word (R117). -/
theorem readCsr_of_not_busy {s : State} (hb : s.busy = false) (r : Csr) :
    readCsr r s = .next { s with rdata := s.csrWord r } := by
  cases r with
  | ctrl | mincode | olen => rfl
  | status | ocnt | icnt | einfo | dstate => simp [readCsr, hb]

theorem step_read_of_not_busy {s : State} {off : Nat} {rest : List HostOp} (r : Csr) (hr : csrAt off = some r)
    (h : s.host = .read off :: rest) (hb : s.busy = false) :
    step s = .next { s with rdata := s.csrWord r, host := rest } :=
  (step_read h hr).trans (readCsr_of_not_busy (s := { s with host := rest }) hb r)

/-- `ICNT` is the low 32 bits of the stream position (R20). -/
theorem State.icntWord_eq (s : State) : s.icntWord = BitVec.ofNat 32 (s.ipos % 2 ^ 32) := by
  apply BitVec.eq_of_toNat_eq
  rw [State.icntWord, BitVec.toNat_ofNat, BitVec.toNat_ofNat, Nat.mod_mod]

theorem State.doneLine_word (s : State) : (bit s.doneLine).setWidth 32 = if s.st = .done then (1 : Word) else 0 := by
  unfold State.doneLine
  split
  · rename_i hs; rw [decide_eq_true hs]; rfl
  · rename_i hs; rw [decide_eq_false hs]; rfl

/-- Settles O8: a read gives the register's word, and those of `MINCODE`, `ICNT` and `done` are the values stated. -/
theorem registerReadEffect : Obligations.RegisterReadEffect := by
  intro s rest
  refine ⟨fun h => step_read h rfl, fun h => ?_, fun h => step_read h rfl,
    step_read_of_not_busy .status rfl, step_read_of_not_busy .ocnt rfl, ?_, step_read_of_not_busy .einfo rfl,
    step_read_of_not_busy .dstate rfl, fun h => ?_⟩
  · rw [BitVec.ofNat_toNat]
    exact step_read h rfl
  · rw [← s.icntWord_eq]
    exact step_read_of_not_busy .icnt rfl
  · rw [← s.doneLine_word]
    exact step_of_host h nofun nofun

/-! ### Accesses outside the map, and the input -/

/-- Settles O12: by the branches of `hostOp`. -/
theorem hostMemoryAccess : Obligations.HostMemoryAccess := by
  refine fun s rest => ⟨fun off v hoff h => ?_, fun bytes h hb => ?_, fun bytes h hb => ?_⟩
  · obtain h | h := h <;> rw [step_of_host h nofun nofun] <;> simp only [hostOp, hoff]
  · rw [step_of_host h nofun nofun]
    exact if_pos hb
  · rw [step_of_host h nofun nofun]
    exact if_neg (Bool.eq_false_iff.1 hb)

end Sys2Proof.Machine
end

section
/-! SUPPORT. The output slice and the host: providing, filling and reading it (R40, R42, R143). -/

namespace Sys2Proof.Machine

/-- A byte of the slice that has been written is what the host reads there (R119). -/
theorem hostOp_readOut_written {s : State} {a : Nat} {b : Byte} (hb : s.busy = false) (ha : a < s.outLen)
    (h : Memory.read s.out (s.outBase + a) = some b) :
    hostOp (.readOut a) s = .next { s with rdata := BitVec.ofNat 32 b.toNat } := by
  have hbyte : s.outByteAt a = b := by rw [State.outByteAt, h, Option.getD_some]
  simp [hostOp, hb, ha, hbyte]

theorem hostOp_writeOut_inside {s : State} {a : Nat} (v : Byte) (hb : s.busy = false) (ha : a < s.outLen) :
    hostOp (.writeOut a v) s = .next { s with out := Memory.write s.out (s.outBase + a) v } := by
  simp [hostOp, hb, ha]

/-- An address at or beyond the end of the slice faults, read or filled. -/
theorem hostOp_outside {s : State} {a : Nat} {op : HostOp} (hop : op = .readOut a ∨ ∃ v, op = .writeOut a v)
    (hb : s.busy = false) (ha : s.outLen ≤ a) : hostOp op s = .fault (.outsideSlice a) := by
  obtain rfl | ⟨v, rfl⟩ := hop <;> simp [hostOp, hb, ha]

/-- Settles O56: each clause is one branch of `hostOp`, with the laws of a read after a write. -/
theorem hostOutputSlice : Obligations.HostOutputSlice := by
  intro s rest
  refine ⟨fun base len h hb => ?_, fun a v h hb ha => ?_, fun a b h hb ha hr => ?_, fun a v h hb ha => ?_,
    fun a v base len h hb => ?_⟩
  · rw [step_of_host h nofun nofun]
    exact if_neg (Bool.eq_false_iff.1 hb)
  · refine ⟨_, (step_of_host h nofun nofun).trans (hostOp_writeOut_inside v hb ha), ?_, fun x hx => ?_, rfl⟩
    · exact Memory.read_write_same _ _ _
    · exact Memory.read_write_other _ _ _ _ hx
  · exact (step_of_host h nofun nofun).trans (hostOp_readOut_written (s := { s with host := rest }) hb ha hr)
  · obtain h | h := h <;> rw [step_of_host h nofun nofun]
    · exact hostOp_outside (.inl rfl) hb ha
    · exact hostOp_outside (.inr ⟨v, rfl⟩) hb ha
  · obtain h | h := h <;> rw [step_of_host h nofun nofun] <;> exact if_pos hb

end Sys2Proof.Machine
end

section
/-! SUPPORT. `OutByte` (R42), and what a block step can write of the output memory: the bytes from `OUT[OCNT]` on, below
`OUT[OLEN]` (R112). -/

namespace Sys2Proof.Machine

/-- Settles O31: `outByte` is its two branches; `OCNT` does not wrap, being below `OLEN`. -/
theorem outByteWritesAtCount : Obligations.OutByteWritesAtCount := by
  refine fun s v => ⟨fun h => ⟨?_, ?_, fun a ha => ?_, ?_⟩, fun h => s.outByte_full v (Nat.not_lt.2 h)⟩
  · rw [State.outByte_ocnt, if_pos h]
  · rw [State.outByte_fits s v h]
    exact Memory.read_write_same _ _ _
  · rw [State.outByte_fits s v h]
    exact Memory.read_write_other _ _ _ _ ha
  · rw [State.outByte_fits s v h]

/-! ### The frame of the output -/

/-- What each part of a block step does to the output: slice and `OLEN` are kept, `OCNT` does not fall, and no byte before
`OUT[OCNT]` or from `OUT[OLEN]` on is changed. -/
structure OutputFrame (s t : State) : Prop where
  base : t.outBase = s.outBase
  len  : t.outLen = s.outLen
  olen : t.olen = s.olen
  ocnt : s.ocnt.toNat ≤ t.ocnt.toNat
  kept : ∀ x, (x < s.outBase + s.ocnt.toNat ∨ s.outBase + s.olen.toNat ≤ x) → Memory.read t.out x = Memory.read s.out x

theorem OutputFrame.trans {s t u : State} (h1 : OutputFrame s t) (h2 : OutputFrame t u) : OutputFrame s u where
  base := h2.base.trans h1.base
  len := h2.len.trans h1.len
  olen := h2.olen.trans h1.olen
  ocnt := h1.ocnt.trans h2.ocnt
  kept x hx := by
    have hle := h1.ocnt
    refine (h2.kept x ?_).trans (h1.kept x hx)
    rw [h1.base, h1.olen]
    omega

/-- An operation that does not touch the output. -/
theorem OutputFrame.of_same {s t : State} (hb : t.outBase = s.outBase) (hl : t.outLen = s.outLen) (ho : t.olen = s.olen)
    (hc : t.ocnt = s.ocnt) (hm : t.out = s.out) : OutputFrame s t :=
  ⟨hb, hl, ho, by rw [hc], fun _ _ => by rw [hm]⟩

theorem OutputFrame.of_fetchFrame {s t : State} (h : FetchFrame s t) : OutputFrame s t := by
  unfold FetchFrame at h
  refine .of_same ?_ ?_ ?_ ?_ ?_ <;> rw [h]

theorem OutputFrame.outByte (s : State) (v : Byte) : OutputFrame s (s.outByte v) where
  base := s.outByte_outBase v
  len := s.outByte_outLen v
  olen := s.outByte_olen v
  ocnt := by
    rw [State.outByte_ocnt]
    split <;> omega
  kept x hx := by
    by_cases hc : s.ocnt.toNat < s.olen.toNat
    · rw [State.outByte_fits s v hc]
      exact Memory.read_write_other _ _ _ _ (by omega)
    · rw [State.outByte_full s v hc]

theorem OutputFrame.emit (str : List Byte) (s : State) : OutputFrame s (s.emit str) := by
  induction str generalizing s with
  | nil => exact .of_same rfl rfl rfl rfl rfl
  | cons v rest ih => exact (OutputFrame.outByte s v).trans (ih _)

theorem OutputFrame.append (s : State) (p : Code) (b : Byte) : OutputFrame s (s.append p b) :=
  .of_same (by simp) (by simp) (by simp) (by simp) (by simp)

theorem OutputFrame.setPrev (c : Code) (s : State) : OutputFrame s (s.setPrev c) := .of_same rfl rfl rfl rfl rfl

/-- The walk of a string uses the stack and not the output. -/
theorem OutputFrame.setStack (stack : List Byte) (s : State) : OutputFrame s { s with stack := stack } :=
  .of_same rfl rfl rfl rfl rfl

/-! ### Block steps -/

theorem knownCode_output {c : Code} {s t : State} (h : knownCode c s = .next t) : OutputFrame s t := by
  obtain ⟨str, u, hu, ht⟩ := knownCode_cases h
  have hemit : OutputFrame s u := hu ▸ (OutputFrame.setStack [] s).trans (.emit str _)
  obtain ⟨_, _, f, rfl⟩ | ⟨_, rfl⟩ := ht
  · exact hemit.trans ((OutputFrame.append u s.prev f).trans (.setPrev c _))
  · exact hemit.trans (.setPrev c u)

theorem kwkwkCode_output {c : Code} {s t : State} (h : kwkwkCode c s = .next t) : OutputFrame s t := by
  obtain ⟨f, str, rfl⟩ := kwkwkCode_cases h
  exact (OutputFrame.append s s.prev f).trans ((OutputFrame.setStack [] _).trans ((OutputFrame.emit str _).trans
    (.setPrev c _)))

theorem exec_classifyCode_output {x : Ctx} {c : Code} {s t : State} (h : exec (classifyCode x c) s = .next t) :
    OutputFrame s t := by
  rw [exec_classifyCode] at h
  split_ifs at h
  · cases h; exact .of_same rfl rfl rfl rfl rfl
  · cases h; exact .of_same rfl rfl rfl rfl rfl
  · exact knownCode_output h
  · exact kwkwkCode_output h
  · cases h; exact .of_same rfl rfl rfl rfl rfl

theorem decodeStep_output {s t : State} (h : decodeStep s = .next t) : OutputFrame s t := by
  have hfetch := OutputFrame.of_fetchFrame s.fetchCode_frame
  obtain hu | ⟨c, u, hu, he⟩ := decodeStep_cases h <;> rw [hu] at hfetch
  · exact hfetch
  · exact hfetch.trans (exec_classifyCode_output he)

/-- A drain step writes what a fetch writes: the reader, the accumulator, and what a halt latches (R86). -/
theorem drainStep_frame {s t : State} (hs : s.st = .drain) (h : drainStep s = .next t) : FetchFrame s t := by
  cases hc : s.closed with
  | true =>
    simp only [drainStep, hc, if_true] at h
    cases h
    exact s.finish_frame
  | false =>
    obtain ⟨_, e⟩ | ⟨_, _, e⟩ | ⟨len, _, _, _, e⟩ | ⟨_, _, _, e⟩ := drainStep_cases hs hc <;> rw [e] at h <;> cases h
    · rfl
    · have hterm : FetchFrame s s.takeTerm := rfl
      exact hterm.trans s.takeTerm.finish_frame
    · rfl
    · rfl

/-- Only a decode writes to the output. -/
theorem blockStep_output {s t : State} (h : blockStep s = .next t) :
    OutputFrame s t ∧ (s.st ≠ .decode → t.out = s.out) := by
  unfold blockStep at h
  split at h
  · exact ⟨decodeStep_output h, fun hne => absurd ‹_› hne⟩
  · have hframe := drainStep_frame ‹_› h
    exact ⟨.of_fetchFrame hframe, fun _ => by rw [hframe]⟩
  · cases h
    exact ⟨.of_same rfl rfl rfl rfl rfl, fun _ => rfl⟩
  · cases h
    exact ⟨.of_same rfl rfl rfl rfl rfl, fun _ => rfl⟩

/-! ### Every step -/

/-- In a block turn the step is the block step from the same state, the queue apart. -/
theorem step_output {s t : State} (hb : s.blockTurn = true) (h : step s = .next t) :
    OutputFrame s t ∧ (s.st ≠ .decode → t.out = s.out) := by
  rw [step_of_blockTurn hb] at h
  have hblock := blockStep_output h
  rw [s.blockView_eq] at hblock
  obtain ⟨hframe, hout⟩ := hblock
  exact ⟨{ hframe with }, hout⟩

/-- Under the invariant what a decode can write lies inside the slice (R143 step 3), and no other block step writes. -/
theorem step_output_outside {s t : State} (hi : Inv s) (hb : s.blockTurn = true) (h : step s = .next t) {x : Nat}
    (hx : x < s.outBase ∨ s.outBase + s.outLen ≤ x) : Memory.read t.out x = Memory.read s.out x := by
  obtain ⟨hframe, hout⟩ := step_output hb h
  by_cases hs : s.st = .decode
  · have hslice := (hi.decode hs).slice
    exact hframe.kept x (by omega)
  · rw [hout hs]

/-- What a host operation does to the output: it fills one byte of the slice, or changes none; only `bindOut` moves the
slice. -/
theorem hostOp_output {op : HostOp} {s t : State} (h : hostOp op s = .next t) :
    (t.out = s.out ∨ ∃ a v, op = .writeOut a v ∧ a < s.outLen ∧ t.out = Memory.write s.out (s.outBase + a) v) ∧
    ((t.outBase = s.outBase ∧ t.outLen = s.outLen) ∨ ∃ base len, op = .bindOut base len) := by
  obtain ⟨_, rfl⟩ | ⟨v, _, he⟩ | ⟨_, m, olen, inp, base, len, rfl, hslice⟩ | ⟨a, v, hop, _, ha, rfl⟩ | ⟨r, n, rfl⟩ :=
    hostOp_cases h
  · exact ⟨.inl rfl, .inl ⟨rfl, rfl⟩⟩
  · obtain rfl | ⟨_, ⟨_, _, _, rfl⟩ | ⟨_, _, rfl⟩ | ⟨_, rfl⟩⟩ := execCmd_cases he <;>
      exact ⟨.inl rfl, .inl ⟨rfl, rfl⟩⟩
  · exact ⟨.inl rfl, hslice.imp_right fun hop => ⟨base, len, hop⟩⟩
  · exact ⟨.inr ⟨a, v, hop, ha, rfl⟩, .inl ⟨rfl, rfl⟩⟩
  · exact ⟨.inl rfl, .inl ⟨rfl, rfl⟩⟩

/-- In the host's turn every byte reads as before, but for one inside the slice that the host fills. -/
theorem step_output_host {s t : State} (hb : s.blockTurn = false) (h : step s = .next t) :
    (∀ x, Memory.read t.out x ≠ Memory.read s.out x →
      ∃ a v rest, s.host = .writeOut a v :: rest ∧ a < s.outLen ∧ x = s.outBase + a) ∧
    ((t.outBase = s.outBase ∧ t.outLen = s.outLen) ∨ ∃ base len rest, s.host = .bindOut base len :: rest) := by
  obtain ⟨op, rest, hq, _, _, e⟩ := step_of_hostTurn hb
  rw [e] at h
  obtain ⟨hout, hslice⟩ := hostOp_output h
  constructor
  · intro x hx
    obtain hsame | ⟨a, v, rfl, ha, hwrite⟩ := hout
    · exact absurd (by rw [hsame]) hx
    · refine ⟨a, v, rest, hq, ha, ?_⟩
      by_contra hne
      rw [hwrite] at hx
      exact hx (Memory.read_write_other _ _ _ _ hne)
  · exact hslice.imp_right fun ⟨base, len, hop⟩ => ⟨base, len, rest, hop ▸ hq⟩

/-- Settles O58: by whose turn it is; a block step writes from `OUT[OCNT]` on and below `OUT[OLEN]`, a host operation one
byte of the slice. -/
theorem outputWrittenOnlyInSlice : Obligations.OutputWrittenOnlyInSlice := by
  intro s t hi h
  cases hb : s.blockTurn with
  | true =>
    obtain ⟨hframe, _⟩ := step_output hb h
    exact ⟨fun x => step_output_outside hi hb h, fun _ => hframe.kept, nofun, .inl ⟨hframe.base, hframe.len⟩⟩
  | false =>
    obtain ⟨hfill, hslice⟩ := step_output_host hb h
    refine ⟨fun x hx => ?_, nofun, fun x _ hne => ?_, hslice⟩
    · by_contra hne
      obtain ⟨a, _, _, _, ha, rfl⟩ := hfill x hne
      omega
    · obtain ⟨a, v, rest, hq, _, he⟩ := hfill x hne
      exact ⟨a, v, rest, hq, he⟩

end Sys2Proof.Machine
end

section
/-! SUPPORT. The code fetch on the pending bits (R45, R64, R91): a code is their low `W` bits, and the rest stays pending. -/

namespace Sys2Proof.Machine

/-- The low bits of what is pending are those of the accumulator, as far as it reaches. -/
theorem State.pending_mod {s : State} {w : Nat} (hw : w ≤ s.nbits.toNat) :
    s.pending % 2 ^ w = s.bitbuf.toNat % 2 ^ w := by
  rw [State.pending, ← Nat.add_sub_of_le hw, Nat.pow_add, Nat.mul_assoc, Nat.add_mul_mod_self_left]

/-- Cutting a code off takes its bits from what is pending, and leaves the others in order. -/
theorem State.dropCode_pending {s : State} (hw : s.w.toNat ≤ s.nbits.toNat) :
    s.dropCode.pending = s.pending / 2 ^ s.w.toNat := by
  have hbitbuf : s.dropCode.bitbuf.toNat = s.bitbuf.toNat / 2 ^ s.w.toNat := by
    rw [State.dropCode, BitVec.toNat_ushiftRight, Nat.shiftRight_eq_div_pow]
  have hflat : s.dropCode.flat = s.flat := rfl
  have hsplit : 2 ^ s.nbits.toNat = 2 ^ s.w.toNat * 2 ^ (s.nbits.toNat - s.w.toNat) := by
    rw [← Nat.pow_add, Nat.add_sub_of_le hw]
  rw [State.pending, State.pending, State.dropCode_nbits_toNat hw, hbitbuf, hflat, hsplit, Nat.mul_assoc,
    Nat.add_mul_div_left _ _ (Nat.two_pow_pos _)]

theorem State.dropCode_pendingBits {s : State} (hw : s.w.toNat ≤ s.nbits.toNat) :
    s.dropCode.pendingBits + s.w.toNat = s.pendingBits := by
  have hflat : s.dropCode.flat = s.flat := rfl
  rw [State.pendingBits, State.pendingBits, State.dropCode_nbits_toNat hw, hflat]
  omega

/-- A code of at most 12 bits is the number of its bits. -/
theorem code_toNat {w : Nat} (hw : w ≤ 12) (n : Nat) : (BitVec.ofNat 12 (n % 2 ^ w)).toNat = n % 2 ^ w := by
  rw [BitVec.toNat_ofNat, Nat.mod_eq_of_lt]
  exact (Nat.mod_lt _ (Nat.two_pow_pos w)).trans_le (Nat.pow_le_pow_right (by decide) hw)

/-- With `W` bits to come the gathering loop ends with them in the accumulator, and at most seven more. -/
theorem DecodeInv.gather_ready {s : State} (h : DecodeInv s) (hbits : s.w.toNat ≤ s.pendingBits) :
    ∃ t, s.gatherBits 2 = .ready t ∧ Held s t ∧ s.w.toNat ≤ t.nbits.toNat ∧ t.nbits.toNat ≤ s.w.toNat + 7 := by
  have hw := h.widthHi
  have hn := h.bits
  obtain ⟨t, hg, hh, hwt, _⟩ | ⟨t, _, hh, hflat, hlt, _⟩ := State.gatherBits_spec 2 hw h.bitsHi (by omega) h.pos
  · refine ⟨t, hg, hh, hwt, ?_⟩
    obtain hcount | hcount := hh.count
    · omega
    · rw [hcount]; omega
  · have hfew : s.pendingBits = t.nbits.toNat := by
      rw [← hh.bits, State.pendingBits, hflat]; rfl
    omega

/-- Settles O22: the loop moves pending bits into the accumulator (`Held`), where the code is cut off them. -/
theorem fetchTakesNextBits : Obligations.FetchTakesNextBits := by
  intro s h hbits
  obtain ⟨t, hg, hh, hlo, hhi⟩ := h.gather_ready hbits
  have htw : t.w = s.w := by rw [hh.frame]
  rw [← htw] at hlo hhi ⊢
  have hnbits := State.dropCode_nbits_toNat hlo
  refine ⟨_, t.dropCode, State.fetchCode_of_ready hg, ?_, ?_, ?_, by omega, State.dropCode_bitbuf_lt hlo hh.hi, ?_⟩
  · rw [code_toNat (htw ▸ h.widthHi), ← hh.pend, State.pending_mod hlo]
  · rw [State.dropCode_pending hlo, hh.pend]
  · rw [State.dropCode_pendingBits hlo, hh.bits]
  · unfold State.dropCode
    rw [hh.frame]

end Sys2Proof.Machine
end

section
/-! SUPPORT. Sub-block boundaries are not seen by the decoder (R63): a code acts without regard to the reader, and two states
that differ in the reader alone and have the same flat stream to come stay so until their commands end. -/

namespace Sys2Proof.Machine

/-! ### The reader apart from the rest of the state -/

/-- `s` with the reader of `r`: its input, `IPOS`, `BLKREM` and `CLOSED`. -/
def State.withReader (s r : State) : State :=
  { s with inp := r.inp, ipos := r.ipos, blkrem := r.blkrem, closed := r.closed }

@[simp] theorem State.withReader_self (s : State) : s.withReader s = s := rfl

theorem State.withReader_of_eraseReader {s t : State} (h : s.eraseReader = t.eraseReader) : s.withReader t = t :=
  calc s.withReader t = s.eraseReader.withReader t := rfl
    _ = t.eraseReader.withReader t := by rw [h]
    _ = t := rfl

/-- Reading from the chain moves the reader and nothing else (R80). -/
theorem State.nextByte_eraseReader (s : State) : s.nextByte.state.eraseReader = s.eraseReader := by
  obtain ⟨_, h⟩ | ⟨_, _, h⟩ | ⟨_, _, _, h⟩ | ⟨_, _, _, _, _, _, h⟩ | ⟨_, _, _, _, _, _, _, h⟩ | ⟨_, _, _, _, h⟩ :=
    s.nextByte_cases <;> rw [h] <;> rfl

theorem State.finish_eraseReader (s : State) : s.finish.eraseReader = s.eraseReader.finish :=
  apply_ite State.eraseReader _ _ _

/-! ### The codes do not look at the reader -/

/-- What `ExecKnown` leaves, where it completes (R97). -/
theorem knownCode_eq_next_iff {c : Code} {s t : State} :
    knownCode c s = .next t ↔ ∃ pushed, s.pushString c = some pushed ∧
      (((pushed.popEmit.prevv = true ∧ pushed.popEmit.next.toNat < 4096) ∧
          ∃ f, pushed.popEmit.firstByte c = some f ∧ t = (pushed.popEmit.append pushed.popEmit.prev f).setPrev c) ∨
        (¬ (pushed.popEmit.prevv = true ∧ pushed.popEmit.next.toNat < 4096) ∧ t = pushed.popEmit.setPrev c)) := by
  unfold knownCode
  cases s.pushString c with
  | none => simp
  | some pushed =>
    simp only [Option.some.injEq, exists_eq_left']
    by_cases hroom : pushed.popEmit.prevv = true ∧ pushed.popEmit.next.toNat < 4096
    · rw [if_pos hroom]
      cases pushed.popEmit.firstByte c with
      | none => simp [hroom]
      | some f => simpa [hroom] using eq_comm
    · rw [if_neg hroom]
      simpa only [hroom, not_false_eq_true, true_and, false_and, false_or, Host.Outcome.next.injEq] using eq_comm

/-- What `ExecKwKwK` leaves, where it completes (R99). -/
theorem kwkwkCode_eq_next_iff {c : Code} {s t : State} :
    kwkwkCode c s = .next t ↔ ∃ f pushed, s.firstByte s.prev = some f ∧
      State.pushString c (s.append s.prev f) = some pushed ∧ t = pushed.popEmit.setPrev c := by
  unfold kwkwkCode
  cases s.firstByte s.prev with
  | none => simp
  | some f =>
    simp only [Option.some.injEq, exists_and_left, exists_eq_left']
    cases State.pushString c (s.append s.prev f) with
    | none => simp
    | some pushed => simpa using eq_comm

section WithReader

variable (r : State) {s t : State} {c : Code}

theorem State.outByte_withReader (v : Byte) : (s.outByte v).withReader r = (s.withReader r).outByte v :=
  apply_ite (State.withReader · r) _ _ _

theorem State.emit_withReader (str : List Byte) : (s.emit str).withReader r = (s.withReader r).emit str := by
  induction str generalizing s with
  | nil => rfl
  | cons v rest ih => rw [State.emit, State.emit, ← State.outByte_withReader, ih]

theorem State.append_withReader (p : Code) (b : Byte) : (s.append p b).withReader r = (s.withReader r).append p b :=
  apply_ite (State.withReader · r) _ _ _

theorem State.popEmit_withReader : s.popEmit.withReader r = (s.withReader r).popEmit :=
  State.emit_withReader r _

theorem State.pushString_withReader (h : s.pushString c = some t) :
    (s.withReader r).pushString c = some (t.withReader r) := by
  unfold State.pushString at h
  cases hw : walkString (4096 - s.stack.length) s.dict s.clr c s.stack with
  | none => rw [hw] at h; cases h
  | some stack =>
    rw [hw] at h
    cases h
    have hw' : walkString (4096 - (s.withReader r).stack.length) (s.withReader r).dict (s.withReader r).clr c
      (s.withReader r).stack = some stack := hw
    rw [State.pushString, hw']
    rfl

theorem knownCode_withReader (h : knownCode c s = .next t) : knownCode c (s.withReader r) = .next (t.withReader r) := by
  obtain ⟨pushed, hp, ⟨hroom, f, hf, rfl⟩ | ⟨hfull, rfl⟩⟩ := knownCode_eq_next_iff.1 h
  all_goals
    refine knownCode_eq_next_iff.2 ⟨_, State.pushString_withReader r hp, ?_⟩
    rw [← State.popEmit_withReader]
  · refine .inl ⟨hroom, f, hf, ?_⟩
    exact congrArg (State.setPrev c) (State.append_withReader r pushed.popEmit.prev f)
  · exact .inr ⟨hfull, rfl⟩

theorem kwkwkCode_withReader (h : kwkwkCode c s = .next t) :
    kwkwkCode c (s.withReader r) = .next (t.withReader r) := by
  obtain ⟨f, pushed, hf, hp, rfl⟩ := kwkwkCode_eq_next_iff.1 h
  have hp' := State.pushString_withReader r hp
  rw [State.append_withReader] at hp'
  refine kwkwkCode_eq_next_iff.2 ⟨f, _, hf, hp', ?_⟩
  rw [← State.popEmit_withReader]
  rfl

/-- A code has the same effect whatever the reader, and leaves the reader as it is (R97 to R102). -/
theorem exec_classifyCode_withReader {x : Ctx} (h : exec (classifyCode x c) s = .next t) :
    exec (classifyCode x c) (s.withReader r) = .next (t.withReader r) := by
  rw [exec_classifyCode] at h ⊢
  split_ifs at h ⊢
  · cases h; rfl
  · cases h; rfl
  · exact knownCode_withReader r h
  · exact kwkwkCode_withReader r h
  · cases h; rfl

end WithReader

/-! ### Two chains with one flat stream -/

/-- `s` and `t` differ in the reader alone, and the terminated chains they read have the same flat stream to come. -/
structure SameStream (s t : State) : Prop where
  erase : s.eraseReader = t.eraseReader
  flat  : s.flat = t.flat
  left  : s.terminated = true
  right : t.terminated = true

/-- On a terminated chain `NextByte()` delivers the head of the flat stream, or the end of the chain where there is none. -/
theorem State.nextByte_of_terminated {s : State} (h : s.terminated = true) :
    (∃ u, s.nextByte = .endChain u ∧ s.flat = []) ∨
    (∃ b u, s.nextByte = .byte b u ∧ s.flat = b :: u.flat ∧ u.terminated = true) := by
  obtain ⟨u, e, hflat, _⟩ | ⟨_, _, _, hterm, _⟩ | ⟨b, u, e, hflat, hterm, _⟩ := s.nextByte_flat
  · exact .inl ⟨u, e, hflat⟩
  · exact absurd h (by simp [hterm])
  · exact .inr ⟨b, u, e, hflat, hterm.trans h⟩

/-- Two such states read the same byte, or both the end of the chain. -/
theorem SameStream.nextByte {s t : State} (h : SameStream s t) :
    (∃ u v, s.nextByte = .endChain u ∧ t.nextByte = .endChain v ∧ u.eraseReader = v.eraseReader) ∨
    (∃ b u v, s.nextByte = .byte b u ∧ t.nextByte = .byte b v ∧ SameStream u v) := by
  have herase : s.nextByte.state.eraseReader = t.nextByte.state.eraseReader := by
    rw [State.nextByte_eraseReader, State.nextByte_eraseReader, h.erase]
  have hflat := h.flat
  obtain ⟨u, eu, hu⟩ | ⟨b, u, eu, hu, hlu⟩ := State.nextByte_of_terminated h.left <;>
    obtain ⟨v, ev, hv⟩ | ⟨d, v, ev, hv, hlv⟩ := State.nextByte_of_terminated h.right <;>
    rw [hu, hv] at hflat <;> rw [eu, ev] at herase
  · exact .inl ⟨u, v, eu, ev, herase⟩
  · cases hflat
  · cases hflat
  · obtain ⟨rfl, htail⟩ := List.cons.inj hflat
    exact .inr ⟨b, u, v, eu, ev, herase, htail, hlu, hlv⟩

/-- Both fetches go on gathering, or both commands end, in states that differ in the reader alone. -/
theorem SameStream.gatherBits (n : Nat) {s t : State} (h : SameStream s t) :
    (∃ u v, s.gatherBits n = .ready u ∧ t.gatherBits n = .ready v ∧ SameStream u v) ∨
    (∃ u v, s.gatherBits n = .ended u ∧ t.gatherBits n = .ended v ∧ u.eraseReader = v.eraseReader ∧ u.st = .done) := by
  induction n generalizing s t with
  | zero => exact .inl ⟨s, t, rfl, rfl, h⟩
  | succ n ih =>
    have hmore : (t.nbits.toNat < t.w.toNat) = (s.nbits.toNat < s.w.toNat) :=
      (congrArg (fun x : State => x.nbits.toNat < x.w.toNat) h.erase.symm :)
    unfold State.gatherBits
    by_cases hlt : s.nbits.toNat < s.w.toNat
    · rw [if_pos hlt, if_pos (hmore ▸ hlt)]
      obtain ⟨u, v, eu, ev, huv⟩ | ⟨b, u, v, eu, ev, huv⟩ := h.nextByte <;> rw [eu, ev]
      · refine .inr ⟨u.finish, v.finish, rfl, rfl, ?_, u.finish_st⟩
        rw [State.finish_eraseReader, State.finish_eraseReader, huv]
      · exact ih ⟨congrArg (State.gather b) huv.erase, huv.flat, huv.left, huv.right⟩
    · rw [if_neg hlt, if_neg (hmore ▸ hlt)]
      exact .inl ⟨s, t, rfl, rfl, h⟩

theorem SameStream.dropCode {s t : State} (h : SameStream s t) : SameStream s.dropCode t.dropCode :=
  ⟨congrArg State.dropCode h.erase, h.flat, h.left, h.right⟩

/-- Both fetches deliver the same code, or both commands end. -/
theorem SameStream.fetchCode {s t : State} (h : SameStream s t) :
    (∃ c u v, s.fetchCode = .code c u ∧ t.fetchCode = .code c v ∧ SameStream u v) ∨
    (∃ u v, s.fetchCode = .ended u ∧ t.fetchCode = .ended v ∧ u.eraseReader = v.eraseReader ∧ u.st = .done) := by
  obtain ⟨u, v, eu, ev, huv⟩ | ⟨u, v, eu, ev, huv⟩ := h.gatherBits 2
  · have hcode : BitVec.ofNat 12 (v.bitbuf.toNat % 2 ^ v.w.toNat) = BitVec.ofNat 12 (u.bitbuf.toNat % 2 ^ u.w.toNat) :=
      (congrArg (fun x : State => BitVec.ofNat 12 (x.bitbuf.toNat % 2 ^ x.w.toNat)) huv.erase.symm :)
    exact .inl ⟨_, _, _, State.fetchCode_of_ready eu, hcode ▸ State.fetchCode_of_ready ev, huv.dropCode⟩
  · exact .inr ⟨u, v, State.fetchCode_of_ended eu, State.fetchCode_of_ended ev, huv⟩

/-- The same code takes both states to states that again differ in the reader alone. -/
theorem SameStream.exec_code {s t u v : State} {c : Code} (h : SameStream s t)
    (hu : exec (classifyCode s.ctx c) s = .next u) (hv : exec (classifyCode t.ctx c) t = .next v) : SameStream u v := by
  have hclass : classifyCode t.ctx c = classifyCode s.ctx c :=
    (congrArg (fun x : State => classifyCode x.ctx c) h.erase.symm :)
  have hown : u = u.withReader s := by
    have := exec_classifyCode_withReader s hu
    rw [State.withReader_self, hu] at this
    exact Host.Outcome.next.inj this
  have hother : v = u.withReader t := by
    have := exec_classifyCode_withReader t hu
    rw [State.withReader_of_eraseReader h.erase, ← hclass, hv] at this
    exact Host.Outcome.next.inj this
  rw [hown, hother]
  exact ⟨rfl, h.flat, h.left, h.right⟩

theorem SameStream.decodeStep {s t u v : State} (h : SameStream s t) (hu : decodeStep s = .next u)
    (hv : decodeStep t = .next v) : SameStream u v ∨ (u.eraseReader = v.eraseReader ∧ u.st = .done) := by
  obtain ⟨c, s', t', es, et, hst⟩ | ⟨s', t', es, et, hend⟩ := h.fetchCode
  · obtain e | ⟨_, _, e, hs⟩ := decodeStep_cases hu <;> rw [es] at e <;> cases e
    obtain e | ⟨_, _, e, ht⟩ := decodeStep_cases hv <;> rw [et] at e <;> cases e
    exact .inl (hst.exec_code hs ht)
  · rw [Machine.decodeStep, es] at hu
    rw [Machine.decodeStep, et] at hv
    cases hu
    cases hv
    exact .inr hend

/-! ### To the end of the command -/

/-- A run of a command that completes with the block not busy takes a block step, and goes on from there. -/
theorem runCommand_step {n : Nat} {s u : State} (hs : s.busy = true) (h : runCommand n s = .next u)
    (hu : u.busy = false) : ∃ m t, n = m + 1 ∧ blockStep s = .next t ∧ runCommand m t = .next u := by
  cases n with
  | zero => cases h; exact absurd hs (by simp [hu])
  | succ m =>
    simp only [runCommand, hs, if_true] at h
    split at h
    · exact ⟨m, _, rfl, ‹_›, h⟩
    · cases h
    · cases h

theorem runCommand_of_not_busy {n : Nat} {s u : State} (hs : s.busy = false) (h : runCommand n s = .next u) : s = u := by
  rw [runCommand_idle n hs] at h
  exact Host.Outcome.next.inj h

/-- Draining a terminated chain either ends in `Finish`, or consumes a byte and is not done (R86). -/
theorem drainStep_of_terminated {s : State} (hs : s.st = .drain) (hterm : s.terminated = true) :
    ∃ t, drainStep s = .next t ∧
      ((t.st = .done ∧ t.eraseReader = s.eraseReader.finish) ∨
       (t.st = .drain ∧ t.terminated = true ∧ t.eraseReader = s.eraseReader)) := by
  cases hc : s.closed with
  | true => exact ⟨s.finish, by simp [drainStep, hc], .inl ⟨s.finish_st, s.finish_eraseReader⟩⟩
  | false =>
    simp only [State.terminated, hc, Bool.false_or] at hterm
    obtain ⟨hi, _⟩ | ⟨_, _, e⟩ | ⟨len, hb, hi, hl, e⟩ | ⟨b, hb, hi, e⟩ := drainStep_cases hs hc
    · simp [State.unread_nil hi] at hterm
    · exact ⟨_, e, .inl ⟨State.finish_st _, s.takeTerm.finish_eraseReader⟩⟩
    · rw [State.unread_cons hi, hb] at hterm
      have : (chainEnd len.toNat (s.inp.drop (s.ipos + 1))).isSome = true := by
        simpa [chainEnd_zero, show ¬ len = 0#8 from hl] using hterm
      exact ⟨_, e, .inr ⟨hs, by simpa [State.terminated, State.unread] using .inr this, rfl⟩⟩
    · rw [State.unread_cons hi, chainEnd_pos (byte_toNat_ne hb), ← byte_pred_toNat hb, Option.isSome_map] at hterm
      exact ⟨_, e, .inr ⟨hs, by simpa [State.terminated, State.unread] using .inr hterm, rfl⟩⟩

/-- However many bytes are left of a terminated chain, draining them ends in `Finish` (R86, R107). -/
theorem drain_ends_in_finish {n : Nat} {s u : State} (hs : s.st = .drain) (hterm : s.terminated = true)
    (h : runCommand n s = .next u) (hu : u.busy = false) : u.eraseReader = s.eraseReader.finish := by
  induction n generalizing s with
  | zero => cases h; simp [State.busy, hs] at hu
  | succ n ih =>
    obtain ⟨_, t, hn, hstep, hrun⟩ := runCommand_step (by simp [State.busy, hs]) h hu
    cases hn
    obtain ⟨t', e, ht⟩ := drainStep_of_terminated hs hterm
    simp only [blockStep, hs, e, Host.Outcome.next.injEq] at hstep
    subst hstep
    obtain ⟨hdone, hfin⟩ | ⟨hdrain, hterm', hsame⟩ := ht
    · rw [← runCommand_of_not_busy (by simp [State.busy, hdone]) hrun, hfin]
    · rw [ih hdrain hterm' hrun, hsame]

/-- Two commands that read the same flat stream end alike: decode steps go in pairs, and whatever the drains have still to read,
they end in `Finish`. -/
theorem SameStream.runCommand {n k : Nat} {s t u v : State} (h : SameStream s t) (hs : s.st = .decode)
    (hu : runCommand n s = .next u) (hub : u.busy = false) (hv : runCommand k t = .next v) (hvb : v.busy = false) :
    u.eraseReader = v.eraseReader := by
  induction n generalizing s t k with
  | zero => cases hu; simp [State.busy, hs] at hub
  | succ n ih =>
    have ht : t.st = .decode := (congrArg State.st h.erase.symm :).trans hs
    obtain ⟨_, s', hn, hstep, hrun⟩ := runCommand_step (by simp [State.busy, hs]) hu hub
    obtain ⟨_, t', _, hstep', hrun'⟩ := runCommand_step (by simp [State.busy, ht]) hv hvb
    cases hn
    simp only [blockStep, hs] at hstep
    simp only [blockStep, ht] at hstep'
    obtain h' | ⟨herase, hdone⟩ := h.decodeStep hstep hstep'
    · have hctl : t'.st = s'.st := (congrArg State.st h'.erase.symm :)
      cases hst : s'.st with
      | decode => exact ih h' hst hrun hrun'
      | drain =>
        rw [drain_ends_in_finish hst h'.left hrun hub, drain_ends_in_finish (hctl.trans hst) h'.right hrun' hvb, h'.erase]
      | idle | done =>
        rw [← runCommand_of_not_busy (by simp [State.busy, hst]) hrun,
          ← runCommand_of_not_busy (by simp [State.busy, hctl, hst]) hrun', h'.erase]
    · have hdone' : t'.st = .done := (congrArg State.st herase.symm :).trans hdone
      rw [← runCommand_of_not_busy (by simp [State.busy, hdone]) hrun,
        ← runCommand_of_not_busy (by simp [State.busy, hdone']) hrun', herase]

/-- Settles O55: the two commands run side by side until both have ended. -/
theorem sameFlatStreamSameResult : Obligations.SameFlatStreamSameResult := by
  intro s t s' t' n k _ _ hs _ herase hflat hleft hright hrun hbusy hrun' hbusy'
  have h : SameStream s t := ⟨herase, hflat, hleft, hright⟩
  exact h.runCommand hs hrun hbusy hrun' hbusy'

end Sys2Proof.Machine
end

section
/-! SUPPORT. Decoder and encoder agree (R62, R67, R71): the rows of a code class by the value of `M`, both round trips, and the
classes of codes. -/

namespace Sys2Proof.Machine

open Sys2Proof.Laws.RoundTrip (decode_code classify_clear classify_end classify_lit classify_high)

/-- Settles O40: the family `RoundTrip` has a proof for each constructor. -/
theorem decodeOfEncode : Obligations.DecodeOfEncode := by
  suffices h : ∀ i, Laws.RoundTrip.Statement i from fun x i hwf => h i x hwf
  intro i
  cases i with
  | sbTerm => exact Laws.RoundTrip.sbTerm
  | sbLen len => exact Laws.RoundTrip.sbLen len
  | sbData b => exact Laws.RoundTrip.sbData b
  | clear => exact Laws.RoundTrip.clear
  | endCode => exact Laws.RoundTrip.endCode
  | lit c => exact Laws.RoundTrip.lit c
  | dict c => exact Laws.RoundTrip.dict c
  | kwkwk c => exact Laws.RoundTrip.kwkwk c
  | invalid c => exact Laws.RoundTrip.invalid c
  | clearM1 => exact Laws.RoundTrip.clearM1
  | endM1 => exact Laws.RoundTrip.endM1
  | litM1 b => exact Laws.RoundTrip.litM1 b
  | clearM2 => exact Laws.RoundTrip.clearM2
  | endM2 => exact Laws.RoundTrip.endM2
  | litM2 b => exact Laws.RoundTrip.litM2 b
  | clearM3 => exact Laws.RoundTrip.clearM3
  | endM3 => exact Laws.RoundTrip.endM3
  | litM3 b => exact Laws.RoundTrip.litM3 b
  | clearM4 => exact Laws.RoundTrip.clearM4
  | endM4 => exact Laws.RoundTrip.endM4
  | litM4 b => exact Laws.RoundTrip.litM4 b
  | clearM5 => exact Laws.RoundTrip.clearM5
  | endM5 => exact Laws.RoundTrip.endM5
  | litM5 b => exact Laws.RoundTrip.litM5 b
  | clearM6 => exact Laws.RoundTrip.clearM6
  | endM6 => exact Laws.RoundTrip.endM6
  | litM6 b => exact Laws.RoundTrip.litM6 b
  | clearM7 => exact Laws.RoundTrip.clearM7
  | endM7 => exact Laws.RoundTrip.endM7
  | litM7 b => exact Laws.RoundTrip.litM7 b
  | clearM8 => exact Laws.RoundTrip.clearM8
  | endM8 => exact Laws.RoundTrip.endM8
  | litM8 b => exact Laws.RoundTrip.litM8 b
  | start => exact Laws.RoundTrip.start
  | skip => exact Laws.RoundTrip.skip
  | nop => exact Laws.RoundTrip.nop
  | nop3 => exact Laws.RoundTrip.nop3

/-! ### What an item decodes to -/

/-- `i` can stand in the context and is written as the item. -/
def StandsFor (x : Ctx) (i : Instr) (item : Item) : Prop := i.wf x = true ∧ encode x i = item

/-- An `M` that has none of the eight rows is not legal (R69). -/
theorem not_legalM_of_no_row {m : BitVec 4} (h1 : m.toNat ≠ 1) (h2 : m.toNat ≠ 2) (h3 : m.toNat ≠ 3) (h4 : m.toNat ≠ 4)
    (h5 : m.toNat ≠ 5) (h6 : m.toNat ≠ 6) (h7 : m.toNat ≠ 7) (h8 : m.toNat ≠ 8) : legalM m = false := by
  rw [legalM_false_iff]
  omega

/-- A code of the current width fits it (R64). -/
theorem fitsWidth_of_code {x : Ctx} {c : Code} (h : c.toNat < 2 ^ x.w.toNat) : fitsWidth x c.toNat = true :=
  fitsWidth_iff.2 ⟨h, c.isLt⟩

theorem clearRow_standsFor {x : Ctx} {c : Code} (hc : c.toNat = clrOf x.m) (hw : fitsWidth x c.toNat = true) :
    StandsFor x (clearRow x.m) (.code c) := by
  unfold StandsFor clearRow
  split
  case h_9 h1 h2 h3 h4 h5 h6 h7 h8 =>
    have hm := not_legalM_of_no_row h1 h2 h3 h4 h5 h6 h7 h8
    exact ⟨by simp [Instr.wf, hm, ← hc, hw], by simp [encode, ← hc]⟩
  all_goals
    rename_i hm
    rw [clrOf, hm] at hc
    refine ⟨by simpa [Instr.wf, hasM, hm, hc] using hw, ?_⟩
    exact congrArg Item.code (BitVec.eq_of_toNat_eq hc.symm)

theorem endRow_standsFor {x : Ctx} {c : Code} (hc : c.toNat = eoiOf x.m) (hw : fitsWidth x c.toNat = true) :
    StandsFor x (endRow x.m) (.code c) := by
  unfold StandsFor endRow
  split
  case h_9 h1 h2 h3 h4 h5 h6 h7 h8 =>
    have hm := not_legalM_of_no_row h1 h2 h3 h4 h5 h6 h7 h8
    exact ⟨by simp [Instr.wf, hm, ← hc, hw], by simp [encode, ← hc]⟩
  all_goals
    rename_i hm
    rw [eoiOf, hm] at hc
    refine ⟨by simpa [Instr.wf, hasM, hm, hc] using hw, ?_⟩
    exact congrArg Item.code (BitVec.eq_of_toNat_eq hc.symm)

/-- The low `M` bits of a literal's code are its value. -/
theorem setWidth_toNat_of_lt {m : BitVec 4} {k : Nat} {c : Code} (hm : m.toNat = k) (hc : c.toNat < clrOf m) :
    (c.setWidth k).toNat = c.toNat := by
  rw [BitVec.toNat_setWidth, Nat.mod_eq_of_lt (hm ▸ hc)]

/-- A literal's code is its operand, extended to 12 bits again (R64). -/
theorem setWidth_setWidth_of_lt {m : BitVec 4} {k : Nat} {c : Code} (hm : m.toNat = k) (hc : c.toNat < clrOf m) :
    (c.setWidth k).setWidth 12 = c := by
  apply BitVec.eq_of_toNat_eq
  rw [BitVec.toNat_setWidth, setWidth_toNat_of_lt hm hc, Nat.mod_eq_of_lt c.isLt]

theorem litRow_standsFor {x : Ctx} {c : Code} (hc : c.toNat < clrOf x.m) (hw : fitsWidth x c.toNat = true) :
    StandsFor x (litRow x.m c) (.code c) := by
  unfold StandsFor litRow
  split
  case h_9 h1 h2 h3 h4 h5 h6 h7 h8 =>
    have hm := not_legalM_of_no_row h1 h2 h3 h4 h5 h6 h7 h8
    exact ⟨by simp [Instr.wf, hm, hc, hw], rfl⟩
  all_goals
    rename_i hm
    refine ⟨?_, congrArg Item.code (setWidth_setWidth_of_lt hm hc)⟩
    rw [Instr.wf, setWidth_toNat_of_lt hm hc, hw, hasM_iff.2 hm, Bool.and_self]

theorem classifySb_standsFor {x : Ctx} (b : Byte) (hc : x.closed = false) :
    StandsFor x (classifySb x.blkrem b) (.sb b) := by
  unfold StandsFor classifySb
  by_cases hrem : x.blkrem = 0
  · by_cases hb : b = 0
    · rw [if_pos hrem, if_pos hb, hb]
      exact ⟨atLength_iff.2 ⟨hc, hrem⟩, rfl⟩
    · rw [if_pos hrem, if_neg hb]
      exact ⟨by simp [Instr.wf, atLength_iff.2 ⟨hc, hrem⟩, show ¬ b = 0#8 from hb], rfl⟩
  · rw [if_neg hrem]
    exact ⟨by simp [Instr.wf, hc, show ¬ x.blkrem = 0#8 from hrem], rfl⟩

theorem classifyCode_standsFor {x : Ctx} {c : Code} (hc : c.toNat < 2 ^ x.w.toNat) :
    StandsFor x (classifyCode x c) (.code c) := by
  have hw := fitsWidth_of_code hc
  by_cases hclr : c.toNat = clrOf x.m
  · rw [classify_clear hclr]
    exact clearRow_standsFor hclr hw
  by_cases heoi : c.toNat = eoiOf x.m
  · rw [classify_end heoi]
    exact endRow_standsFor heoi hw
  by_cases hlit : c.toNat < clrOf x.m
  · rw [classify_lit hlit]
    exact litRow_standsFor hlit hw
  have hfirst : firstOf x.m ≤ c.toNat := by
    simp only [clrOf, eoiOf, firstOf] at *
    omega
  rw [classify_high hfirst]
  unfold StandsFor
  split_ifs with hdict hkwkwk
  · exact ⟨by simp [Instr.wf, hfirst, hdict, hw], rfl⟩
  · obtain ⟨heq, hv⟩ := hkwkwk
    exact ⟨by simp [Instr.wf, hfirst, ← heq, hv, hw], rfl⟩
  · refine ⟨?_, rfl⟩
    have hrest : x.next.toNat < c.toNat ∨ c.toNat = x.next.toNat ∧ x.prevv = false := by
      by_cases hlt : x.next.toNat < c.toNat
      · exact .inl hlt
      · have heq : c.toNat = x.next.toNat := by omega
        exact .inr ⟨heq, by simpa [heq] using hkwkwk⟩
    simpa [Instr.wf, hfirst, hw] using hrest

/-- The two selecting bits of a command word, as a number (R71). -/
theorem setWidth_two_toNat (v : Word) : (v.setWidth 2).toNat = v.toNat % 4 := BitVec.toNat_setWidth 2 v

theorem and_three_toNat (v : Word) : (v &&& 3).toNat = v.toNat % 4 := by
  rw [BitVec.toNat_and]
  exact Nat.and_two_pow_sub_one_eq_mod v.toNat 2

/-- A command is written as the word with all but its two selecting bits zero (R71). -/
theorem classifyCmd_standsFor (x : Ctx) (v : Word) :
    StandsFor x (classifyCmd (v.setWidth 2)) (.cmd (v &&& 3)) := by
  have hcmd := setWidth_two_toNat v
  have word_eq : ∀ {n : Word}, v.toNat % 4 = n.toNat → n = v &&& 3 := fun h =>
    BitVec.eq_of_toNat_eq (h.symm.trans (and_three_toNat v).symm)
  unfold StandsFor classifyCmd
  split
  case h_4 h0 h1 h2 =>
    change _ ≠ _ at h0 h1 h2
    have hv : v.toNat % 4 = 3 := by omega
    exact ⟨rfl, congrArg Item.cmd (word_eq hv)⟩
  all_goals exact ⟨rfl, congrArg Item.cmd (word_eq (hcmd.symm.trans ‹_›))⟩

/-- Settles O41: by the format of the item. -/
theorem encodeOfDecode : Obligations.EncodeOfDecode := by
  intro x item i h
  cases item with
  | sb b =>
    simp only [decode] at h
    split at h
    · cases h
    · rename_i hopen
      cases h
      exact classifySb_standsFor b (by simpa using hopen)
  | code c =>
    simp only [decode] at h
    split at h
    · rename_i hfits
      cases h
      exact classifyCode_standsFor hfits
    · cases h
  | cmd v =>
    cases h
    exact classifyCmd_standsFor x v

/-! ### The classes of codes -/

theorem clearRow_of_legalM : ∀ m : BitVec 4, legalM m = true →
    [.clearM1, .clearM2, .clearM3, .clearM4, .clearM5, .clearM6, .clearM7, .clearM8][m.toNat - 1]? = some (clearRow m) := by
  decide

theorem endRow_of_legalM : ∀ m : BitVec 4, legalM m = true →
    [.endM1, .endM2, .endM3, .endM4, .endM5, .endM6, .endM7, .endM8][m.toNat - 1]? = some (endRow m) := by
  decide

/-- A literal row carries the code, and is none of the rows for assigned entries. -/
theorem litRow_carries {m : BitVec 4} {c : Code} (hc : c.toNat < clrOf m) :
    stringCodeOf (litRow m c) = some c ∧ litRow m c ≠ .dict c ∧ litRow m c ≠ .kwkwk c := by
  unfold litRow
  split
  case h_9 => exact ⟨rfl, nofun, nofun⟩
  all_goals exact ⟨congrArg some (setWidth_setWidth_of_lt ‹_› hc), nofun, nofun⟩

/-- Settles O42: the tests of the decoder, in the order of R67. -/
theorem codeMapClasses : Obligations.CodeMapClasses := by
  intro x c hm hc
  refine ⟨_, decode_code hc, fun h => ?_, fun h => ?_, fun h => ?_, fun hlo h => ?_, fun hlo h hv => ?_, fun hlo h => ?_⟩
  · rw [classify_clear h]
    exact clearRow_of_legalM x.m hm
  · rw [classify_end h]
    exact endRow_of_legalM x.m hm
  · rw [classify_lit h]
    exact litRow_carries h
  · rw [classify_high hlo, if_pos h]
  · rw [classify_high hlo, if_neg (by omega), if_pos ⟨h, hv⟩]
  · rw [classify_high hlo, if_neg (by omega), if_neg]
    rintro ⟨heq, hv⟩
    simp [heq, hv] at h

/-- Settles O43: with `NEXT` at the first slot no code is below it, and without a previous code none is KwKwK. -/
theorem firstCodeMustBeBasic : Obligations.FirstCodeMustBeBasic := by
  intro x c hnext hv hlo hc
  rw [decode_code hc, classify_high hlo, if_neg (by omega), if_neg (by simp [hv])]

/-- Settles O44: the decoder evaluates on each word. -/
theorem specWordsDecode : Obligations.SpecWordsDecode :=
  ⟨rfl, rfl, rfl, rfl, rfl, rfl, rfl, rfl, rfl, rfl, rfl, rfl, rfl⟩

end Sys2Proof.Machine
end

section
/-! SUPPORT. Items in the step that runs them: a byte of the chain in a fetch (R80 to R83, R91), a code, a byte being drained, a
command word (R71, R86, R90), and a word of the opcode table placed for the next fetch. -/

namespace Sys2Proof.Machine

/-! ### Bytes of the chain -/

/-- Settles O16: the three answers of `NextByte()` against the flat stream, in the order of `nextByte_flat`. -/
theorem nextByteDeliversFlatStream : Obligations.NextByteDeliversFlatStream := by
  intro s
  obtain ⟨u, e, hflat, hterm, hclosed, _⟩ | ⟨u, e, hflat, hterm, hpos, _⟩ | ⟨d, u, e, hflat, hterm, _⟩ := s.nextByte_flat
  · rw [e, hflat]
    refine ⟨fun _ _ h => absurd h nofun, fun t h => ?_, fun _ h => absurd h nofun, fun _ _ h => absurd h nofun⟩
    cases h
    exact ⟨rfl, hterm, hclosed⟩
  · rw [e, hflat]
    refine ⟨fun _ _ h => absurd h nofun, fun _ h => absurd h nofun, fun t h => ?_, fun _ _ h => absurd h nofun⟩
    cases h
    exact ⟨rfl, hterm, hpos⟩
  · rw [e, hflat]
    refine ⟨fun b t h => ?_, fun _ h => absurd h nofun, fun _ h => absurd h nofun, fun b rest h => ?_⟩
    · cases h
      exact ⟨rfl, hterm⟩
    · cases h
      exact ⟨u, rfl⟩

/-- The round of the gathering loop in which the chain ends (R91, R106). -/
theorem State.gatherBits_of_endChain {s u : State} (n : Nat) (hn : s.nbits.toNat < s.w.toNat)
    (h : s.nextByte = .endChain u) : s.gatherBits (n + 1) = .ended u.finish := by
  rw [State.gatherBits, if_pos hn, h]

/-- The round of the gathering loop in which a byte is read (R91). -/
theorem State.gatherBits_of_byte {s u : State} {b : Byte} (n : Nat) (hn : s.nbits.toNat < s.w.toNat)
    (h : s.nextByte = .byte b u) : s.gatherBits (n + 1) = (u.gather b).gatherBits n := by
  rw [State.gatherBits, if_pos hn, h]

/-- The loop depends on the reader only through what `NextByte()` answers. -/
theorem State.gatherBits_congr {s t : State} (n : Nat) (hn : s.nbits.toNat < s.w.toNat) (hbits : t.nbits = s.nbits)
    (hw : t.w = s.w) (h : s.nextByte = t.nextByte) : s.gatherBits (n + 1) = t.gatherBits (n + 1) := by
  rw [State.gatherBits, State.gatherBits, if_pos hn, if_pos (by rw [hbits, hw]; exact hn), h]

/-- A length byte is followed by a data byte of its sub-block: reading it changes no answer of the reader (R80, R81). -/
theorem State.nextByte_takeLen {s : State} {len : Byte} (hc : s.closed = false) (hb : s.blkrem = 0) (hl : len ≠ 0)
    (hi : s.inp[s.ipos]? = some len) : s.nextByte = (s.takeLen len).nextByte := by
  simp [State.nextByte, hc, hb, State.inByte_some hi, show ¬ len = 0#8 from hl]

/-- What the decoder reads a byte of an open chain as (R62). -/
theorem decode_sb {x : Ctx} (hc : x.closed = false) (b : Byte) : decode x (.sb b) = .ok (classifySb x.blkrem b) := by
  simp [decode, hc]

theorem exec_sbTerm {s : State} (hs : s.st = .decode) : exec .sbTerm s = .next s.takeTerm.finish :=
  if_pos (by simp [State.busy, hs])

theorem exec_sbLen (len : Byte) (s : State) : exec (.sbLen len) s = .next (s.takeLen len) := rfl

theorem exec_sbData {s : State} (hs : s.st = .decode) (b : Byte) : exec (.sbData b) s = .next (s.takeData.gather b) :=
  if_pos hs

/-- Settles O21: at a length-byte position the byte is the terminator or a length, inside a sub-block it is data. -/
theorem fetchRunsSubBlockItems : Obligations.FetchRunsSubBlockItems := by
  intro s t b i n hs hc hn hi hdec he
  rw [decode_sb hc] at hdec
  cases hdec
  have hctx : s.ctx.blkrem = s.blkrem := rfl
  rw [hctx, classifySb] at he ⊢
  by_cases hrem : s.blkrem = 0
  · by_cases hb : b = 0
    · rw [if_pos hrem, if_pos hb] at he ⊢
      rw [exec_sbTerm hs] at he
      cases he
      refine ⟨fun _ => State.gatherBits_of_endChain n hn ?_, nofun, nofun⟩
      simp [State.nextByte, hc, hrem, State.inByte_some hi, hb]
    · rw [if_pos hrem, if_neg hb] at he ⊢
      rw [exec_sbLen] at he
      cases he
      exact ⟨nofun, fun _ _ => State.gatherBits_congr n hn rfl rfl (State.nextByte_takeLen hc hrem hb hi), nofun⟩
  · rw [if_neg hrem] at he ⊢
    rw [exec_sbData hs] at he
    cases he
    refine ⟨nofun, nofun, fun _ _ => State.gatherBits_of_byte n hn ?_⟩
    simp [State.nextByte, hc, show ¬ s.blkrem = 0#8 from hrem, State.readData, State.inByte_some hi]

/-! ### The step that runs an item -/

/-- An item that decodes to `i` runs as `i`. -/
theorem runItem_of_decode {s : State} {item : Item} {i : Instr} (h : decode s.ctx item = .ok i) :
    runItem item s = exec i s := by
  rw [runItem, h]

theorem decodeStep_of_code {s t : State} {c : Code} {i : Instr} (h : s.fetchCode = .code c t)
    (hi : decode t.ctx (.code c) = .ok i) : decodeStep s = exec i t := by
  rw [decodeStep, h]
  exact runItem_of_decode hi

theorem drainStep_of_byte {s : State} {b : Byte} {i : Instr} (hc : s.closed = false) (hb : s.inp[s.ipos]? = some b)
    (hi : decode s.ctx (.sb b) = .ok i) : drainStep s = exec i s := by
  simp only [drainStep, hc, State.inByte_some hb, Bool.false_eq_true, if_false]
  exact runItem_of_decode hi

theorem blockStep_of_decode {s : State} (hs : s.st = .decode) : blockStep s = decodeStep s := by
  rw [blockStep, hs]

theorem blockStep_of_drain {s : State} (hs : s.st = .drain) : blockStep s = drainStep s := by
  rw [blockStep, hs]

/-- A write to `CTRL` runs the command its two low bits select (R71). -/
theorem step_of_ctrlWrite {s : State} {v : Word} {rest : List HostOp} (h : s.host = .write 0x00 v :: rest) :
    step s = exec (classifyCmd (v.setWidth 2)) { s with host := rest } :=
  step_of_host h nofun nofun

/-- Settles O38: the step is that of the block or of the host, which decodes one item. -/
theorem stepRunsDecodedInstruction : Obligations.StepRunsDecodedInstruction := by
  refine ⟨fun s t c i hturn hs hf hi => ?_, fun s b i hturn hs hc hb hi => ?_, fun s v i rest hq hi => ?_⟩
  · have hs' : s.blockView.st = .decode := by rw [s.blockView_eq]; exact hs
    rw [step_of_blockTurn hturn, blockStep_of_decode hs']
    exact decodeStep_of_code hf hi
  · rw [step_of_blockTurn hturn]
    obtain ⟨queue, hview⟩ : ∃ queue, s.blockView = { s with host := queue } := ⟨_, s.blockView_eq⟩
    have hdrain : State.st { s with host := queue } = .drain := hs
    rw [hview, blockStep_of_drain hdrain]
    exact drainStep_of_byte hc hb hi
  · cases hi
    exact step_of_ctrlWrite hq

/-- Settles O6: the selecting bits are the word modulo 4. -/
theorem ctrlWriteSelectsCommand : Obligations.CtrlWriteSelectsCommand := by
  intro s v rest h
  rw [step_of_ctrlWrite h]
  refine ⟨fun hv => ?_, fun hv => ?_, fun hv => ?_, fun hv => ?_⟩
  all_goals
    rw [classifyCmd, setWidth_two_toNat, hv]
    rfl

/-! ### Table words -/

/-- Where at least `W` bits are pending, the fetch takes the low `W` of them and moves only the accumulator and the reader. -/
theorem State.fetchCode_pending {s : State} (hw : s.w.toNat ≤ 12) (hb : s.bitbuf.toNat < 2 ^ s.nbits.toNat)
    (hpos : s.ipos ≤ s.inp.length) (hbits : s.w.toNat ≤ s.pendingBits) :
    ∃ t, s.fetchCode = .code (BitVec.ofNat 12 (s.pending % 2 ^ s.w.toNat)) t ∧
      t = { s with bitbuf := t.bitbuf, nbits := t.nbits, ipos := t.ipos, blkrem := t.blkrem } := by
  obtain ⟨t, hg, hh, hwt, _⟩ | ⟨t, _, hh, hflat, hlt, _⟩ := State.gatherBits_spec 2 hw hb (by omega) hpos
  · have htw : t.w = s.w := by rw [hh.frame]
    refine ⟨t.dropCode, ?_, ?_⟩
    · rw [State.fetchCode_of_ready hg, htw, ← State.pending_mod hwt, hh.pend]
    · unfold State.dropCode
      rw [hh.frame]
  · have hfew : s.pendingBits = t.nbits.toNat := by
      rw [← hh.bits, State.pendingBits, hflat]; rfl
    omega

/-- The two bytes a code is placed in are the number of the code. -/
theorem flatValue_code (c : Code) : flatValue [c.setWidth 8, (c >>> 8).setWidth 8] = c.toNat := by
  have hc := c.isLt
  simp only [flatValue, BitVec.toNat_setWidth, BitVec.toNat_ushiftRight, Nat.shiftRight_eq_div_pow]
  omega

/-- A table word is read under a width of at most 12. -/
theorem tableCtx_w_le (w : Nat) : (tableCtx w).w.toNat ≤ 12 := by
  have hm : tableM w ≤ 8 := by
    unfold tableM
    split_ifs <;> omega
  simp only [tableCtx]
  split
  · rw [BitVec.toNat_ofNat]
    exact (Nat.mod_le _ _).trans (by omega)
  · decide

/-- A code placed in the state of a decode about to fetch it is fetched and run there. -/
theorem step_placeItem_code {x : Ctx} {c : Code} {i : Instr} (s : State) (hw : x.w.toNat ≤ 12) (hc : x.closed = false)
    (hrem : x.blkrem = 0) (h : decode x (.code c) = .ok i) :
    ∃ t, step (placeItem x (.code c) s) = exec i t ∧ t.host = [] ∧ t.dict = s.dict ∧ t.out = s.out ∧ t.olen = s.olen ∧
      t.ocnt = s.ocnt ∧ t.cfg = s.cfg := by
  have hfits : c.toNat < 2 ^ x.w.toNat := by
    by_contra hwide
    simp [decode, hwide] at h
  generalize hp : placeItem x (.code c) s = p
  have hflat : p.flat = [c.setWidth 8, (c >>> 8).setWidth 8] := by
    subst hp
    simp only [placeItem, State.flat, State.unread, hc, hrem]
    rfl
  have hpending : p.pending = c.toNat := by
    rw [State.pending, hflat, flatValue_code]
    subst hp
    simp [placeItem]
  have hpw : p.w = x.w := by rw [← hp]; rfl
  have hbits : p.w.toNat ≤ p.pendingBits := by
    rw [State.pendingBits, hflat, hpw]
    simp only [List.length_cons, List.length_nil]
    omega
  have hheld : p.bitbuf.toNat < 2 ^ p.nbits.toNat := by
    subst hp
    simp [placeItem]
  have hpos : p.ipos ≤ p.inp.length := by
    subst hp
    exact Nat.zero_le _
  obtain ⟨t, hf, ht⟩ := State.fetchCode_pending (hpw ▸ hw) hheld hpos hbits
  rw [hpending, hpw, Nat.mod_eq_of_lt hfits, BitVec.ofNat_toNat, BitVec.setWidth_eq] at hf
  have hi : decode t.ctx (.code c) = .ok i := by
    rw [ht, ← hp]
    exact h
  have hstep : step p = decodeStep p := by subst hp; rfl
  refine ⟨t, hstep.trans (decodeStep_of_code hf hi), ?_⟩
  subst hp
  rw [ht]
  exact ⟨rfl, rfl, rfl, rfl, rfl, rfl⟩

/-- Settles O45: by the kind of the item the word is read as. -/
theorem tableWordRunsNext : Obligations.TableWordRunsNext := by
  intro s nbits w i h
  unfold decodeTableWord at h
  unfold State.withFetchWord placeWord
  cases htab : tableItem nbits w with
  | none => rw [htab] at h; cases h
  | some item =>
    have hdec : decode (tableCtx w) item = .ok i := by
      rw [htab] at h
      simp only at h
      split at h
      · cases h; assumption
      · cases h
    show ∃ t, step (placeItem (tableCtx w) item s) = _ ∧ _
    cases item with
    | sb b =>
      have hrun := drainStep_of_byte (s := placeItem (tableCtx w) (.sb b) s) rfl rfl hdec
      exact ⟨_, hrun, rfl, rfl, rfl, rfl, rfl, rfl⟩
    | code c => exact step_placeItem_code s (tableCtx_w_le w) rfl rfl hdec
    | cmd v =>
      cases hdec
      have hrun := step_of_ctrlWrite (s := placeItem (tableCtx w) (.cmd v) s) rfl
      exact ⟨_, hrun, rfl, rfl, rfl, rfl, rfl, rfl⟩

end Sys2Proof.Machine
end

section
/-! SUPPORT. The sub-block reader (spec/40_subblock_reader.md): what the byte items do, what `NextByte()` answers at the end of
the chain and of the input, and the drain from its single step to the end of the chain (R86). -/

namespace Sys2Proof.Machine

/-! ### The byte items -/

/-- What `Finish` latches (R107): `OK` under `SKIP` or with the output full, else `SHORT`, and `TRUNC` with it. -/
theorem State.finish_eq (s : State) :
    s.finish = { s with
      bitbuf := 0, nbits := 0, st := .done
      cause := if s.mode = true ∨ s.ocnt = s.olen then .ok else .short
      trunc := !(s.mode || decide (s.ocnt = s.olen)) } := by
  unfold State.finish
  by_cases h : s.mode = true ∨ s.ocnt = s.olen
  · have hok : (s.mode || decide (s.ocnt = s.olen)) = true := by simpa using h
    rw [if_pos h, if_pos h, hok]
    rfl
  · have hshort : (s.mode || decide (s.ocnt = s.olen)) = false := by simpa using h
    rw [if_neg h, if_neg h, hshort]
    rfl

theorem exec_sbTerm_of_busy {s : State} (h : s.busy = true) : exec .sbTerm s = .next s.takeTerm.finish := if_pos h

theorem exec_sbTerm_of_not_busy {s : State} (h : s.busy = false) : exec .sbTerm s = .next s.takeTerm :=
  if_neg (by simp [h])

theorem exec_sbData_of_not_decode {s : State} (h : s.st ≠ .decode) (b : Byte) :
    exec (.sbData b) s = .next s.takeData := if_neg h

/-- Settles O13: the effect is `takeLen`. -/
theorem lengthByteEffect : Obligations.LengthByteEffect := fun s len => exec_sbLen len s

/-- Settles O14: while a command runs the terminator is followed by `Finish`. -/
theorem terminatorEffect : Obligations.TerminatorEffect := by
  refine fun s => ⟨fun h => ?_, fun h => ?_⟩
  · rw [exec_sbTerm_of_busy (by simpa [State.busy] using h), State.finish_eq]
    rfl
  · exact exec_sbTerm_of_not_busy (by obtain h | h := h <;> simp [State.busy, h])

/-- Settles O15: the byte is counted off, and under `DECODE` it enters the accumulator (`gather_value`). -/
theorem dataByteEffect : Obligations.DataByteEffect := by
  intro s b hrem
  have hpred : (s.blkrem - 1).toNat = s.blkrem.toNat - 1 := byte_pred_toNat fun h => by simp [h] at hrem
  by_cases hs : s.st = .decode
  · refine ⟨_, exec_sbData hs b, hpred, rfl, fun h => absurd hs h, fun _ hn hw hheld => ?_⟩
    obtain ⟨hnbits, hbitbuf, _⟩ := State.gather_value (s := s.takeData) b (by rw [State.takeData_nbits]; omega) hheld
    exact ⟨hnbits, hbitbuf, rfl⟩
  · exact ⟨_, exec_sbData_of_not_decode hs b, hpred, rfl, fun _ => rfl, fun h => absurd h hs⟩

/-! ### The end of the chain and of the input -/

/-- Settles O17: `NextByte()` looks at `CLOSED` first. -/
theorem closedChainStaysClosed : Obligations.ClosedChainStaysClosed := fun _ h => if_pos h

/-- When `NextByte()` answers `Exhausted`, and with what state (R84): no byte is left, or none behind a length byte. -/
theorem State.nextByte_eq_exhausted_iff {s t : State} :
    s.nextByte = .exhausted t ↔
      s.closed = false ∧
      ((s.inp[s.ipos]? = none ∧ t = s) ∨
       (∃ len : Byte, s.blkrem = 0 ∧ len ≠ 0 ∧ s.inp[s.ipos]? = some len ∧ s.inp[s.ipos + 1]? = none ∧
         t = s.takeLen len)) := by
  rcases s.nextByte_cases with ⟨hc, e⟩ | ⟨hc, hi, e⟩ | ⟨hc, hb, hi, e⟩ | ⟨len, hc, hb, hl, hi, hj, e⟩ |
    ⟨len, b, hc, hb, hl, hi, hj, e⟩ | ⟨b, hc, hb, hi, e⟩ <;> rw [e]
  · simp [hc]
  · simp [hc, hi, @eq_comm _ t]
  · simp [hi]
  · simp [hc, hb, hi, hj, show ¬ len = 0#8 from hl, @eq_comm _ t]
  · simp [hi, hj]
  · simp [hi, show ¬ s.blkrem = 0#8 from hb]

/-- Settles O18: `takeLen` is all that a call can have done when it finds the input exhausted. -/
theorem exhaustionKeepsWhatWasRead : Obligations.ExhaustionKeepsWhatWasRead := by
  refine fun s => ⟨fun hc hi => ?_, fun len hc hb hl hi hj => ?_, fun t h => State.nextByte_eq_exhausted_iff.1 h⟩
  · exact State.nextByte_eq_exhausted_iff.2 ⟨hc, .inl ⟨hi, rfl⟩⟩
  · exact State.nextByte_eq_exhausted_iff.2 ⟨hc, .inr ⟨len, hb, hl, hi, hj, rfl⟩⟩

/-! ### One drain step -/

theorem drainStep_of_closed {s : State} (h : s.closed = true) : drainStep s = .next s.finish := if_pos h

section OpenChain

variable {s : State} (hs : s.st = .drain) (hc : s.closed = false)

include hc

theorem drainStep_of_exhausted (hi : s.inp[s.ipos]? = none) : drainStep s = .next (s.halt .truncated) := by
  simp [drainStep, hc, State.inByte_none hi]

/-- The byte is run as the item it is at this position of the chain (R62). -/
theorem drainStep_runs_item {b : Byte} (hi : s.inp[s.ipos]? = some b) :
    drainStep s = exec (classifySb s.blkrem b) s := drainStep_of_byte hc hi (decode_sb hc b)

theorem drainStep_of_len {len : Byte} (hb : s.blkrem = 0) (hi : s.inp[s.ipos]? = some len) (hl : len ≠ 0) :
    drainStep s = .next (s.takeLen len) := by
  rw [drainStep_runs_item hc hi, classifySb, if_pos hb, if_neg hl, exec_sbLen]

include hs

theorem drainStep_of_term (hb : s.blkrem = 0) (hi : s.inp[s.ipos]? = some 0) :
    drainStep s = .next s.takeTerm.finish := by
  rw [drainStep_runs_item hc hi, classifySb, if_pos hb, if_pos rfl, exec_sbTerm_of_busy (by simp [State.busy, hs])]

theorem drainStep_of_data {b : Byte} (hb : s.blkrem ≠ 0) (hi : s.inp[s.ipos]? = some b) :
    drainStep s = .next s.takeData := by
  rw [drainStep_runs_item hc hi, classifySb, if_neg hb, exec_sbData_of_not_decode (by simp [hs])]

end OpenChain

/-- Settles O19: with no host operation the step is the drain step, whose cases have their equations above. -/
theorem drainStepCases : Obligations.DrainStepCases := by
  intro s hhost hs
  have hview : s.blockView = s := by simp [State.blockView, hhost]
  rw [step_of_blockTurn (by simp [State.blockTurn, hhost]), hview, blockStep_of_drain hs]
  exact ⟨drainStep_of_closed, drainStep_of_exhausted, drainStep_of_term hs, fun _ hc => drainStep_of_len hc,
    fun _ hc => drainStep_of_data hs hc⟩

/-! ### The whole drain -/

/-- One drain step against the rest of the chain: the input is used up, or the byte is the terminator, or it is one byte of a
chain that goes on, with `rem` bytes of the sub-block then unread. -/
theorem drainStep_chainEnd {s : State} (hs : s.st = .drain) (hc : s.closed = false) :
    (s.inp.length ≤ s.ipos ∧ chainEnd s.blkrem.toNat s.unread = none ∧ drainStep s = .next (s.halt .truncated)) ∨
    (s.blkrem = 0 ∧ chainEnd s.blkrem.toNat s.unread = some 1 ∧ drainStep s = .next s.takeTerm.finish) ∨
    (∃ rem : BitVec 8, s.ipos < s.inp.length ∧
      chainEnd s.blkrem.toNat s.unread = (chainEnd rem.toNat (s.takeLen rem).unread).map (· + 1) ∧
      drainStep s = .next (s.takeLen rem)) := by
  obtain ⟨hi, e⟩ | ⟨hb, hi, e⟩ | ⟨len, hb, hi, hl, e⟩ | ⟨b, hb, hi, e⟩ := drainStep_cases hs hc
  · exact .inl ⟨List.getElem?_eq_none_iff.1 hi, by rw [State.unread_nil hi, chainEnd_nil], e⟩
  · refine .inr (.inl ⟨hb, ?_, e⟩)
    rw [State.unread_cons hi, hb]
    exact (chainEnd_zero 0 _).trans (if_pos rfl)
  · refine .inr (.inr ⟨len, (List.getElem?_eq_some_iff.1 hi).1, ?_, e⟩)
    rw [State.unread_cons hi, hb]
    exact (chainEnd_zero len _).trans (if_neg hl)
  · refine .inr (.inr ⟨s.blkrem - 1, (List.getElem?_eq_some_iff.1 hi).1, ?_, e⟩)
    rw [State.unread_cons hi, chainEnd_pos (byte_toNat_ne hb), byte_pred_toNat hb]
    rfl

/-- The first step of a run that drains (R86). -/
theorem runCommand_of_drainStep (n : Nat) {s t : State} (hs : s.st = .drain) (h : drainStep s = .next t) :
    runCommand (n + 1) s = runCommand n t :=
  runCommand_succ n (by simp [State.busy, hs]) ((blockStep_of_drain hs).trans h)

/-- As many steps as the chain has bytes left close it and run `Finish` (R86, R107). -/
theorem runCommand_drain_terminated {k : Nat} {s : State} (hs : s.st = .drain) (hc : s.closed = false)
    (hk : chainEnd s.blkrem.toNat s.unread = some k) :
    runCommand k s = .next (State.finish { s with closed := true, blkrem := 0, ipos := s.ipos + k }) := by
  induction k generalizing s with
  | zero =>
    obtain ⟨_, hend, _⟩ | ⟨_, hend, _⟩ | ⟨rem, _, hend, _⟩ := drainStep_chainEnd hs hc <;> simp [hend] at hk
  | succ k ih =>
    obtain ⟨_, hend, _⟩ | ⟨hb, hend, e⟩ | ⟨rem, _, hend, e⟩ := drainStep_chainEnd hs hc <;> rw [hend] at hk
    · cases hk
    · cases hk
      rw [runCommand_of_drainStep 0 hs e, ← hb]
      rfl
    · obtain ⟨k', hrest, hk'⟩ := Option.map_eq_some_iff.1 hk
      obtain rfl : k' = k := Nat.succ.inj hk'
      rw [runCommand_of_drainStep k' hs e, ih (s := s.takeLen rem) hs hc hrest, State.takeLen_ipos, Nat.add_right_comm]
      rfl

/-- Where the input ends first, as many steps as it has bytes left consume them, and the next finds none (R86, R124). -/
theorem runCommand_drain_truncated {n : Nat} {s : State} (hs : s.st = .drain) (hc : s.closed = false)
    (hn : s.ipos + n = s.inp.length) (hend : chainEnd s.blkrem.toNat s.unread = none) :
    ∃ rem, runCommand (n + 1) s = .next (State.halt .truncated { s with blkrem := rem, ipos := s.inp.length }) := by
  induction n generalizing s with
  | zero =>
    refine ⟨s.blkrem, ?_⟩
    rw [runCommand_of_drainStep 0 hs (drainStep_of_exhausted hc (List.getElem?_eq_none_iff.2 hn.ge)), ← hn]
    rfl
  | succ n ih =>
    obtain ⟨hpos, _, _⟩ | ⟨_, hone, _⟩ | ⟨rem, _, hrest, e⟩ := drainStep_chainEnd hs hc
    · omega
    · rw [hend] at hone; cases hone
    · have hn' : (s.takeLen rem).ipos + n = s.inp.length := by rw [State.takeLen_ipos]; omega
      rw [runCommand_of_drainStep (n + 1) hs e]
      exact ih (s := s.takeLen rem) hs hc hn' (Option.map_eq_none_iff.1 (hrest.symm.trans hend))

/-- Settles O20, by induction on the bytes left: of the chain where its terminator is there, else of the input. -/
theorem drainConsumesRestOfChain : Obligations.DrainConsumesRestOfChain := by
  refine fun s hs hc hpos => ⟨fun k hk => ?_, fun hend => ?_⟩
  · exact ⟨_, runCommand_drain_terminated hs hc hk, State.finish_eq _⟩
  · obtain ⟨rem, e⟩ := runCommand_drain_truncated hs hc (Nat.add_sub_of_le hpos) hend
    exact ⟨_, e, rfl⟩

end Sys2Proof.Machine
end

section
/-! SUPPORT. `Emit` and `Append` (R94 to R96), and the frame of the codes that emit a string. -/

namespace Sys2Proof.Machine

/-! ### `Emit` -/

/-- The output count after an emission: one more for each byte, up to `OLEN`. -/
theorem State.emit_ocnt_toNat (str : List Byte) {s : State} (h : s.ocnt.toNat ≤ s.olen.toNat) :
    (s.emit str).ocnt.toNat = min (s.ocnt.toNat + str.length) s.olen.toNat := by
  induction str generalizing s with
  | nil => exact (Nat.min_eq_left h).symm
  | cons v rest ih =>
    have hcnt := s.outByte_ocnt v
    have hle : (s.outByte v).ocnt.toNat ≤ (s.outByte v).olen.toNat := by
      rw [hcnt, State.outByte_olen]
      split <;> omega
    rw [State.emit, ih hle, hcnt, State.outByte_olen, List.length_cons]
    split <;> omega

/-- The bytes that fit stand in order from `OUT[OCNT]` on: those after the first are what the rest of the emission
writes, which leaves the first as it is. -/
theorem State.emit_read (str : List Byte) {s : State} {k : Nat} (h : s.ocnt.toNat ≤ s.olen.toNat)
    (hk : s.ocnt.toNat + k < (s.emit str).ocnt.toNat) :
    Memory.read (s.emit str).out (s.outBase + s.ocnt.toNat + k) = str[k]? := by
  induction str generalizing s k with
  | nil => exact absurd hk (Nat.not_lt.2 (Nat.le_add_right _ _))
  | cons v rest ih =>
    have hroom : s.ocnt.toNat < s.olen.toNat := by
      rw [State.emit_ocnt_toNat _ h] at hk
      omega
    have hcnt : (s.outByte v).ocnt.toNat = s.ocnt.toNat + 1 := by rw [State.outByte_ocnt, if_pos hroom]
    rw [State.emit] at hk ⊢
    cases k with
    | zero =>
      obtain ⟨_, hkept, _⟩ := (s.outByte v).emit_frame rest
      rw [hkept _ (.inl (by rw [hcnt, State.outByte_outBase]; omega)), State.outByte_fits s v hroom]
      exact Memory.read_write_same _ _ _
    | succ k =>
      have hrest := ih (s := s.outByte v) (k := k) (by rw [hcnt, State.outByte_olen]; exact hroom) (by omega)
      rw [hcnt, State.outByte_outBase] at hrest
      rw [show s.outBase + s.ocnt.toNat + (k + 1) = s.outBase + (s.ocnt.toNat + 1) + k by omega]
      exact hrest

theorem State.outByte_ovf (s : State) (v : Byte) :
    (s.outByte v).ovf = (s.ovf || decide (s.olen.toNat ≤ s.ocnt.toNat)) := by
  by_cases h : s.ocnt.toNat < s.olen.toNat
  · simp [State.outByte_fits s v h, h]
  · simp [State.outByte_full s v h, Nat.not_lt.1 h]

/-- `OVF` is set by the first byte that does not fit, and stays set. -/
theorem State.emit_ovf (str : List Byte) {s : State} (h : s.ocnt.toNat ≤ s.olen.toNat) :
    (s.emit str).ovf = (s.ovf || decide (s.olen.toNat < s.ocnt.toNat + str.length)) := by
  induction str generalizing s with
  | nil => simp [State.emit, h]
  | cons v rest ih =>
    have hcnt := s.outByte_ocnt v
    by_cases hroom : s.ocnt.toNat < s.olen.toNat
    · rw [if_pos hroom] at hcnt
      rw [State.emit, ih (by rw [hcnt, State.outByte_olen]; exact hroom), State.outByte_ovf, hcnt, State.outByte_olen,
        decide_eq_false (Nat.not_le.2 hroom), Bool.or_false, List.length_cons, Nat.add_right_comm, Nat.add_assoc]
    · rw [if_neg hroom] at hcnt
      have hfull : s.olen.toNat < s.ocnt.toNat + (v :: rest).length := by rw [List.length_cons]; omega
      rw [State.emit, ih (by rw [hcnt, State.outByte_olen]; exact h), State.outByte_ovf,
        decide_eq_true (Nat.not_lt.1 hroom), decide_eq_true hfull]
      simp

/-- Settles O32, by induction on the bytes offered. -/
theorem emitWritesInOrder : Obligations.EmitWritesInOrder := by
  intro s str h
  obtain ⟨_, hkept, hframe⟩ := s.emit_frame str
  exact ⟨State.emit_ocnt_toNat str h, fun k => State.emit_read str h, hkept, State.emit_ovf str h, hframe⟩

/-! ### `Append` -/

/-- Settles O33: the laws of an append; `NEXT` does not wrap, being below 4096. -/
theorem appendWritesEntry : Obligations.AppendWritesEntry := by
  intro s p b hn
  refine ⟨?_, fun n hne => ?_, State.append_next_toNat hn p b, State.append_w_toNat hn p b, s.append_frame p b⟩
  · rw [State.append_dict]
    exact DictMem.find_set_same _ _ _
  · rw [State.append_dict]
    exact DictMem.find_set_other _ _ _ _ hne

/-! ### The frame of the codes that emit a string -/

/-- `t` is `s` but for what the codes that emit a string write: the dictionary with its registers, the output with its
count and flag, and the stack. -/
def StringWrites (s t : State) : Prop :=
  t = { s with
    w := t.w, next := t.next, prev := t.prev, prevv := t.prevv, ocnt := t.ocnt, ovf := t.ovf, dict := t.dict
    out := t.out, stack := t.stack }

theorem StringWrites.trans {s t u : State} (h1 : StringWrites s t) (h2 : StringWrites t u) : StringWrites s u := by
  unfold StringWrites at h2
  rw [h1] at h2
  exact h2

theorem StringWrites.outBase {s t : State} (h : StringWrites s t) : t.outBase = s.outBase := by rw [h]

/-- What each part of such a code keeps: the bytes below the old `OCNT` and from the new one on, and every field that
the codes do not write. -/
structure StringFrame (s t : State) : Prop where
  ocnt   : s.ocnt.toNat ≤ t.ocnt.toNat
  out    : ∀ a, a < s.outBase + s.ocnt.toNat ∨ s.outBase + t.ocnt.toNat ≤ a →
    Memory.read t.out a = Memory.read s.out a
  writes : StringWrites s t

theorem StringFrame.trans {s t u : State} (h1 : StringFrame s t) (h2 : StringFrame t u) : StringFrame s u where
  ocnt := h1.ocnt.trans h2.ocnt
  out a ha := by
    have hle1 := h1.ocnt
    have hle2 := h2.ocnt
    have hbase := h1.writes.outBase
    rw [h2.out a (by omega), h1.out a (by omega)]
  writes := h1.writes.trans h2.writes

/-- An operation that does not touch the output. -/
theorem StringFrame.of_writes {s t : State} (hc : t.ocnt = s.ocnt) (hm : t.out = s.out) (h : StringWrites s t) :
    StringFrame s t := ⟨by rw [hc], fun _ _ => by rw [hm], h⟩

theorem StringFrame.setPrev (c : Code) (s : State) : StringFrame s (s.setPrev c) := .of_writes rfl rfl rfl

theorem StringFrame.append (s : State) (p : Code) (b : Byte) : StringFrame s (s.append p b) := by
  refine .of_writes (s.append_ocnt p b) (s.append_out p b) ?_
  rw [s.append_frame]
  rfl

/-- The bytes are popped off the stack, which is left empty. -/
theorem StringFrame.emit (str : List Byte) (s : State) : StringFrame s (State.emit str { s with stack := [] }) := by
  obtain ⟨hcnt, hkept, hframe⟩ := State.emit_frame str { s with stack := [] }
  refine ⟨hcnt, hkept, ?_⟩
  rw [hframe]
  rfl

/-- What such a code leaves besides: the dictionary as it was or with an entry written at `NEXT`, the code as `PREV`,
and an empty stack. -/
structure StringDone (c : Code) (s t : State) : Prop where
  frame : StringFrame s t
  dict  : t.dict = s.dict ∨ ∃ e, t.dict = DictMem.set s.dict s.next.toNat e
  prev  : t.prev = c
  prevv : t.prevv = true
  stack : t.stack = []

theorem StringDone.find_other {c : Code} {s t : State} (h : StringDone c s t) {n : Nat} (hn : n ≠ s.next.toNat) :
    DictMem.find t.dict n = DictMem.find s.dict n := by
  obtain e | ⟨x, e⟩ := h.dict <;> rw [e]
  exact DictMem.find_set_other _ _ _ _ hn

theorem knownCode_done {c : Code} {s t : State} (h : knownCode c s = .next t) : StringDone c s t := by
  obtain ⟨str, u, rfl, ⟨_, _, f, rfl⟩ | ⟨_, rfl⟩⟩ := knownCode_cases h
  · exact {
      frame := (StringFrame.emit str s).trans ((StringFrame.append _ s.prev f).trans (.setPrev c _))
      dict := .inr ⟨⟨s.prev, f⟩, by simp⟩
      prev := rfl
      prevv := rfl
      stack := by simp }
  · exact {
      frame := (StringFrame.emit str s).trans (.setPrev c _)
      dict := .inl (by simp)
      prev := rfl
      prevv := rfl
      stack := by simp }

theorem kwkwkCode_done {c : Code} {s t : State} (h : kwkwkCode c s = .next t) : StringDone c s t := by
  obtain ⟨f, str, rfl⟩ := kwkwkCode_cases h
  exact {
    frame := (StringFrame.append s s.prev f).trans ((StringFrame.emit str _).trans (.setPrev c _))
    dict := .inr ⟨⟨s.prev, f⟩, by simp⟩
    prev := rfl
    prevv := rfl
    stack := by simp }

/-- An instruction that emits the string of `c` runs `ExecKnown(c)`, or `ExecKwKwK(c)`. -/
theorem exec_of_stringCodeOf {i : Instr} {c : Code} (h : stringCodeOf i = some c) (s : State) :
    exec i s = knownCode c s ∨ exec i s = kwkwkCode c s := by
  cases i with
  | kwkwk _ => cases h; exact .inr rfl
  | lit _ | dict _ | litM1 _ | litM2 _ | litM3 _ | litM4 _ | litM5 _ | litM6 _ | litM7 _ | litM8 _ =>
    cases h; exact .inl rfl
  | _ => cases h

/-- Settles O30: emission, append and the new `PREV` each keep to the frame. -/
theorem stringCodeFrame : Obligations.StringCodeFrame := by
  intro i c s t hi h
  have hdone : StringDone c s t := by
    obtain e | e := exec_of_stringCodeOf hi s <;> rw [e] at h
    · exact knownCode_done h
    · exact kwkwkCode_done h
  exact ⟨hdone.frame.ocnt, hdone.frame.out, fun _ hn => hdone.find_other hn, hdone.prev, hdone.prevv, hdone.stack,
    hdone.frame.writes⟩

end Sys2Proof.Machine
end

section
/-! SUPPORT. The codes by class (R97 to R103): what each does to a state of a decode. -/

namespace Sys2Proof.Machine

open Sys2Proof.Laws.RoundTrip (classify_clear classify_end classify_lit classify_high)

/-! ### CLEAR, END and the invalid codes -/

/-- CLEAR under one `M`, the two values it sets written out (R12, R100). -/
theorem exec_clearRow_of_m {s : State} {m w : BitVec 4} {next : BitVec 13} (hw : m + 1 = w)
    (hn : BitVec.ofNat 13 (firstOf m) = next) (hm : s.m = m) :
    exec (clearRow m) s = .next { s with w := w, next := next, prev := 0, prevv := false } := by
  subst hm hw hn
  exact exec_clearRow s.m s

/-- Settles O24: every row sets the context to its start. -/
theorem clearCodeEffect : Obligations.ClearCodeEffect := by
  intro s
  refine ⟨⟨s.clearContext, rfl, fun hm => ?_, rfl, rfl, rfl⟩, exec_clearRow_of_m rfl rfl, exec_clearRow_of_m rfl rfl,
    exec_clearRow_of_m rfl rfl, exec_clearRow_of_m rfl rfl, exec_clearRow_of_m rfl rfl, exec_clearRow_of_m rfl rfl,
    exec_clearRow_of_m rfl rfl, exec_clearRow_of_m rfl rfl⟩
  obtain ⟨_, hm8⟩ := legalM_iff.1 hm
  exact ⟨State.clearContext_w_toNat hm8, State.clearContext_next_toNat hm8⟩

/-- Settles O25: every row is `endDecode`. -/
theorem endCodeEffect : Obligations.EndCodeEffect := by
  intro s i hi
  simp only [List.mem_cons, List.not_mem_nil, or_false] at hi
  obtain rfl | rfl | rfl | rfl | rfl | rfl | rfl | rfl | rfl := hi <;> rfl

/-- Settles O29: `corrupt` records the three values and halts, in every state. -/
theorem invalidCodeEffect : Obligations.InvalidCodeEffect := fun _ _ => rfl

/-! ### Literals -/

/-- A literal is its own string and its own first byte (R93, R97). -/
theorem knownCode_of_literal {s : State} {c : Code} (hs : s.stack = []) (hc : c.toNat < s.clr) :
    knownCode c s = .next (s.afterKnown c (c.setWidth 8) []) := by
  have hwalk : s.string c = some [c.setWidth 8] :=
    walkString_complete (.literal c hc) (by simp)
  exact knownCode_of_string hs hwalk (walkFirst_of_walkString hwalk)

/-- The literals of one `M` are its `M`-bit values. -/
theorem knownCode_of_operand {s : State} {m : BitVec 4} {k : Nat} (hs : s.stack = []) (hk : m.toNat = k) (b : BitVec k)
    (hm : s.m = m) : knownCode (b.setWidth 12) s = .next (s.afterKnown (b.setWidth 12) (b.setWidth 8) []) := by
  have hlit : (b.setWidth 12).toNat < s.clr := by
    rw [BitVec.toNat_setWidth, State.clr, clrOf, hm, hk]
    exact (Nat.mod_le _ _).trans_lt b.isLt
  rw [knownCode_of_literal hs hlit, BitVec.setWidth_setWidth_of_le b (by decide)]

/-- Settles O26: every row is `ExecKnown` of a literal. -/
theorem literalCodeEffect : Obligations.LiteralCodeEffect := by
  intro s hs
  refine ⟨fun c => knownCode_of_literal hs, knownCode_of_operand hs rfl, knownCode_of_operand hs rfl,
    knownCode_of_operand hs rfl, knownCode_of_operand hs rfl, knownCode_of_operand hs rfl, knownCode_of_operand hs rfl,
    knownCode_of_operand hs rfl, fun b hm => ?_⟩
  have h8 := knownCode_of_operand (k := 8) hs rfl b hm
  rw [BitVec.setWidth_eq] at h8
  exact h8

/-! ### Assigned entries and KwKwK -/

/-- Before the first code no entry is assigned (R104), so at a dictionary code there is a previous one. -/
theorem DecodeInv.prevv_of_assigned {s : State} (h : DecodeInv s) {k : Nat} (hlo : s.first ≤ k)
    (hhi : k < s.next.toNat) : s.prevv = true := by
  by_contra hv
  obtain ⟨hnext, _⟩ := h.noPrev (by simpa using hv)
  omega

/-- Settles O27: the string of an assigned entry has two or more bytes, and `ExecKnown` offers it. -/
theorem dictionaryCodeEffect : Obligations.DictionaryCodeEffect := by
  intro s c h hs hlo hhi
  obtain ⟨f, rest, hwalk, hf, hstr⟩ := string_of_dictOk h.dict (.inr ⟨hlo, hhi⟩)
  obtain ⟨hlen, _⟩ := hstr.length_of_entry h.dict hlo hhi
  refine ⟨h.prevv_of_assigned hlo hhi, f, rest, hstr, ?_, knownCode_of_string hs hwalk hf⟩
  rintro rfl
  exact absurd hlen (by simp)

/-- Settles O28: the string of the entry just appended is that of `PREV` and its first byte again. -/
theorem kwKwKCodeEffect : Obligations.KwKwKCodeEffect := by
  intro s c h hs hc hv
  have hprev := h.prevCode hv
  obtain ⟨f, rest, _, hf, hstr⟩ := string_of_dictOk h.dict hprev
  exact ⟨f, rest, hstr, kwkwkCode_of_string hs hf (State.string_append_prev h.dict hprev h.slotLo hc hstr)⟩

/-! ### The full dictionary -/

theorem eq_classifyCode_of_decode {x : Ctx} {c : Code} {i : Instr} (h : decode x (.code c) = .ok i) :
    i = classifyCode x c := by
  simp only [decode] at h
  split at h <;> cases h
  rfl

/-- A literal or an assigned entry is run by `ExecKnown` (R97, R98). -/
theorem exec_classifyCode_of_stringCode {s : State} {c : Code} (h : s.stringCode c) :
    exec (classifyCode s.ctx c) s = knownCode c s := by
  obtain hlit | ⟨hlo, hhi⟩ := h
  · rw [classify_lit (x := s.ctx) hlit]
    exact exec_litRow hlit s
  · rw [classify_high (x := s.ctx) hlo]
    exact congrArg (exec · s) (if_pos hhi)

/-- R29 item 4 with `NEXT` at its greatest value. -/
theorem WidthRule.full {s : State} (h : WidthRule s) (hm : 1 ≤ s.m.toNat) (hn : s.next.toNat = 4096) :
    s.w.toNat = 12 ∨ (s.m.toNat = 1 ∧ s.cfg.growGe = false ∧ s.w.toNat = 2) := by
  by_cases hgen : 2 ≤ s.m.toNat ∨ (s.cfg.growGe = true ∧ 5 ≤ s.next.toNat)
  · have hlog : Nat.log2 4096 = 12 := Nat.log2_two_pow (n := 12)
    exact .inl (by rw [h.general hgen, hn, hlog]; rfl)
  · have hm1 : s.m.toNat = 1 := by omega
    have hge : s.cfg.growGe = false := by simpa [hn] using fun hge => hgen (.inr ⟨hge, by omega⟩)
    exact .inr ⟨hm1, hge, h.m1Literal hm1 hge⟩

/-- With the dictionary full a literal or an assigned entry is emitted and becomes `PREV`, and no entry is appended. -/
theorem DecodeInv.knownCode_full {s : State} (h : DecodeInv s) (hs : s.stack = []) (hn : s.next.toNat = 4096) {c : Code}
    (hc : s.stringCode c) :
    ∃ str, StringIs s.dict s.clr c str ∧ knownCode c s = .next ((s.emit str).setPrev c) := by
  obtain ⟨f, rest, hwalk, hf, hstr⟩ := string_of_dictOk h.dict hc
  have hfull : s.afterKnown c f rest = (s.emit (f :: rest)).setPrev c := if_neg (by omega)
  exact ⟨f :: rest, hstr, by rw [knownCode_of_string hs hwalk hf, hfull]⟩

/-- Settles O35: KwKwK and the invalid codes are not below `NEXT`, and every code is; the others run by their class. -/
theorem fullDictionaryAppendsNothing : Obligations.FullDictionaryAppendsNothing := by
  refine ⟨fun x c i hn hi => ?_, fun s h hs hn => ⟨h.width.full (legalM_iff.1 h.legal).1 hn, fun c i hi => ?_⟩⟩
  · have hc : c.toNat < x.next.toNat := hn ▸ c.isLt
    obtain ⟨hwf, _⟩ := encodeOfDecode x _ i hi
    refine ⟨?_, ?_⟩ <;> rintro rfl
    · simp [Instr.wf, hc.ne] at hwf
    · simp [Instr.wf, hc.ne, hc.not_gt] at hwf
  · obtain rfl := eq_classifyCode_of_decode hi
    refine ⟨fun hclr => ?_, fun heoi => ?_, fun hc => ?_⟩
    · rw [classify_clear hclr, exec_clearRow]
    · rw [classify_end heoi, exec_endRow]
    · rw [exec_classifyCode_of_stringCode hc]
      exact h.knownCode_full hs hn hc

end Sys2Proof.Machine
end

section
/-! SUPPORT. A fetch at the end of the stream (R106, R107, R124): with fewer than `W` bits left it ends the command. -/

namespace Sys2Proof.Machine

/-- Settles O37: `finish` is its two branches. -/
theorem finishChoosesCause : Obligations.FinishChoosesCause :=
  fun _ => ⟨fun h => if_pos h, fun hm ho => if_neg (by simp [hm, ho])⟩

/-- With fewer than `W` bits to come the gathering loop passes through states with the same bits, until the reader finds
the terminator or the end of the input. -/
theorem DecodeInv.gather_ends {s : State} (h : DecodeInv s) (hbits : s.pendingBits < s.w.toNat) :
    ∃ t, Held s t ∧
      ((chainEnd s.blkrem.toNat s.unread = some (t.ipos - s.ipos + 1) ∧ s.fetchCode = .ended t.takeTerm.finish) ∨
       (chainEnd s.blkrem.toNat s.unread = none ∧ ∃ rem,
         s.fetchCode = .ended (State.halt .truncated { t with blkrem := rem, ipos := s.inp.length }))) := by
  have hw := h.widthHi
  obtain ⟨t, _, hh, hwt, _⟩ | ⟨t, u, hh, _, _, hpos, hu⟩ := State.gatherBits_spec 2 hw h.bitsHi (by omega) h.pos
  · have hheld : t.nbits.toNat ≤ s.pendingBits := hh.bits ▸ Nat.le_add_right _ _
    omega
  · have hopen : t.closed = false := by rw [hh.frame]; exact h.closed
    have hinp : t.inp = s.inp := by rw [hh.frame]
    refine ⟨t, hh, ?_⟩
    obtain ⟨_, e, _, _, _, hend⟩ | ⟨_, e, _, _, _, _, hend, hu', _, hlast⟩ | ⟨_, _, e, _⟩ := t.nextByte_flat <;>
      obtain ⟨e', hg⟩ | ⟨e', hg⟩ := hu <;> cases e.symm.trans e'
    · obtain ⟨hone, _, rfl⟩ := hend hopen
      refine .inl ⟨?_, State.fetchCode_of_ended hg⟩
      rw [hh.chain, hone, Option.map_some, Nat.add_comm]
    · refine .inr ⟨by rw [hh.chain, hend, Option.map_none], u.blkrem, ?_⟩
      rw [hinp] at hlast
      rw [State.fetchCode_of_ended hg, hu', hlast hpos]

/-- Settles O23: in the state the loop ends in, `Finish` or the halt chooses the cause. -/
theorem fetchEndsAtChainEnd : Obligations.FetchEndsAtChainEnd := by
  intro s h hbits
  obtain ⟨t, hh, ⟨hend, e⟩ | ⟨hend, rem, e⟩⟩ := h.gather_ends hbits
  · have hpos := hh.pos
    refine ⟨_, e, ?_, ?_, fun k hk => ?_, fun hnone => ?_⟩
    · rw [State.finish_endseen, hh.frame]
      exact h.endseen
    · rw [State.finish_eq, hh.frame]
      rfl
    · obtain rfl : t.ipos - s.ipos + 1 = k := Option.some.inj (hend.symm.trans hk)
      have hsame : t.mode = false ∧ t.ocnt = s.ocnt ∧ t.olen = s.olen := by
        rw [hh.frame]
        exact ⟨h.mode, rfl, rfl⟩
      obtain ⟨hmode, hcnt, holen⟩ := hsame
      rw [State.finish_eq]
      refine ⟨rfl, ?_, ?_, ?_⟩
      · show t.ipos + 1 = s.ipos + (t.ipos - s.ipos + 1)
        omega
      · simp [hmode, hcnt, holen]
      · simp [hmode, hcnt, holen]
    · rw [hend] at hnone; cases hnone
  · refine ⟨_, e, ?_, ?_, fun k hk => ?_, fun _ => ⟨?_, rfl, rfl, rfl⟩⟩
    · rw [hh.frame]; exact h.endseen
    · rw [hh.frame]; rfl
    · rw [hend] at hk; cases hk
    · rw [hh.frame]; exact h.closed

end Sys2Proof.Machine
end

section
/-! SUPPORT. The host's commands and register writes (spec/42_host_commands.md): what START and SKIP do while a command runs
and while none does, what a write does to each register, and the sequence of R143 that leads to a decode. -/

namespace Sys2Proof.Machine

/-! ### START and SKIP -/

theorem exec_start_of_busy {s : State} (h : s.busy = true) : exec .start s = .next s := if_pos h

/-- With a legal `M` and a slice of `OLEN` bytes the decode begins (R113). -/
theorem exec_start_of_legalM {s : State} (h : s.busy = false) (hm : legalM s.m = true) (hl : s.olen.toNat ≤ s.outLen) :
    exec .start s = .next s.startDecode := by
  simp [exec, execStart, h, hm, hl]

theorem exec_start_of_short_slice {s : State} (h : s.busy = false) (hm : legalM s.m = true) (hl : s.outLen < s.olen.toNat) :
    exec .start s = .refused .outputSliceTooShort := by
  simp [exec, execStart, h, hm, hl]

theorem exec_start_of_not_legalM {s : State} (h : s.busy = false) (hm : legalM s.m = false) :
    exec .start s = .next s.startIllegal := by
  simp [exec, execStart, h, hm]

theorem exec_skip_of_busy {s : State} (h : s.busy = true) : exec .skip s = .next s := if_pos h

theorem exec_skip_of_not_busy {s : State} (h : s.busy = false) : exec .skip s = .next s.startDrain :=
  if_neg (Bool.eq_false_iff.1 h)

theorem State.startDecode_w_toNat {s : State} (hm : s.m.toNat ≤ 8) : s.startDecode.w.toNat = s.m.toNat + 1 :=
  State.clearContext_w_toNat hm

theorem State.startDecode_next_toNat {s : State} (hm : s.m.toNat ≤ 8) : s.startDecode.next.toNat = 2 ^ s.m.toNat + 2 :=
  State.clearContext_next_toNat hm

/-- Settles O3: the four branches of START, the fields of `startDecode` and `startIllegal` by their laws. -/
theorem startCommandEffect : Obligations.StartCommandEffect := by
  refine fun s => ⟨exec_start_of_busy, fun hb h1 h8 hl => ?_, fun hb h1 h8 hl => ?_, fun hb hm => ?_⟩
  · exact exec_start_of_short_slice hb (legalM_iff.2 ⟨h1, h8⟩) hl
  · refine ⟨_, exec_start_of_legalM hb (legalM_iff.2 ⟨h1, h8⟩) hl, rfl, State.startDecode_w_toNat h8,
      State.startDecode_next_toNat h8, ?_⟩
    simp
  · refine ⟨_, exec_start_of_not_legalM hb (legalM_false_iff.2 hm), ?_⟩
    simp

/-- Settles O4: while no command runs SKIP is `startDrain`, which sets exactly the fields stated. -/
theorem skipCommandEffect : Obligations.SkipCommandEffect :=
  fun _ => ⟨exec_skip_of_busy, exec_skip_of_not_busy⟩

/-- Settles O5: both commands answer the state they start in. -/
theorem nopHasNoEffect : Obligations.NopHasNoEffect := fun _ => ⟨rfl, rfl⟩

/-! ### Register writes -/

/-- Every command is ignored while one runs (R118). -/
theorem exec_classifyCmd_of_busy {s : State} (h : s.busy = true) (cmd : BitVec 2) : exec (classifyCmd cmd) s = .next s := by
  unfold classifyCmd
  split
  · rfl
  · exact exec_start_of_busy h
  · exact exec_skip_of_busy h
  · rfl

/-- No register write does anything while a command runs (R116, R118). -/
theorem writeCsr_of_busy {s : State} (h : s.busy = true) (r : Csr) (v : Word) : writeCsr r v s = .next s := by
  cases r with
  | ctrl => exact exec_classifyCmd_of_busy h _
  | mincode | olen => exact if_pos h
  | status | ocnt | icnt | einfo | dstate => rfl

theorem step_write {s : State} {off : Nat} {v : Word} {rest : List HostOp} {r : Csr} (h : s.host = .write off v :: rest)
    (hr : csrAt off = some r) : step s = writeCsr r v { s with host := rest } := by
  rw [step_of_host h nofun nofun]
  simp only [hostOp, hr]

theorem step_writeMincode {s : State} {v : Word} {rest : List HostOp} (h : s.host = .write 0x04 v :: rest)
    (hb : s.busy = false) : step s = .next { s with m := v.extractLsb' 0 4, host := rest } := by
  rw [step_write h rfl, ← BitVec.setWidth_eq_extractLsb' (by decide)]
  exact if_neg (Bool.eq_false_iff.1 hb)

theorem step_writeOlen {s : State} {v : Word} {rest : List HostOp} (h : s.host = .write 0x08 v :: rest)
    (hb : s.busy = false) : step s = .next { s with olen := v, host := rest } :=
  (step_write h rfl).trans (if_neg (Bool.eq_false_iff.1 hb))

/-- Settles O7: the step is the write of the register at the offset. -/
theorem registerWriteEffect : Obligations.RegisterWriteEffect := by
  refine fun s v rest => ⟨step_writeMincode, step_writeOlen, fun off hoff h hb => ?_, fun off hoff h => ?_⟩
  · obtain rfl | rfl | rfl := hoff <;>
      exact (step_write h rfl).trans (writeCsr_of_busy (s := { s with host := rest }) hb _ v)
  · obtain rfl | rfl | rfl | rfl | rfl := hoff <;> exact step_write h rfl

/-! ### The sequence that starts a decode -/

theorem stepN_succ_of_step {s t : State} {n : Nat} {o : Host.Outcome State Fault Refusal} (h : step s = .next t)
    (hn : stepN n t = o) : stepN (n + 1) s = o := by
  rw [stepN, h]
  exact hn

theorem stepN_one (s : State) : stepN 1 s = step s := by
  rw [stepN]
  cases step s <;> rfl

/-- A wait ends at once while no command runs (R143). -/
theorem step_waitNotBusy {s : State} {rest : List HostOp} (h : s.host = .waitNotBusy :: rest) (hb : s.busy = false) :
    step s = .next { s with host := rest } := by
  simp [step, stepBody, h, hb]

theorem step_bindOut {s : State} {base len : Nat} {rest : List HostOp} (h : s.host = .bindOut base len :: rest)
    (hb : s.busy = false) : step s = .next { s with outBase := base, outLen := len, host := rest } := by
  obtain ⟨hbind, _⟩ := hostOutputSlice s rest
  exact hbind base len h hb

theorem step_bindIn {s : State} {bytes : List Byte} {rest : List HostOp} (h : s.host = .bindIn bytes :: rest)
    (hb : s.busy = false) : step s = .next { s with inp := bytes, host := rest } := by
  obtain ⟨_, _, hbind⟩ := hostMemoryAccess s rest
  exact hbind bytes h hb

/-- The word 1 written to `CTRL` is START (R71). -/
theorem step_writeStart {s : State} {rest : List HostOp} (h : s.host = .write 0x00 1 :: rest) :
    step s = exec .start { s with host := rest } :=
  step_of_ctrlWrite h

/-- The state in which the START of R143 step 5 is executed: steps 2 to 4 have given `M`, `OLEN`, the output slice and the
input, and `rest` is left of the queue. -/
def State.beforeStart (m : Byte) (w h : BitVec 16) (base len : Nat) (bytes : List Byte) (rest : List HostOp) (s : State) :
    State :=
  { s with
    m := (m.setWidth 32).extractLsb' 0 4, olen := frameLen w h, outBase := base, outLen := len, inp := bytes, host := rest }

/-- The low four bits of `MINCODE` hold every legal `M` (R116). -/
theorem mincode_field_toNat {m : Byte} (hm : m.toNat ≤ 8) : ((m.setWidth 32).extractLsb' 0 4).toNat = m.toNat := by
  rw [BitVec.extractLsb'_toNat, BitVec.toNat_setWidth]
  omega

/-- The product of two 16-bit values fits 32 bits (R143 step 3). -/
theorem frameLen_toNat (w h : BitVec 16) : (frameLen w h).toNat = w.toNat * h.toNat := by
  have hlt : w.toNat * h.toNat < 2 ^ 16 * 2 ^ 16 := Nat.mul_lt_mul'' w.isLt h.isLt
  rw [frameLen, BitVec.toNat_mul, BitVec.toNat_setWidth_of_le (by decide), BitVec.toNat_setWidth_of_le (by decide)]
  exact Nat.mod_eq_of_lt hlt

/-- Begun while not busy, the sequence of R143 steps 1 to 5 is START in the state with its operands. -/
theorem stepN_startSequence {s : State} {m : Byte} {w h : BitVec 16} {base len : Nat} {bytes : List Byte}
    {rest : List HostOp} (hq : s.host = startSequence m w h base len bytes ++ rest) (hb : s.busy = false) :
    stepN 6 s = exec .start (s.beforeStart m w h base len bytes rest) := by
  refine stepN_succ_of_step (step_waitNotBusy hq hb) ?_
  refine stepN_succ_of_step (step_writeMincode rfl hb) ?_
  refine stepN_succ_of_step (step_writeOlen rfl hb) ?_
  refine stepN_succ_of_step (step_bindOut rfl hb) ?_
  refine stepN_succ_of_step (step_bindIn rfl hb) ?_
  exact (stepN_one _).trans (step_writeStart rfl)

/-- Settles O57: the `M` and the slice given meet the conditions of START, which begins the decode. -/
theorem startSequenceBeginsDecode : Obligations.StartSequenceBeginsDecode := by
  intro s m w h base len bytes rest hq hb h1 h8 hlen
  have hm : (s.beforeStart m w h base len bytes rest).m.toNat = m.toNat := mincode_field_toNat h8
  have holen : (s.beforeStart m w h base len bytes rest).olen.toNat = w.toNat * h.toNat := frameLen_toNat w h
  have hlegal : legalM (s.beforeStart m w h base len bytes rest).m = true := legalM_iff.2 (by omega)
  have hstart := exec_start_of_legalM (s := s.beforeStart m w h base len bytes rest) hb hlegal (holen.trans_le hlen)
  refine ⟨_, (stepN_startSequence hq hb).trans hstart, rfl, hm, ?_, ?_, holen, ?_⟩
  · rw [State.startDecode_w_toNat (hm.trans_le h8), hm]
  · rw [State.startDecode_next_toNat (hm.trans_le h8), hm]
  · simp [State.beforeStart]

end Sys2Proof.Machine
end

section
/-! SUPPORT. What a halt does (R130). -/

namespace Sys2Proof.Machine

/-- `TRUNC <- (cause != OK)` (R130). -/
@[simp] theorem Cause.trunc_eq_true_iff (c : Cause) : c.trunc = true ↔ c ≠ .ok := decide_eq_true_iff

/-- A halt raises the line `done` (R130, R132). -/
@[simp] theorem State.halt_doneLine (c : Cause) (s : State) : (s.halt c).doneLine = true := rfl

/-- Settles O36: the fields of R130 by the rule of each, and by definition `halt` updates no other. -/
theorem haltEffect : Obligations.HaltEffect := by
  intro s cause
  have htrunc : (s.halt cause).trunc = true ↔ cause ≠ .ok := by
    rw [State.halt_trunc, Cause.trunc_eq_true_iff]
  exact ⟨s.halt_bitbuf cause, s.halt_nbits cause, s.halt_cause cause, htrunc, s.halt_st cause,
    s.halt_doneLine cause, rfl⟩

end Sys2Proof.Machine
end

section
/-! SUPPORT. Host reads while a command runs (R146): of the block only `BUSY`, `DONE` and the line `done` have a meaning. -/

namespace Sys2Proof.Machine

/-- `BUSY` and `DONE` exclude each other (R11). -/
theorem State.doneLine_of_busy {s : State} (hb : s.busy = true) : s.doneLine = false := by
  have hst : s.st ≠ .done := fun hs => by simp [State.busy, hs] at hb
  exact decide_eq_false hst

/-- Whatever the free bits are, `BUSY` is 1 and `DONE` is 0 in a `STATUS` word read while busy (R117). -/
theorem busyStatusWord_flags (n : Nat) :
    (busyStatusWord n).getLsbD 2 = true ∧ (busyStatusWord n).getLsbD 3 = false := by
  simp only [busyStatusWord, BitVec.getLsbD_or, BitVec.getLsbD_and]
  simp

theorem step_readStatus_of_busy {s : State} {rest : List HostOp} (h : s.host = .read 0x0C :: rest) (hb : s.busy = true) :
    step s = .next { s with rdata := busyStatusWord s.freeCtr, freeCtr := s.freeCtr + 1, host := rest } :=
  (step_read (r := .status) h rfl).trans (if_pos hb)

theorem step_readOut_of_busy {s : State} {a : Nat} {rest : List HostOp} (h : s.host = .readOut a :: rest)
    (hb : s.busy = true) : step s = .refused .readWhileBusy :=
  (step_of_host h nofun nofun).trans (if_pos hb)

theorem step_sampleDone_of_busy {s : State} {rest : List HostOp} (h : s.host = .sampleDone :: rest) (hb : s.busy = true) :
    step s = .next { s with rdata := 0, host := rest } := by
  have hdone : State.doneLine { s with host := rest } = false := State.doneLine_of_busy (s := s) hb
  rw [step_of_host h nofun nofun, hostOp, hdone]
  rfl

/-- Settles O11: the registers of a decode in progress refuse the read; that of `STATUS` has its two flags fixed, and the
line `done` is low. -/
theorem busyReadsOutsideAdmittedUse : Obligations.BusyReadsOutsideAdmittedUse := by
  refine fun s rest hb => ⟨fun off hoff h => ?_, fun a h => step_readOut_of_busy h hb, fun h => ?_,
    fun h => step_sampleDone_of_busy h hb⟩
  · obtain rfl | rfl | rfl | rfl := hoff <;> exact (step_read h rfl).trans (if_pos hb)
  · obtain ⟨hbusy, hdone⟩ := busyStatusWord_flags s.freeCtr
    exact ⟨_, step_readStatus_of_busy h hb, hbusy, hdone, rfl⟩

end Sys2Proof.Machine
end
